-- ==== Sys2Proof/Word.lean ====
section
/-! DEFINITION. The two widths the hardware treats as bits (00_scope.md section 6.1): the byte of every
address space and the 16-bit control word. All values are unsigned (R6). -/

namespace Sys2Proof

/-- A byte of any address space (R40). -/
abbrev Byte := BitVec 8

/-- A control word (R14, R45). -/
abbrev Word := BitVec 16

end Sys2Proof
end

