-- ==== Sys2Proof/Config.lean ====
section
/-! DEFINITION. What a machine fixes once: the open parameters of 00_scope.md R5, the fixed parameters of R4
that are not field widths, and the free values, opaque constants that stand for what the spec leaves
unspecified (93_implementation_defined.md U1 to U3). -/

namespace Sys2Proof

/-- FIELD_ORDER (R5, D3): the order in which `Bits(n)` assembles its value. -/
inductive FieldOrder where
  | msbFirst
  | lsbFirst
deriving DecidableEq, Repr

/-- The open parameters of R5 that belong to the machine and not to a run; `none` is unbounded (D15). -/
structure Config where
  /-- IN_CAP: the largest input length DEC accepts. -/
  inCap : Option Nat
  /-- OUT_CAP: the largest `olen` the sink accepts (R157). -/
  outCap : Option Nat
  /-- FIELD_ORDER. -/
  fieldOrder : FieldOrder
deriving DecidableEq, Repr

namespace Config

/-- The defaults of R5. -/
def standard : Config := { inCap := none, outCap := none, fieldOrder := .msbFirst }

/-- WINDOW (R4): the largest backreference offset of either format. -/
def window : Nat := 8191

/-- CHAIN_CAP (R4): entries of MF's per-position table. -/
def chainCap : Nat := 8192

/-- DIGRAPH_SPACE (R4): entries of MF's per-digraph tables. -/
def digraphSpace : Nat := 65536

/-! Free values. Each is applied to the counter `freeCtr` of State, so that every draw is a fresh unknown
(logs 3 and 4). The ranges are those the register has in 10_state.md. -/

/-- `ip` after an error (R222). -/
opaque freeIp : Nat → Nat
/-- `cw` after an error (R222) and after START (R30). -/
opaque freeCw : Nat → BitVec 16
/-- `cb` after an error (R222), in its range 0 .. 16 (R14). -/
opaque freeCb : Nat → Fin 17
/-- `olen` after an error (R222). -/
opaque freeOlen : Nat → Nat
/-- The bytes of OUT after an error (R222). -/
opaque freeOut : Nat → List (BitVec 8)
/-- `last_off` after an error (R222), in its 13 bits (R18). -/
opaque freeLastOff : Nat → BitVec 13
/-- `err_count` while `err` is not 2 (R21, R30), in its range 0 .. 269. -/
opaque freeErrCount : Nat → Fin 270
/-- `err_offset` while `err` is not 2 (R21, R30), in its range 0 .. 8191. -/
opaque freeErrOffset : Nat → Fin 8192
/-- `err_produced` while `err` is not 2 (R21, R30). -/
opaque freeErrProduced : Nat → Nat
/-- `fp` after an error of a framed run (R205, R222). -/
opaque freeFp : Nat → Nat
/-- `stotal` after an error of a framed run (R205, R222). -/
opaque freeStotal : Nat → Nat
/-- `chunks` after an error of a framed run (R205, R222). -/
opaque freeChunks : Nat → Nat
/-- The bytes of SOUT after an error of a framed run (R205, R222). -/
opaque freeSout : Nat → List (BitVec 8)

end Config

end Sys2Proof
end

