-- ==== Sys2Proof/Syntax.lean ====
section
/-! DEFINITION. The instructions: one constructor per row of spec/opcode_table.json, operands as the assembled
field values (30_encoding.md R63, R65, R68; 45_chunk_framing.md R201), and the Commands MF emits (R2, R29). -/

namespace Sys2Proof

/-- The count operand of SMATCH and LMATCH: the six formats of the count code (R65). -/
inductive CountCode where
  | two
  | three
  | four
  | five
  /-- CC6 with its 3-bit suffix `kkk`. -/
  | six (k : BitVec 3)
  /-- CC14 with its raw byte `m`. -/
  | fourteen (m : BitVec 8)
deriving DecidableEq, Repr

/-- The part of a CHUNK that an FR step executes (R200: each of the three is one FR step). -/
inductive ChunkPart where
  /-- The 2-byte little-endian length `L`, the chunk's first field. -/
  | length (l : BitVec 16)
  /-- The payload, one compressed chunk for DEC. -/
  | payload (p : List Byte)
  /-- The continuation byte `k`. -/
  | cont (k : Byte)
deriving DecidableEq, Repr

/-- The instructions, in the table's order. -/
inductive Instr where
  /-- LIT `b` (R112). -/
  | lit (b : Byte)
  /-- SMATCH `o, c` (R113). -/
  | smatch (o : BitVec 8) (c : CountCode)
  /-- LMATCH `v, c` (R115). -/
  | lmatch (v : BitVec 13) (c : CountCode)
  /-- FILL with a 4-bit size `s` (R116). -/
  | fill (s : BitVec 4) (b : Byte)
  /-- FILL12: FILL with a 12-bit size `s` (R116). -/
  | fill12 (s : BitVec 12) (b : Byte)
  /-- END (R118). -/
  | endMark
  /-- CC2, the count code `1` (R95). -/
  | cc2
  /-- CC3, the count code `0 1` (R95). -/
  | cc3
  /-- CC4, the count code `0 0 1` (R95). -/
  | cc4
  /-- CC5, the count code `0 0 0 1` (R95). -/
  | cc5
  /-- CC6, the count code `0 0 0 0 1 kkk` (R95). -/
  | cc6 (k : BitVec 3)
  /-- CC14, the count code `0 0 0 0 0 [B:m]` (R95). -/
  | cc14 (m : BitVec 8)
  /-- VERB, short form, with its data bytes (R133). -/
  | verb (data : List Byte)
  /-- VERBX: VERB, extended form (R133). -/
  | verbx (data : List Byte)
  /-- LFILL, short form (R135). -/
  | lfill (n : BitVec 4) (b : Byte)
  /-- LFILLX: LFILL, extended form (R135). -/
  | lfillx (n : BitVec 12) (b : Byte)
  /-- REUSE (R137). -/
  | reuse (n : BitVec 5)
  /-- NEWOFF (R139). -/
  | newoff (n : BitVec 2) (o : BitVec 13)
  /-- ADV-HEADER: the first control word of an ADV chunk, `w0` its high byte (R93). -/
  | advHeader (w0 : Byte)
  /-- CHUNK: one part of a frame (R201). -/
  | chunk (part : ChunkPart)
deriving DecidableEq, Repr

/-- The instruction a count code is when it is read on its own. -/
def CountCode.toInstr : CountCode → Instr
  | .two => .cc2
  | .three => .cc3
  | .four => .cc4
  | .five => .cc5
  | .six k => .cc6 k
  | .fourteen m => .cc14 m

/-- A Command (R2, R29): the semantic unit MF emits and the sink consumes. -/
inductive Command where
  | literal (b : Byte)
  | fill (b : Byte) (count : Nat)
  | backreference (offset count : Nat)
deriving DecidableEq, Repr

end Sys2Proof
end

