-- ==== Sys2Proof/WellFormed.lean ====
section
/-! DEFINITION. Which terms of Instr an encoding exists for: the ranges of 30_encoding.md R63, R68 and
45_chunk_framing.md R201 that the operand types do not already carry. -/

namespace Sys2Proof

/-- LMATCH needs `v >= 2` (R114); VERB's length fits 5 bits, VERBX's 13 (R68); a payload is at most 65533
bytes (R201). -/
def Instr.wf : Instr → Bool
  | .lit _ => true
  | .smatch _ _ => true
  | .lmatch v _ => decide (2 ≤ v.toNat)
  | .fill _ _ => true
  | .fill12 _ _ => true
  | .endMark => true
  | .cc2 => true
  | .cc3 => true
  | .cc4 => true
  | .cc5 => true
  | .cc6 _ => true
  | .cc14 _ => true
  | .verb data => decide (data.length < 32)
  | .verbx data => decide (data.length < 8192)
  | .lfill _ _ => true
  | .lfillx _ _ => true
  | .reuse _ => true
  | .newoff _ _ => true
  | .advHeader _ => true
  | .chunk (.length _) => true
  | .chunk (.payload p) => decide (p.length ≤ 65533)
  | .chunk (.cont _) => true

/-- The ADV commands but END (R63). -/
def Instr.isAdvCommand : Instr → Bool
  | .lit _ | .smatch _ _ | .lmatch _ _ | .fill _ _ | .fill12 _ _ => true
  | .endMark | .cc2 | .cc3 | .cc4 | .cc5 | .cc6 _ | .cc14 _ | .verb _ | .verbx _ | .lfill _ _
  | .lfillx _ _ | .reuse _ | .newoff _ _ | .advHeader _ | .chunk _ => false

/-- The LEG commands (R68). -/
def Instr.isLegCommand : Instr → Bool
  | .verb _ | .verbx _ | .lfill _ _ | .lfillx _ _ | .reuse _ | .newoff _ _ => true
  | .lit _ | .smatch _ _ | .lmatch _ _ | .fill _ _ | .fill12 _ _ | .endMark | .cc2 | .cc3 | .cc4
  | .cc5 | .cc6 _ | .cc14 _ | .advHeader _ | .chunk _ => false

/-- The count codes (R65). -/
def Instr.isCountCode : Instr → Bool
  | .cc2 | .cc3 | .cc4 | .cc5 | .cc6 _ | .cc14 _ => true
  | .lit _ | .smatch _ _ | .lmatch _ _ | .fill _ _ | .fill12 _ _ | .endMark | .verb _ | .verbx _
  | .lfill _ _ | .lfillx _ _ | .reuse _ | .newoff _ _ | .advHeader _ | .chunk _ => false

end Sys2Proof
end

