-- ==== Sys2Proof/Decode.lean ====
section
/-! DEFINITION. The bit cursor's read side (40_bit_cursor.md), the decoders of the ADV and LEG formats and of the
framing (41, 42, 45), and after them the encoder (30_encoding.md R63, R65, R68, R201) and the assembler (R79 to
R85). The only way a read can fail is a byte that is not there: Truncated (R215). -/

namespace Sys2Proof

/-! ## The cursor -/

/-- DEC's program counter: the triple of R14 (`ip` alone in LEG, R13). -/
structure Cursor where
  ip : Nat
  cw : Word
  cb : Nat
deriving DecidableEq, Repr

/-- The bytes a cursor reads: `none` at and beyond the end of the space (R41). -/
abbrev Source := Nat → Option Byte

/-- The source that a list of bytes is. -/
def listSource (bs : List Byte) : Source := fun a => bs[a]?

/-- `ByteRead()` (R90); `none` is Truncated. The cached control bits stay as they are (R263). -/
def byteRead (rd : Source) (c : Cursor) : Option (Byte × Cursor) :=
  match rd c.ip with
  | none => none
  | some b => some (b, { c with ip := c.ip + 1 })

/-- The little-endian word of two bytes, the lower address first (R45). -/
def wordOf (lo hi : Byte) : Word := BitVec.ofNat 16 (256 * hi.toNat + lo.toNat)

/-- The control-word fetch of R91, made only when no bit is cached. -/
def refill (rd : Source) (c : Cursor) : Option Cursor :=
  if c.cb = 0 then
    match byteRead rd c with
    | none => none
    | some (lo, c1) =>
      match byteRead rd c1 with
      | none => none
      | some (hi, c2) => some { c2 with cw := wordOf lo hi, cb := 16 }
  else some c

/-- `Bit()` (R91): the lowest bit of the cached word, which is then shifted right. -/
def readBit (rd : Source) (c : Cursor) : Option (Bool × Cursor) :=
  match refill rd c with
  | none => none
  | some c1 => some (c1.cw.getLsbD 0, { c1 with cw := c1.cw >>> 1, cb := c1.cb - 1 })

/-- `n` calls of `Bit()`, in read order. -/
def readBitList (rd : Source) : Nat → Cursor → Option (List Bool × Cursor)
  | 0, c => some ([], c)
  | n + 1, c =>
    match readBit rd c with
    | none => none
    | some (b, c1) =>
      match readBitList rd n c1 with
      | none => none
      | some (bs, c2) => some (b :: bs, c2)

/-- `n` calls of `ByteRead()`, in read order. -/
def readByteList (rd : Source) : Nat → Cursor → Option (List Byte × Cursor)
  | 0, c => some ([], c)
  | n + 1, c =>
    match byteRead rd c with
    | none => none
    | some (b, c1) =>
      match readByteList rd n c1 with
      | none => none
      | some (bs, c2) => some (b :: bs, c2)

/-- The value of a field from its control bits and its raw bytes, both in read order (R66, R94). `msbFirst` is
the spec's default; `lsbFirst` makes the first bit read bit 0 and puts the byte part above the bits (D3). -/
def assembleField (fo : FieldOrder) (bits : List Bool) (bytes : List Byte) : Nat :=
  match fo with
  | .msbFirst =>
    bytes.foldl (fun x y => 256 * x + y.toNat) (bits.foldl (fun x b => 2 * x + b.toNat) 0)
  | .lsbFirst =>
    bits.foldr (fun b x => b.toNat + 2 * x) (bytes.foldr (fun y x => y.toNat + 256 * x) 0)

/-- `Bits(n)` (R94): `n mod 8` control bits, then `n div 8` raw bytes. -/
def readBits (fo : FieldOrder) (rd : Source) (n : Nat) (c : Cursor) : Option (Nat × Cursor) :=
  match readBitList rd (n % 8) c with
  | none => none
  | some (bits, c1) =>
    match readByteList rd (n / 8) c1 with
    | none => none
    | some (bytes, c2) => some (assembleField fo bits bytes, c2)

/-- The tail of `CountCode()` after four control bits that read 0 (R95). -/
def readLongCount (fo : FieldOrder) (rd : Source) (c : Cursor) : Option (CountCode × Cursor) :=
  match readBit rd c with
  | none => none
  | some (true, c1) =>
    match readBits fo rd 3 c1 with
    | none => none
    | some (k, c2) => some (.six (BitVec.ofNat 3 k), c2)
  | some (false, c1) =>
    match readBits fo rd 8 c1 with
    | none => none
    | some (m, c2) => some (.fourteen (BitVec.ofNat 8 m), c2)

/-- `CountCode()` (R95), as the format it reads. -/
def readCountCode (fo : FieldOrder) (rd : Source) (c : Cursor) : Option (CountCode × Cursor) :=
  match readBit rd c with
  | none => none
  | some (true, c1) => some (.two, c1)
  | some (false, c1) =>
    match readBit rd c1 with
    | none => none
    | some (true, c2) => some (.three, c2)
    | some (false, c2) =>
      match readBit rd c2 with
      | none => none
      | some (true, c3) => some (.four, c3)
      | some (false, c3) =>
        match readBit rd c3 with
        | none => none
        | some (true, c4) => some (.five, c4)
        | some (false, c4) => readLongCount fo rd c4

/-- A count code read on its own, as the instruction of its table row. -/
def decodeCountCode (fo : FieldOrder) (rd : Source) (c : Cursor) : Option (Instr × Cursor) :=
  match readCountCode fo rd c with
  | none => none
  | some (cc, c1) => some (cc.toInstr, c1)

/-! ## The ADV decoder (R111 to R118) -/

/-- LIT after its control bit `0` (R112). -/
def decodeLit (rd : Source) (c : Cursor) : Option (Instr × Cursor) :=
  match byteRead rd c with
  | none => none
  | some (b, c1) => some (.lit b, c1)

/-- SMATCH after `1 0`: the offset, then the count code (R113). -/
def decodeSmatch (fo : FieldOrder) (rd : Source) (c : Cursor) : Option (Instr × Cursor) :=
  match readBits fo rd 8 c with
  | none => none
  | some (o, c1) =>
    match readCountCode fo rd c1 with
    | none => none
    | some (cc, c2) => some (.smatch (BitVec.ofNat 8 o) cc, c2)

/-- FILL after `v = 1`: selector, size, fill byte; selector 1 is the 12-bit size (R116, D5). -/
def decodeFill (fo : FieldOrder) (rd : Source) (c : Cursor) : Option (Instr × Cursor) :=
  match readBit rd c with
  | none => none
  | some (true, c1) =>
    match readBits fo rd 12 c1 with
    | none => none
    | some (s, c2) =>
      match byteRead rd c2 with
      | none => none
      | some (b, c3) => some (.fill12 (BitVec.ofNat 12 s) b, c3)
  | some (false, c1) =>
    match readBits fo rd 4 c1 with
    | none => none
    | some (s, c2) =>
      match byteRead rd c2 with
      | none => none
      | some (b, c3) => some (.fill (BitVec.ofNat 4 s) b, c3)

/-- After `1 1`: the 13-bit selector `v` picks END, FILL or LMATCH (R114). -/
def decodeExtended (fo : FieldOrder) (rd : Source) (c : Cursor) : Option (Instr × Cursor) :=
  match readBits fo rd 13 c with
  | none => none
  | some (v, c1) =>
    if v = 0 then some (.endMark, c1)
    else if v = 1 then decodeFill fo rd c1
    else
      match readCountCode fo rd c1 with
      | none => none
      | some (cc, c2) => some (.lmatch (BitVec.ofNat 13 v) cc, c2)

/-- The ADV dispatcher (R111); `none` is Truncated. -/
def decodeAdv (fo : FieldOrder) (rd : Source) (c : Cursor) : Option (Instr × Cursor) :=
  match readBit rd c with
  | none => none
  | some (false, c1) => decodeLit rd c1
  | some (true, c1) =>
    match readBit rd c1 with
    | none => none
    | some (false, c2) => decodeSmatch fo rd c2
    | some (true, c2) => decodeExtended fo rd c2

/-! ## The LEG decoder (R130 to R139) -/

/-- What decoding a LEG command gives. A VERB cut short has emitted some data bytes before the read that fails
(R133): their number matters only against a finite OUT_CAP (log 10). -/
inductive Decoded where
  | ok (i : Instr) (c : Cursor)
  | truncated (emitted : Nat)
deriving DecidableEq, Repr

/-- The bytes from address `a` on that are there, at most `n` of them. -/
def availableBytes (rd : Source) : Nat → Nat → List Byte
  | 0, _ => []
  | n + 1, a =>
    match rd a with
    | none => []
    | some b => b :: availableBytes rd n (a + 1)

/-- The `n` data bytes of a VERB (R133). -/
def decodeData (form : List Byte → Instr) (rd : Source) (n : Nat) (c : Cursor) : Decoded :=
  let data := availableBytes rd n c.ip
  if data.length = n then .ok (form data) { c with ip := c.ip + n } else .truncated data.length

/-- VERB: opcode `00x nnnnn` (R133). -/
def decodeVerb (rd : Source) (op : Byte) (c : Cursor) : Decoded :=
  if op.getLsbD 5 then
    match byteRead rd c with
    | none => .truncated 0
    | some (l, c1) => decodeData .verbx rd (256 * (op.extractLsb' 0 5).toNat + l.toNat) c1
  else decodeData .verb rd (op.extractLsb' 0 5).toNat c

/-- LFILL: opcode `010x nnnn` (R135). -/
def decodeLfill (rd : Source) (op : Byte) (c : Cursor) : Decoded :=
  if op.getLsbD 4 then
    match byteRead rd c with
    | none => .truncated 0
    | some (l, c1) =>
      match byteRead rd c1 with
      | none => .truncated 0
      | some (b, c2) =>
        .ok (.lfillx (BitVec.ofNat 12 (256 * (op.extractLsb' 0 4).toNat + l.toNat)) b) c2
  else
    match byteRead rd c with
    | none => .truncated 0
    | some (b, c1) => .ok (.lfill (op.extractLsb' 0 4) b) c1

/-- NEWOFF: opcode `1nn ooooo`, then one byte (R139). -/
def decodeNewoff (rd : Source) (op : Byte) (c : Cursor) : Decoded :=
  match byteRead rd c with
  | none => .truncated 0
  | some (l, c1) =>
    .ok (.newoff (op.extractLsb' 5 2) (BitVec.ofNat 13 (256 * (op.extractLsb' 0 5).toNat + l.toNat))) c1

/-- The LEG dispatcher on an opcode byte (R130, R73): total over all 256 values. -/
def decodeOpcode (rd : Source) (op : Byte) (c : Cursor) : Decoded :=
  if op.extractLsb' 6 2 = 0 then decodeVerb rd op c
  else if op.extractLsb' 5 3 = 2 then decodeLfill rd op c
  else if op.extractLsb' 5 3 = 3 then .ok (.reuse (op.extractLsb' 0 5)) c
  else decodeNewoff rd op c

/-- One LEG command at the cursor (R130, after the end test). -/
def decodeLeg (rd : Source) (c : Cursor) : Decoded :=
  match byteRead rd c with
  | none => .truncated 0
  | some (op, c1) => decodeOpcode rd op c1

/-! ## Format selection (R110) and the framing (R201) -/

/-- The SELECT step's reads (R110): the discriminator, the rewind, and in an ADV chunk the two reads of
`CursorInit()` (R93). `none` is Truncated; the inner `none` is a LEG chunk, whose first byte stays unread. -/
def decodeSelect (rd : Source) (c : Cursor) : Option (Option Instr × Cursor) :=
  match byteRead rd c with
  | none => none
  | some (d, c1) =>
    let start := { c1 with ip := 0 }
    if d = 0 then
      match byteRead rd start with
      | none => none
      | some (_, c2) =>
        match byteRead rd c2 with
        | none => none
        | some (hi, c3) => some (some (.advHeader hi), c3)
    else some (none, start)

/-- A frame's length field at `fp`: two bytes, little-endian (R202). -/
def decodeLength (rd : Source) (fp : Nat) : Option (Instr × Nat) :=
  match rd fp with
  | none => none
  | some lo =>
    match rd (fp + 1) with
    | none => none
    | some hi => some (.chunk (.length (wordOf lo hi)), fp + 2)

/-- A frame's payload of `plen` bytes at `fp` (R203). -/
def decodePayload (rd : Source) (fp plen : Nat) : Option (Instr × Nat) :=
  let data := availableBytes rd plen fp
  if data.length = plen then some (.chunk (.payload data), fp + plen) else none

/-- A frame's continuation byte at `fp` (R204). -/
def decodeCont (rd : Source) (fp : Nat) : Option (Instr × Nat) :=
  match rd fp with
  | none => none
  | some k => some (.chunk (.cont k), fp + 1)

/-! ## The encoder -/

/-- An element of a command in read order (R60, R63): a control bit or a raw byte. -/
inductive Elem where
  | bit (b : Bool)
  | byte (b : Byte)
deriving DecidableEq, Repr

/-- The control bits of an `n`-bit field value, in read order (R66, R82). -/
def fieldBits (fo : FieldOrder) (n v : Nat) : List Bool :=
  match fo with
  | .msbFirst => (List.range (n % 8)).map fun i => v.testBit (n - 1 - i)
  | .lsbFirst => (List.range (n % 8)).map fun i => v.testBit i

/-- The raw bytes of an `n`-bit field value, in read order (R66, R82). -/
def fieldBytes (fo : FieldOrder) (n v : Nat) : List Byte :=
  match fo with
  | .msbFirst => (List.range (n / 8)).map fun i => BitVec.ofNat 8 (v >>> (8 * (n / 8 - 1 - i)))
  | .lsbFirst => (List.range (n / 8)).map fun i => BitVec.ofNat 8 (v >>> (n % 8 + 8 * i))

/-- `PutBits(n, v)` (R82) as elements: the inverse of `Bits(n)`. -/
def encodeField (fo : FieldOrder) (n v : Nat) : List Elem :=
  (fieldBits fo n v).map .bit ++ (fieldBytes fo n v).map .byte

/-- The elements of a count code (R65). -/
def CountCode.encode (fo : FieldOrder) : CountCode → List Elem
  | .two => [.bit true]
  | .three => [.bit false, .bit true]
  | .four => [.bit false, .bit false, .bit true]
  | .five => [.bit false, .bit false, .bit false, .bit true]
  | .six k =>
    [.bit false, .bit false, .bit false, .bit false, .bit true] ++ encodeField fo 3 k.toNat
  | .fourteen m =>
    [.bit false, .bit false, .bit false, .bit false, .bit false] ++ encodeField fo 8 m.toNat

/-- A raw byte given by its value. -/
def rawByte (v : Nat) : Elem := .byte (BitVec.ofNat 8 v)

/-- The elements of an instruction in read order: R63 for ADV, R65 for the count codes, R68 for LEG, R93 for the
header, R201 for a part of a frame. A term that is not well formed has no encoding in the rules; what this answers for
one is cut to the fields and means nothing (log 22). -/
def encode (fo : FieldOrder) : Instr → List Elem
  | .lit b => [.bit false, .byte b]
  | .smatch o c => [.bit true, .bit false] ++ encodeField fo 8 o.toNat ++ c.encode fo
  | .lmatch v c => [.bit true, .bit true] ++ encodeField fo 13 v.toNat ++ c.encode fo
  | .fill s b =>
    [.bit true, .bit true] ++ encodeField fo 13 1 ++ [.bit false] ++ encodeField fo 4 s.toNat
      ++ [.byte b]
  | .fill12 s b =>
    [.bit true, .bit true] ++ encodeField fo 13 1 ++ [.bit true] ++ encodeField fo 12 s.toNat
      ++ [.byte b]
  | .endMark => [.bit true, .bit true] ++ encodeField fo 13 0
  | .cc2 => CountCode.two.encode fo
  | .cc3 => CountCode.three.encode fo
  | .cc4 => CountCode.four.encode fo
  | .cc5 => CountCode.five.encode fo
  | .cc6 k => (CountCode.six k).encode fo
  | .cc14 m => (CountCode.fourteen m).encode fo
  | .verb data => rawByte data.length :: data.map .byte
  | .verbx data =>
    [rawByte (0x20 + data.length / 256), rawByte data.length] ++ data.map .byte
  | .lfill n b => [rawByte (0x40 + n.toNat), .byte b]
  | .lfillx n b => [rawByte (0x50 + n.toNat / 256), rawByte n.toNat, .byte b]
  | .reuse n => [rawByte (0x60 + n.toNat)]
  | .newoff n o => [rawByte (0x80 + 32 * n.toNat + o.toNat / 256), rawByte o.toNat]
  | .advHeader w0 => [.byte 0, .byte w0]
  | .chunk (.length l) => [rawByte l.toNat, rawByte (l.toNat / 256)]
  | .chunk (.payload p) => p.map .byte
  | .chunk (.cont k) => [.byte k]

/-- The bytes of an encoding that has no control bits (every LEG command, R68, and every part of a frame). -/
def elemBytes : List Elem → List Byte
  | [] => []
  | .byte b :: es => b :: elemBytes es
  | .bit _ :: es => elemBytes es

/-- The bytes of a LEG command (R85). -/
def encodeLeg (i : Instr) : List Byte := elemBytes (encode .msbFirst i)

/-- Reading from the cursor `c` delivers the elements `es`, in order, wherever control words fall, and leaves the
cursor at the result; `none` when an element differs or a byte is missing (R60, R62, R120). -/
def spells (rd : Source) : List Elem → Cursor → Option Cursor
  | [], c => some c
  | .bit b :: es, c =>
    match readBit rd c with
    | none => none
    | some (x, c1) => if x = b then spells rd es c1 else none
  | .byte b :: es, c =>
    match byteRead rd c with
    | none => none
    | some (x, c1) => if x = b then spells rd es c1 else none

/-! ## The assembler (R79 to R85) -/

/-- The ADV assembler's state (R80). -/
structure Asm where
  w : List Byte
  wslot : Nat
  wused : Nat
deriving DecidableEq, Repr

/-- The start of an ADV chunk: the first word's low byte is the discriminator (R80). -/
def Asm.start : Asm := { w := [0, 0], wslot := 0, wused := 8 }

/-- A new control word at the end of the bytes when the current one is full (R81). -/
def Asm.room (a : Asm) : Asm :=
  if a.wused = 16 then { w := a.w ++ [0, 0], wslot := a.w.length, wused := 0 } else a

/-- Set bit `k` of the byte `x` to `b`, the bit being 0 before. -/
def setBit (x : Byte) (k : Nat) (b : Bool) : Byte :=
  if b then x ||| (1#8 <<< k) else x

/-- `PutBit(b)` (R81). -/
def Asm.putBit (a : Asm) (b : Bool) : Asm :=
  let a1 := a.room
  { a1 with
    w := a1.w.modify (a1.wslot + a1.wused / 8) (fun x => setBit x (a1.wused % 8) b)
    wused := a1.wused + 1 }

/-- `PutByte(b)` (R82). -/
def Asm.putByte (a : Asm) (b : Byte) : Asm := { a with w := a.w ++ [b] }

/-- One element. -/
def Asm.put (a : Asm) : Elem → Asm
  | .bit b => a.putBit b
  | .byte b => a.putByte b

/-- Elements in order (R84). -/
def Asm.putAll (a : Asm) (es : List Elem) : Asm := es.foldl Asm.put a

/-- The ADV chunk of a program that ends in END (R84). -/
def assembleAdv (fo : FieldOrder) (prog : List Instr) : List Byte :=
  (prog.foldl (fun a i => a.putAll (encode fo i)) Asm.start).w

/-- The LEG chunk of a program (R85). -/
def assembleLeg (prog : List Instr) : List Byte := prog.flatMap encodeLeg

/-! The lines of assembly (R78, R79, R83 to R85) with their operands as numbers. An operand outside the range the rule
gives, or that the fields can hold, has no line: the rules say nothing there, and that the answer is `none` is the
model's choice (DESIGN CHOICE, safe: log 22). -/

/-- `PutCount(c)` (R83): the one count code that spells `c`, for 2 <= `c` <= 269 (R71); `none` outside (log 22). -/
def CountCode.ofCount (c : Nat) : Option CountCode :=
  if c < 2 then none
  else if c = 2 then some .two
  else if c = 3 then some .three
  else if c = 4 then some .four
  else if c = 5 then some .five
  else if c ≤ 13 then some (.six (BitVec.ofNat 3 (c - 6)))
  else if c ≤ 269 then some (.fourteen (BitVec.ofNat 8 (c - 14)))
  else none

/-- `SMATCH o, c` for 1 <= `o` <= 255 and 2 <= `c` <= 269 (R84); `none` outside (log 22). -/
def asmSmatch (o c : Nat) : Option Instr :=
  if 1 ≤ o ∧ o ≤ 255 then (CountCode.ofCount c).map (.smatch (BitVec.ofNat 8 o)) else none

/-- `LMATCH o, c` for 2 <= `o` <= 8191 and 2 <= `c` <= 269 (R84); `none` outside (log 22). -/
def asmLmatch (o c : Nat) : Option Instr :=
  if 2 ≤ o ∧ o ≤ 8191 then (CountCode.ofCount c).map (.lmatch (BitVec.ofNat 13 o)) else none

/-- The pseudo-instruction `MATCH o, c` (R79): SMATCH for `o` <= 255, else LMATCH; `none` outside 1 <= `o` <= 8191
(log 22). -/
def asmMatch (o c : Nat) : Option Instr := if o ≤ 255 then asmSmatch o c else asmLmatch o c

/-- `FILL12 b, c` for 14 <= `c` <= 4109 (R78, R84); `none` outside (log 22). -/
def asmFill12 (b : Byte) (c : Nat) : Option Instr :=
  if 14 ≤ c ∧ c ≤ 4109 then some (.fill12 (BitVec.ofNat 12 (c - 14)) b) else none

/-- `FILL b, c` for 14 <= `c` <= 4109: the 4-bit size when it fits (R78, R84); `none` outside (log 22). -/
def asmFill (b : Byte) (c : Nat) : Option Instr :=
  if 14 ≤ c ∧ c < 30 then some (.fill (BitVec.ofNat 4 (c - 14)) b) else asmFill12 b c

/-- The pseudo-instruction `BYTES b0 b1 ...` (R79). -/
def asmBytes (bs : List Byte) : List Instr := bs.map .lit

/-- `VERBX b0 b1 ...` with at most 8191 bytes, which its 13 bits hold (R68, R78); `none` with more (log 22). -/
def asmVerbx (data : List Byte) : Option Instr :=
  if data.length ≤ 8191 then some (.verbx data) else none

/-- `VERB b0 b1 ...`: the short form when it fits (R78, R85); `none` with more than 8191 bytes (log 22). -/
def asmVerb (data : List Byte) : Option Instr :=
  if data.length < 32 then some (.verb data) else asmVerbx data

/-- `LFILLX b, c` for 4 <= `c` <= 4099, which its 12 bits hold (R68, R78); `none` outside (log 22). -/
def asmLfillx (b : Byte) (c : Nat) : Option Instr :=
  if 4 ≤ c ∧ c ≤ 4099 then some (.lfillx (BitVec.ofNat 12 (c - 4)) b) else none

/-- `LFILL b, c` for 4 <= `c` <= 4099: the short form when it fits (R78, R85); `none` outside (log 22). -/
def asmLfill (b : Byte) (c : Nat) : Option Instr :=
  if 4 ≤ c ∧ c < 20 then some (.lfill (BitVec.ofNat 4 (c - 4)) b) else asmLfillx b c

/-- `REUSE c` for `c` <= 31 (R68, R85); `none` outside (log 22). -/
def asmReuse (c : Nat) : Option Instr := if c ≤ 31 then some (.reuse (BitVec.ofNat 5 c)) else none

/-- `NEWOFF o, c` for 4 <= `c` <= 7 and `o` <= 8191 (R68, R85); `none` outside (log 22). -/
def asmNewoff (o c : Nat) : Option Instr :=
  if (4 ≤ c ∧ c ≤ 7) ∧ o ≤ 8191 then
    some (.newoff (BitVec.ofNat 2 (c - 4)) (BitVec.ofNat 13 o))
  else none

/-- A Command of MF as an ADV command (R78, R79); `none` where the ADV format cannot spell it, which R256 allows for
parameters out of their ranges (log 22). -/
def Command.toAdv : Command → Option Instr
  | .literal b => some (.lit b)
  | .fill b c => asmFill b c
  | .backreference o c => asmMatch o c

/-! ## The table's words -/

/-- Byte `k` of an instruction whose bits are numbered as the table numbers them. -/
def tableByte (nbits w k : Nat) : Byte := BitVec.ofNat 8 ((w % 2 ^ nbits) >>> (8 * k))

/-- The longest instruction a DEC fetch takes: VERBX with 8191 data bytes (R77). -/
def longestInstr : Nat := 8193

/-- How many bytes a table word is laid out with: every byte above `nbits` is zero. -/
def tableLength (nbits : Nat) : Nat := max ((nbits + 7) / 8) longestInstr

/-- A table word as a chunk. -/
def tableSource (nbits w : Nat) : Source :=
  fun a => if a < tableLength nbits then some (tableByte nbits w a) else none

/-- The instruction a chunk begins with when its bytes are those of the table's word: byte 0 `00` is the header of
an ADV chunk, any other byte is the first LEG opcode (R61, R73, log 15). -/
def decodeTableWord (nbits w : Nat) : Option Instr :=
  let rd := tableSource nbits w
  let c : Cursor := { ip := 0, cw := 0, cb := 0 }
  match decodeSelect rd c with
  | none => none
  | some (some i, _) => some i
  | some (none, c1) =>
    match decodeLeg rd c1 with
    | .ok i _ => some i
    | .truncated _ => none

end Sys2Proof
end

