-- ==== Sys2Proof/Machine/State.lean ====
section
/-! DEFINITION. The state of DEC, FR and MF (10_state.md), the model's own fields, the reasons a step can stop, and
the state after reset (R30, R31, R23, R250). -/

namespace Sys2Proof.Machine

/-- A byte space (R40) as (address, byte) cells in one canonical form; an address that is not listed reads `00`
(log 1). -/
abbrev Memory := List Host.Cell

/-- The canonical form: addresses strictly rising, and no cell equal to what an unlisted address reads as. -/
abbrev Memory.wf (m : Memory) : Prop :=
  m.Pairwise (fun c d => c.1 < d.1) ∧ ∀ c ∈ m, c.2 ≠ 0

/-- A table of MF (R27): (entry, position) pairs, entries strictly rising; an entry that is not listed holds NIL,
which is so distinct from every position. -/
abbrev Table := List (Nat × Nat)

/-- The canonical form of a table. -/
abbrev Table.wf (t : Table) : Prop := t.Pairwise (fun c d => c.1 < d.1)

/-- `sink_mode` (R12, R150). -/
inductive SinkMode where
  | materialize
  | sizeOnly
deriving DecidableEq, Repr

/-- `st` (R19). -/
inductive RunState where
  | idle
  | select
  | advReadControl
  | legOpcode
  | done
  | error
deriving DecidableEq, Repr

/-- `fst` (R23); `pfx` is PREFIX. -/
inductive FrState where
  | idle
  | pfx
  | payload
  | cont
  | done
  | error
deriving DecidableEq, Repr

/-- `mst` (R29). -/
inductive MfState where
  | idle
  | scan
  | done
deriving DecidableEq, Repr

/-- `err` (R21): no error, or one of the three kinds (R215). -/
inductive ErrCode where
  | none
  | truncated
  | invalidBackreference
  | unrecognizedChunkHeader
deriving DecidableEq, Repr

/-- The agents of the block (R10). -/
inductive Agent where
  | dec
  | fr
  | mf
deriving DecidableEq, Repr

/-- The four parameters of an MF run (R24). -/
inductive MfParam where
  | matchMin
  | matchMax
  | fillMin
  | fillMax
deriving DecidableEq, Repr

/-- What the host can name in a read (R22, R23, R29, R56, R227); an address follows a byte space. -/
inductive HostReg where
  | st
  | n
  | sinkMode
  | inByte (a : Nat)
  | ip
  | olen
  | outByte (a : Nat)
  | err
  | errCount
  | errOffset
  | errProduced
  | cw
  | cb
  | lastOff
  | fst
  | fp
  | stotal
  | chunks
  | soutByte (a : Nat)
  | mst
  | cmdq
deriving DecidableEq, Repr

/-- The host's actions (R227): reset, the three STARTs, the writes of a run's configuration, and reads. -/
inductive HostAction where
  | reset
  | startDec
  | startFr
  | startMf
  | writeIn (a : Nat) (b : Byte)
  | writeN (v : Nat)
  | writeSinkMode (v : SinkMode)
  | writeFs (a : Nat) (b : Byte)
  | writeFn (v : Nat)
  | writeSrc (a : Nat) (b : Byte)
  | writeM (v : Nat)
  | writeMfParam (p : MfParam) (v : Nat)
  | read (r : HostReg)
deriving DecidableEq, Repr

/-- One move of the machine: an action of the host, or a step of an agent (log 6). -/
inductive Turn where
  | host (a : HostAction)
  | agent (g : Agent)
deriving DecidableEq, Repr

/-- What a host read delivers. -/
inductive Datum where
  | nat (v : Nat)
  | byte (b : Byte)
  | runState (v : RunState)
  | frState (v : FrState)
  | mfState (v : MfState)
  | sinkMode (v : SinkMode)
  | commands (v : List Command)
deriving DecidableEq, Repr

/-- The machine. Field by field: INVENTORY.md, State. -/
structure State where
  /-- The open parameters (R5). -/
  cfg : Config
  /-- `N` (R12). -/
  n : Nat
  /-- `sink_mode` (R12). -/
  sinkMode : SinkMode
  /-- Space IN (R12, R41). -/
  inp : Memory
  /-- `st` (R19). -/
  st : RunState
  /-- `ip` (R13). -/
  ip : Nat
  /-- `cw` (R14). -/
  cw : Word
  /-- `cb` (R14). -/
  cb : Nat
  /-- `olen` (R16). -/
  olen : Nat
  /-- Space OUT (R17, R42). -/
  out : Memory
  /-- `last_off` (R18). -/
  lastOff : BitVec 13
  /-- `err` (R21). -/
  err : ErrCode
  /-- `err_count` (R21). -/
  errCount : Nat
  /-- `err_offset` (R21). -/
  errOffset : Nat
  /-- `err_produced` (R21). -/
  errProduced : Nat
  /-- The model's own: the count the last count code delivered (log 5). -/
  count : Nat
  /-- The model's own: the `sink_mode` OUT was made under, the one at DEC's last START (log 21). -/
  outMode : SinkMode
  /-- The model's own: the `sink_mode` SOUT was made under, the one at the last framed START (log 21). -/
  soutMode : SinkMode
  /-- Space FS (R23). -/
  fs : Memory
  /-- `FN` (R23). -/
  fn : Nat
  /-- `fp` (R23). -/
  fp : Nat
  /-- `fst` (R23). -/
  fst : FrState
  /-- Space SOUT (R23). -/
  sout : Memory
  /-- `stotal` (R23). -/
  stotal : Nat
  /-- `chunks` (R23). -/
  chunks : Nat
  /-- `plen` (R202, R203): what FrPrefix leaves for FrPayload. -/
  plen : Nat
  /-- Space SRC (R24, R43). -/
  src : Memory
  /-- `M` (R24). -/
  m : Nat
  /-- MF_MATCH_MIN (R24). -/
  mfMatchMin : Nat
  /-- MF_MATCH_MAX (R24). -/
  mfMatchMax : Nat
  /-- MF_FILL_MIN (R24). -/
  mfFillMin : Nat
  /-- MF_FILL_MAX (R24). -/
  mfFillMax : Nat
  /-- `pos` (R25). -/
  pos : Nat
  /-- `idx` (R26), its positions in ascending order. -/
  idx : List Nat
  /-- `head` (R27). -/
  headT : Table
  /-- `tail` (R27). -/
  tailT : Table
  /-- `next` (R27). -/
  nextT : Table
  /-- CMDQ (R29), in order of emission. -/
  cmdq : List Command
  /-- `mst` (R29). -/
  mst : MfState
  /-- The model's own: the moves still to come (log 6). -/
  agenda : List Turn
  /-- The model's own: what the host's last read delivered (log 9). -/
  hostData : Option Datum
  /-- The model's own: the counter the free values are drawn with (log 3). -/
  freeCtr : Nat
deriving DecidableEq, Repr

/-- Why a step stops with a fault. -/
inductive Fault where
  /-- The host reads a byte space at an address that is not in it. Raised by host reads only; R40 gives such an
  address no meaning. Safe: no value is given. -/
  | noSuchAddress
deriving DecidableEq, Repr

/-- Why a step is refused: situations that 93_implementation_defined.md treats as `refuse`. -/
inductive Refusal where
  /-- An instruction whose meaning is not written. Raised by exec's arms only. Safe. -/
  | notModelled (mnemonic : String)
  /-- A sink operation would make `olen` exceed a finite OUT_CAP (R157, U5). Raised by the sink operations. Safe. -/
  | outCapExceeded
  /-- A DEC run is started with `N` above a finite IN_CAP (R5, U5). Raised by the DEC START. Safe. -/
  | inCapExceeded
  /-- START of an agent that is running, or of DEC or FR while the other one's run uses DEC (R227, U6). Raised by
  the host's STARTs. Safe. -/
  | startWhileRunning
  /-- A host write of an input or configuration register of a running agent (R262, U6). Raised by host writes.
  Safe. -/
  | writeWhileRunning
  /-- A host read of a register that R22, R56 or R222 does not let the host read now. Raised by host reads.
  Safe. -/
  | readNotAllowed
deriving DecidableEq, Repr

/-- What a step or a meaning gives. -/
abbrev Result := Host.Outcome State Fault Refusal

/-- The machine right after reset (R250): the values of R30, R31 and R23. Where those say "unspecified" or
"host-written" the values are the model's choice (logs 1 and 2); the model's own fields stand at the end. -/
def State.reset : State where
  cfg := Config.standard
  n := 0
  sinkMode := .materialize
  inp := []
  st := .idle
  ip := 0
  cw := 0
  cb := 0
  olen := 0
  out := []
  lastOff := 0
  err := .none
  errCount := 0
  errOffset := 0
  errProduced := 0
  count := 0
  outMode := .materialize
  soutMode := .materialize
  fs := []
  fn := 0
  fp := 0
  fst := .idle
  sout := []
  stotal := 0
  chunks := 0
  plen := 0
  src := []
  m := 0
  mfMatchMin := 2
  mfMatchMax := 269
  mfFillMin := 14
  mfFillMax := 4109
  pos := 0
  idx := []
  headT := []
  tailT := []
  nextT := []
  cmdq := []
  mst := .idle
  agenda := []
  hostData := none
  freeCtr := 0

end Sys2Proof.Machine
end

