-- ==== Sys2Proof/Machine/Flags.lean ====
section
/-! DEFINITION. The block's flags. There are no condition codes (R20): what stands for flags is the terminal values
of `st`, `fst` and `mst`, and `err` with its numeric codes (R21, R215). -/

namespace Sys2Proof.Machine

/-- DEC is in a run: neither IDLE, DONE nor ERROR (R19, R251). -/
def RunState.running : RunState → Bool
  | .select | .advReadControl | .legOpcode => true
  | .idle | .done | .error => false

/-- The run ended (R223, R230). -/
def RunState.terminal : RunState → Bool
  | .done | .error => true
  | .idle | .select | .advReadControl | .legOpcode => false

/-- FR is in a run (R23). -/
def FrState.running : FrState → Bool
  | .pfx | .payload | .cont => true
  | .idle | .done | .error => false

/-- MF is in a run (R29). -/
def MfState.running : MfState → Bool
  | .scan => true
  | .idle | .done => false

/-- A framed run is on: FR owns DEC (R200). -/
def State.framed (s : State) : Bool := s.fst.running

/-- DEC, or FR with it, is in a run: IN, `N` and `sink_mode` are in use (R262). -/
def State.decBusy (s : State) : Bool := s.st.running || s.framed

/-- The numeric code of `err` (R21, D11). -/
def ErrCode.code : ErrCode → Nat
  | .none => 0
  | .truncated => 1
  | .invalidBackreference => 2
  | .unrecognizedChunkHeader => 3

end Sys2Proof.Machine
end

