-- ==== Sys2Proof/Machine/Operands.lean ====
section
/-! DEFINITION. What an operand field stands for: counts are a field plus a constant, offsets the field itself
(30_encoding.md R63, R65, R66, R67, R68). -/

namespace Sys2Proof.Machine

/-- The count a count code delivers (R95). -/
def countOf : CountCode → Nat
  | .two => 2
  | .three => 3
  | .four => 4
  | .five => 5
  | .six k => 6 + k.toNat
  | .fourteen m => 14 + m.toNat

/-- FILL's count from its 4-bit size (R116). -/
def fillCount (s : BitVec 4) : Nat := 14 + s.toNat

/-- FILL's count from its 12-bit size (R116). -/
def fill12Count (s : BitVec 12) : Nat := 14 + s.toNat

/-- LFILL's count, short form (R135). -/
def lfillCount (n : BitVec 4) : Nat := 4 + n.toNat

/-- LFILL's count, extended form (R135). -/
def lfillxCount (n : BitVec 12) : Nat := 4 + n.toNat

/-- REUSE's count: the field, no constant added (R137). -/
def reuseCount (n : BitVec 5) : Nat := n.toNat

/-- NEWOFF's count (R139). -/
def newoffCount (n : BitVec 2) : Nat := 4 + n.toNat

/-- SMATCH's offset (R113). -/
def smatchOffset (o : BitVec 8) : Nat := o.toNat

/-- LMATCH's offset: the selector value itself (R115). -/
def lmatchOffset (v : BitVec 13) : Nat := v.toNat

/-- An offset of the LEG format (R137, R139). -/
def legOffset (o : BitVec 13) : Nat := o.toNat

end Sys2Proof.Machine
end

