-- ==== Sys2Proof/Machine/Ops.lean ====
section
/-! DEFINITION. The shared operations: the byte spaces and MF's tables, the cursor, the sink (43_sink_emitter.md),
raising an error (R221) and, beside it, the only ways out of one: START and reset (R223, R251, R250). -/

namespace Sys2Proof.Machine

/-! ## Byte spaces -/

/-- The byte at an address: `00` where nothing is listed (log 1). -/
def Memory.read (m : Memory) (a : Nat) : Byte :=
  match m with
  | [] => 0
  | (k, v) :: t => if k = a then v else Memory.read t a

/-- Write one byte, keeping the canonical form. -/
def Memory.write (m : Memory) (a : Nat) (b : Byte) : Memory :=
  match m with
  | [] => if b = 0 then [] else [(a, b)]
  | (k, v) :: t =>
    if a < k then (if b = 0 then (k, v) :: t else (a, b) :: (k, v) :: t)
    else if a = k then (if b = 0 then t else (a, b) :: t)
    else (k, v) :: Memory.write t a b

/-- Write bytes at rising addresses from `a` on, one at a time. -/
def Memory.writeBytes (m : Memory) (a : Nat) : List Byte → Memory
  | [] => m
  | b :: bs => Memory.writeBytes (m.write a b) (a + 1) bs

/-- A space that holds exactly the given bytes from address 0 on. -/
def Memory.ofBytes (bs : List Byte) : Memory := Memory.writeBytes [] 0 bs

/-- The `c` bytes from address `a` on. -/
def Memory.readBytes (m : Memory) (a : Nat) : Nat → List Byte
  | 0 => []
  | c + 1 => m.read a :: Memory.readBytes m (a + 1) c

/-- The first `len` bytes of a space, as a source: nothing is read at or beyond `len` (R41, R43). -/
def Memory.source (m : Memory) (len : Nat) : Source :=
  fun a => if a < len then some (m.read a) else none

/-- IN as `ByteRead()` sees it (R90). -/
def State.inSource (s : State) : Source := Memory.source s.inp s.n

/-- FS as FR reads it (R202 to R204). -/
def State.fsSource (s : State) : Source := Memory.source s.fs s.fn

/-! ## MF's tables -/

/-- An entry: a position, or NIL. -/
def Table.get (t : Table) (k : Nat) : Option Nat :=
  match t with
  | [] => none
  | (j, p) :: r => if j = k then some p else Table.get r k

/-- Set an entry to NIL. -/
def Table.clear (t : Table) (k : Nat) : Table :=
  match t with
  | [] => []
  | (j, p) :: r => if j = k then r else (j, p) :: Table.clear r k

/-- Set an entry to a position. -/
def Table.set (t : Table) (k p : Nat) : Table :=
  match t with
  | [] => [(k, p)]
  | (j, q) :: r =>
    if k < j then (k, p) :: (j, q) :: r
    else if k = j then (k, p) :: r
    else (j, q) :: Table.set r k p

/-- Set an entry to a position or to NIL. -/
def Table.put (t : Table) (k : Nat) : Option Nat → Table
  | none => t.clear k
  | some p => t.set k p

/-! ## The cursor -/

/-- The cursor of a state (R14). -/
def State.cursor (s : State) : Cursor := { ip := s.ip, cw := s.cw, cb := s.cb }

/-- The state with the cursor moved. -/
def State.setCursor (s : State) (c : Cursor) : State :=
  { s with ip := c.ip, cw := c.cw, cb := c.cb }

/-- The count code's delivery of its count to the match that reads it (R95, log 5). -/
def State.deliverCount (s : State) (c : Nat) : State := { s with count := c }

/-! ## The sink -/

/-- Appending `c` bytes does not make `olen` exceed OUT_CAP (R157). -/
def State.room (s : State) (c : Nat) : Bool :=
  match s.cfg.outCap with
  | none => true
  | some cap => c == 0 || s.olen + c ≤ cap

/-- One byte of output: `MemWrite(OUT:olen, 1, b)` in MATERIALIZE mode, and `olen` grows by 1 in both (R151). -/
def State.putByte (s : State) (b : Byte) : State :=
  { s with
    out := match s.sinkMode with
      | .materialize => s.out.write s.olen b
      | .sizeOnly => s.out
    olen := s.olen + 1 }

/-- The bytes of a `literal(bytes)`, one after the other (R151). -/
def putBytes : List Byte → State → State
  | [], s => s
  | b :: bs, s => putBytes bs (s.putByte b)

/-- `c` copies of one byte (R152). -/
def fillBytes (b : Byte) : Nat → State → State
  | 0, s => s
  | c + 1, s => fillBytes b c (s.putByte b)

/-- `c` bytes, each read `o` back from where it is written: a byte written by this operation is read by a later
round of it (R53, R153). -/
def copyBytes (o : Nat) : Nat → State → State
  | 0, s => s
  | c + 1, s => copyBytes o c (s.putByte (s.out.read (s.olen - o)))

/-- `Emit.literal(b)` for each byte of a list (R151). -/
def emitLiterals (bs : List Byte) (s : State) : Result :=
  if s.room bs.length then .next (putBytes bs s) else .refused .outCapExceeded

/-- `Emit.fill(b, c)` (R152). -/
def emitFill (b : Byte) (c : Nat) (s : State) : Result :=
  if s.room c then .next (fillBytes b c s) else .refused .outCapExceeded

/-! ## Raising an error -/

/-- The three error kinds and their information (R215). -/
inductive Error where
  | truncated
  | invalidBackreference (count offset produced : Nat)
  | unrecognizedChunkHeader
deriving DecidableEq, Repr

/-- The value of `err` for a kind (R21). -/
def Error.errCode : Error → ErrCode
  | .truncated => .truncated
  | .invalidBackreference _ _ _ => .invalidBackreference
  | .unrecognizedChunkHeader => .unrecognizedChunkHeader

/-- The report registers as unspecified values (R21, R30: valid only when `err` is 2). -/
def State.freeReport (s : State) : State :=
  { s with
    errCount := (Config.freeErrCount s.freeCtr).val
    errOffset := (Config.freeErrOffset s.freeCtr).val
    errProduced := Config.freeErrProduced s.freeCtr }

/-- `err` and the report registers (R221). -/
def State.recordError (s : State) (e : Error) : State :=
  match e with
  | .truncated => { s.freeReport with err := .truncated }
  | .unrecognizedChunkHeader => { s.freeReport with err := .unrecognizedChunkHeader }
  | .invalidBackreference c o p =>
    { s with err := .invalidBackreference, errCount := c, errOffset := o, errProduced := p }

/-- What R222 leaves unspecified of DEC after an error. OUT exists in MATERIALIZE mode only (R17). -/
def State.scrubDec (s : State) : State :=
  { s with
    ip := Config.freeIp s.freeCtr
    cw := Config.freeCw s.freeCtr
    cb := (Config.freeCb s.freeCtr).val
    olen := Config.freeOlen s.freeCtr
    out := match s.sinkMode with
      | .materialize => Memory.ofBytes (Config.freeOut s.freeCtr)
      | .sizeOnly => s.out
    lastOff := Config.freeLastOff s.freeCtr }

/-- What R222 leaves unspecified of FR after an error of a framed run. -/
def State.scrubFr (s : State) : State :=
  { s with
    fp := Config.freeFp s.freeCtr
    stotal := Config.freeStotal s.freeCtr
    chunks := Config.freeChunks s.freeCtr
    sout := match s.sinkMode with
      | .materialize => Memory.ofBytes (Config.freeSout s.freeCtr)
      | .sizeOnly => s.sout }

/-- `raise K(info)` (R221, R222): `err` and, for InvalidBackreference, the three report registers; `st` becomes
ERROR, in a framed run `fst` too; everything R222 lists is unspecified from then on. Nothing else changes. -/
def raise (e : Error) (s : State) : State :=
  let s1 := (s.recordError e).scrubDec
  let s2 := if s.framed then { s1.scrubFr with fst := .error } else s1
  { s2 with st := .error, freeCtr := s.freeCtr + 1 }

/-- `Emit.backreference(o, c)` (R153): the check is made once, before any byte is copied, for every count. -/
def emitBackreference (o c : Nat) (s : State) : Result :=
  if o = 0 ∨ s.olen < o then .next (raise (.invalidBackreference c o s.olen) s)
  else if s.room c then .next (copyBytes o c s)
  else .refused .outCapExceeded

/-- A match: its count code delivers the count, then the backreference is made with it (R113, R115). -/
def emitMatch (o : Nat) (cc : CountCode) (s : State) : Result :=
  let s1 := s.deliverCount (countOf cc)
  emitBackreference o s1.count s1

/-! ## The ways out: START and reset -/

/-- `N` is within IN_CAP (R5). -/
def State.inputFits (s : State) : Bool :=
  match s.cfg.inCap with
  | none => true
  | some cap => s.n ≤ cap

/-- DEC's state after START (R30, R251): `cw` and the report registers are unspecified. -/
def State.decStarted (s : State) : State :=
  { s.freeReport with
    st := .select
    ip := 0
    cw := Config.freeCw s.freeCtr
    cb := 0
    olen := 0
    out := []
    lastOff := 0
    err := .none
    count := 0
    outMode := s.sinkMode
    freeCtr := s.freeCtr + 1 }

/-- START of DEC, by the host or by FR; a run whose `N` passes IN_CAP is refused (U5). -/
def startDec (s : State) : Result :=
  if s.inputFits then .next s.decStarted else .refused .inCapExceeded

/-- The framed START (R32, R251). -/
def startFr (s : State) : State :=
  { s.freeReport with
    fp := 0
    stotal := 0
    chunks := 0
    sout := []
    soutMode := s.sinkMode
    plen := 0
    fst := .pfx
    err := .none
    freeCtr := s.freeCtr + 1 }

/-- START of MF (R31, R251). -/
def startMf (s : State) : State :=
  { s with
    pos := 0
    idx := []
    headT := []
    tailT := []
    nextT := []
    cmdq := []
    mst := .scan }

/-- The host's reset (R250): every element at its after-reset value, at any time. The machine's parameters, the
moves still to come, what the host holds and the free-value counter are no state of the block (log 16). -/
def hostReset (s : State) : State :=
  { State.reset with
    cfg := s.cfg
    agenda := s.agenda
    hostData := s.hostData
    freeCtr := s.freeCtr }

end Sys2Proof.Machine
end

