-- ==== Sys2Proof/Machine/Adv.lean ====
section
/-! DEFINITION. The meanings of the ADV commands and of the ADV header (41_advanced_commands.md, 40_bit_cursor.md
R93). An instruction's fields have been read, and the cursor moved, when its meaning runs (R218, log 17). -/

namespace Sys2Proof.Machine

/-- LIT `b`: append the byte (R112). -/
def execLit (b : Byte) (s : State) : Result := emitLiterals [b] s

/-- SMATCH `o, c`: backreference with an 8-bit offset (R113). -/
def execSmatch (o : BitVec 8) (c : CountCode) (s : State) : Result :=
  emitMatch (smatchOffset o) c s

/-- LMATCH `v, c`: backreference with a 13-bit offset (R115). -/
def execLmatch (v : BitVec 13) (c : CountCode) (s : State) : Result :=
  emitMatch (lmatchOffset v) c s

/-- FILL with a 4-bit size (R116). -/
def execFill (sz : BitVec 4) (b : Byte) (s : State) : Result := emitFill b (fillCount sz) s

/-- FILL with a 12-bit size (R116). -/
def execFill12 (sz : BitVec 12) (b : Byte) (s : State) : Result := emitFill b (fill12Count sz) s

/-- END: the run is over; cached control bits and later bytes are left unread (R118). -/
def execEndMark (s : State) : Result := .next { s with st := .done }

/-- ADV-HEADER: `CursorInit()` on the first control word, whose high byte gives 8 control bits, and the ADV format
selected (R93, R110). -/
def execAdvHeader (w0 : Byte) (s : State) : Result :=
  .next { s with cw := w0.setWidth 16, cb := 8, st := .advReadControl }

end Sys2Proof.Machine
end

