-- ==== Sys2Proof/Machine/CountCodes.lean ====
section
/-! DEFINITION. The meanings of the count codes (40_bit_cursor.md R95): each delivers its count to the match that
reads it (log 5). They are operands of SMATCH and LMATCH; the same delivery happens inside those two. -/

namespace Sys2Proof.Machine

/-- CC2 delivers 2. -/
def execCc2 (s : State) : Result := .next (s.deliverCount (countOf .two))

/-- CC3 delivers 3. -/
def execCc3 (s : State) : Result := .next (s.deliverCount (countOf .three))

/-- CC4 delivers 4. -/
def execCc4 (s : State) : Result := .next (s.deliverCount (countOf .four))

/-- CC5 delivers 5. -/
def execCc5 (s : State) : Result := .next (s.deliverCount (countOf .five))

/-- CC6 delivers `6 + kkk`. -/
def execCc6 (k : BitVec 3) (s : State) : Result := .next (s.deliverCount (countOf (.six k)))

/-- CC14 delivers `14 + m`. -/
def execCc14 (m : BitVec 8) (s : State) : Result := .next (s.deliverCount (countOf (.fourteen m)))

end Sys2Proof.Machine
end

