-- ==== Sys2Proof/Machine/Leg.lean ====
section
/-! DEFINITION. The meanings of the LEG commands (42_legacy_commands.md). -/

namespace Sys2Proof.Machine

/-- VERB, short form: the data bytes, one literal each (R133). -/
def execVerb (data : List Byte) (s : State) : Result := emitLiterals data s

/-- VERB, extended form (R133). -/
def execVerbx (data : List Byte) (s : State) : Result := emitLiterals data s

/-- LFILL, short form (R135). -/
def execLfill (n : BitVec 4) (b : Byte) (s : State) : Result := emitFill b (lfillCount n) s

/-- LFILL, extended form (R135). -/
def execLfillx (n : BitVec 12) (b : Byte) (s : State) : Result := emitFill b (lfillxCount n) s

/-- REUSE: backreference with the last offset, which stays; the check is made for count 0 too (R137, D9). -/
def execReuse (n : BitVec 5) (s : State) : Result :=
  emitBackreference (legOffset s.lastOff) (reuseCount n) s

/-- NEWOFF: the offset is kept in `last_off`, then the backreference is made (R139). -/
def execNewoff (n : BitVec 2) (o : BitVec 13) (s : State) : Result :=
  emitBackreference (legOffset o) (newoffCount n) { s with lastOff := o }

end Sys2Proof.Machine
end

