-- ==== Sys2Proof/Machine/Dec.lean ====
section
/-! DEFINITION. DEC's steps (R110, R111, R130), and a whole DEC run as FrPayload makes it (R203). A fetched command
runs on the state with the cursor past it. The steps take the executor of commands as an argument: DEC's own step uses
`exec`; the run inside FrPayload, which `exec` itself contains, uses `execDec`, the same meanings without CHUNK. -/

namespace Sys2Proof.Machine

/-- The SELECT step (R110). -/
def decSelect (ex : Instr → State → Result) (s : State) : Result :=
  match decodeSelect s.inSource s.cursor with
  | none => .next (raise .truncated s)
  | some (some i, c) => ex i (s.setCursor c)
  | some (none, c) => .next { s.setCursor c with st := .legOpcode }

/-- The ADV step (R111). -/
def decAdv (ex : Instr → State → Result) (s : State) : Result :=
  match decodeAdv s.cfg.fieldOrder s.inSource s.cursor with
  | none => .next (raise .truncated s)
  | some (i, c) => ex i (s.setCursor c)

/-- The LEG step (R130): the end test, then one command. A VERB cut short whose bytes already pass OUT_CAP is
refused before its missing byte is reached (R157, log 10). -/
def decLeg (ex : Instr → State → Result) (s : State) : Result :=
  if s.n ≤ s.ip then .next { s with st := .done }
  else
    match decodeLeg s.inSource s.cursor with
    | .ok i c => ex i (s.setCursor c)
    | .truncated k =>
      if s.room k then .next (raise .truncated s) else .refused .outCapExceeded

/-- One step of DEC, its command executed by `ex`; a run that is over stays as it is (R223). -/
def decStep (ex : Instr → State → Result) (s : State) : Result :=
  match s.st with
  | .select => decSelect ex s
  | .advReadControl => decAdv ex s
  | .legOpcode => decLeg ex s
  | .idle | .done | .error => .next s

/-- What DEC can fetch, executed: the arms of `exec` but CHUNK, which is no command of DEC and which its decoders never
give. -/
def execDec (i : Instr) (s : State) : Result :=
  match i with
  | .lit b => execLit b s
  | .smatch o c => execSmatch o c s
  | .lmatch v c => execLmatch v c s
  | .fill sz b => execFill sz b s
  | .fill12 sz b => execFill12 sz b s
  | .endMark => execEndMark s
  | .cc2 => execCc2 s
  | .cc3 => execCc3 s
  | .cc4 => execCc4 s
  | .cc5 => execCc5 s
  | .cc6 k => execCc6 k s
  | .cc14 m => execCc14 m s
  | .verb data => execVerb data s
  | .verbx data => execVerbx data s
  | .lfill n b => execLfill n b s
  | .lfillx n b => execLfillx n b s
  | .reuse n => execReuse n s
  | .newoff n o => execNewoff n o s
  | .advHeader w0 => execAdvHeader w0 s
  | .chunk _ => .next s

/-- DEC's steps one after the other until its run is over, at most `k` of them. -/
def decRun : Nat → State → Result
  | 0, s => .next s
  | k + 1, s =>
    if s.st.running then
      match decStep execDec s with
      | .next t => decRun k t
      | .fault f => .fault f
      | .refused e => .refused e
    else .next s

/-- More steps than a DEC run on `n` bytes can take: the SELECT step and R275's bounds for either format (log 7). -/
def decRunBound (n : Nat) : Nat := 8 * n + 2

end Sys2Proof.Machine
end

