-- ==== Sys2Proof/Machine/Frame.lean ====
section
/-! DEFINITION. The meaning of CHUNK, part by part (45_chunk_framing.md R202 to R204): each part is one FR step, and the
payload's contains a whole DEC run (R200). -/

namespace Sys2Proof.Machine

/-- FrPrefix with the length `l` read: below 2 is UnrecognizedChunkHeader, else the payload is due (R202). -/
def frLength (l : BitVec 16) (s : State) : Result :=
  if l.toNat < 2 then .next (raise .unrecognizedChunkHeader s)
  else .next { s with plen := l.toNat - 2, fst := .payload }

/-- FrPayload's first half: the payload becomes IN and its length `N` (R203). -/
def frLoad (p : List Byte) (s : State) : State := { s with inp := Memory.ofBytes p, n := p.length }

/-- FrPayload when DEC's run is DONE: its output is appended to SOUT in MATERIALIZE mode, the totals count it, and the
continuation byte is due (R203). -/
def frCollect (s : State) : State :=
  { s with
    sout := match s.sinkMode with
      | .materialize => Memory.writeBytes s.sout s.stotal (Memory.readBytes s.out 0 s.olen)
      | .sizeOnly => s.sout
    stotal := s.stotal + s.olen
    chunks := s.chunks + 1
    fst := .cont }

/-- FrPayload's second half, once DEC's run is over (R203). A run is never still going here (R230, `decRunBound`). -/
def frEndPayload (s : State) : State :=
  match s.st with
  | .done => frCollect s
  | .error => { s with fst := .error }
  | .idle | .select | .advReadControl | .legOpcode => s

/-- FrPayload with the payload read: load it, START DEC, run it to DONE or ERROR, take the result (R203). -/
def frPayload (p : List Byte) (s : State) : Result :=
  match startDec (frLoad p s) with
  | .next t =>
    match decRun (decRunBound p.length) t with
    | .next u => .next (frEndPayload u)
    | .fault f => .fault f
    | .refused e => .refused e
  | .fault f => .fault f
  | .refused e => .refused e

/-- FrCont with the continuation byte `k` read: 0 ends the run, anything else continues it (R204). -/
def frCont (k : Byte) (s : State) : Result :=
  if k = 0 then .next { s with fst := .done } else .next { s with fst := .pfx }

/-- CHUNK: the part at hand (R200). -/
def execChunk (part : ChunkPart) (s : State) : Result :=
  match part with
  | .length l => frLength l s
  | .payload p => frPayload p s
  | .cont k => frCont k s

end Sys2Proof.Machine
end

