-- ==== Sys2Proof/Machine/Dispatch.lean ====
section
/-! DEFINITION. One arm per instruction: a direct call of its meaning. -/

namespace Sys2Proof.Machine

def exec (i : Instr) (s : State) : Host.Outcome State Fault Refusal :=
  match i with
  | .lit b => Sys2Proof.Machine.execLit b s
  | .smatch o c => Sys2Proof.Machine.execSmatch o c s
  | .lmatch v c => Sys2Proof.Machine.execLmatch v c s
  | .fill sz b => Sys2Proof.Machine.execFill sz b s
  | .fill12 sz b => Sys2Proof.Machine.execFill12 sz b s
  | .endMark => Sys2Proof.Machine.execEndMark s
  | .cc2 => Sys2Proof.Machine.execCc2 s
  | .cc3 => Sys2Proof.Machine.execCc3 s
  | .cc4 => Sys2Proof.Machine.execCc4 s
  | .cc5 => Sys2Proof.Machine.execCc5 s
  | .cc6 k => Sys2Proof.Machine.execCc6 k s
  | .cc14 m => Sys2Proof.Machine.execCc14 m s
  | .verb data => Sys2Proof.Machine.execVerb data s
  | .verbx data => Sys2Proof.Machine.execVerbx data s
  | .lfill n b => Sys2Proof.Machine.execLfill n b s
  | .lfillx n b => Sys2Proof.Machine.execLfillx n b s
  | .reuse n => Sys2Proof.Machine.execReuse n s
  | .newoff n o => Sys2Proof.Machine.execNewoff n o s
  | .advHeader w0 => Sys2Proof.Machine.execAdvHeader w0 s
  | .chunk part => Sys2Proof.Machine.execChunk part s

end Sys2Proof.Machine
end

