-- ==== Sys2Proof/Machine/HostPort.lean ====
section
/-! DEFINITION. The host's side of the block (10_state.md R22, 60_exceptions.md R227, 70_reset_and_hazards.md R250
to R262): reset, START, writes of a run's configuration, reads. What R227 and R262 forbid is refused (U6). -/

namespace Sys2Proof.Machine

/-- What a read of a register gives. -/
abbrev ReadResult := Host.Outcome Datum Fault Refusal

/-- A read the host may make only while `allowed` holds. -/
def readIf (allowed : Bool) (d : Datum) : ReadResult :=
  if allowed then .next d else .refused .readNotAllowed

/-- A byte of a space of length `len`; an address beyond it has no meaning (R40). -/
def readByteIf (allowed : Bool) (m : Memory) (len a : Nat) : ReadResult :=
  if allowed then (if a < len then .next (.byte (m.read a)) else .fault .noSuchAddress)
  else .refused .readNotAllowed

/-- DEC's results may be read: `st` is DONE (R22, R56), in a framed run between two of its steps as well (log 9). -/
def State.decResults (s : State) : Bool := decide (s.st = .done)

/-- DEC's report may be read: `st` is ERROR (R22, R222). -/
def State.decReport (s : State) : Bool := decide (s.st = .error)

/-- An output space may be read as far as the mode goes: it was made in MATERIALIZE mode, `made`, else it does not exist
(R17), and `sink_mode` is MATERIALIZE now (R22). The spec does not say which of the two counts once the host has
rewritten `sink_mode` after DONE; that both must hold is the model's choice (DESIGN CHOICE, safe: log 21). -/
def State.outputShown (s : State) (made : SinkMode) : Bool :=
  decide (made = .materialize) && decide (s.sinkMode = .materialize)

/-- A host read (R22 for DEC, R56 and R227 for FR and MF; `cw`, `cb` and `last_off` are never readable). When OUT and
SOUT are shown after a rewrite of `sink_mode` is the model's choice (DESIGN CHOICE, log 21). -/
def State.readReg (s : State) (r : HostReg) : ReadResult :=
  match r with
  | .st => .next (.runState s.st)
  | .n => .next (.nat s.n)
  | .sinkMode => .next (.sinkMode s.sinkMode)
  | .inByte a => readByteIf true s.inp s.n a
  | .ip => readIf s.decResults (.nat s.ip)
  | .olen => readIf s.decResults (.nat s.olen)
  | .outByte a => readByteIf (s.decResults && s.outputShown s.outMode) s.out s.olen a
  | .err => readIf (s.decResults || s.decReport) (.nat s.err.code)
  | .errCount => readIf s.decReport (.nat s.errCount)
  | .errOffset => readIf s.decReport (.nat s.errOffset)
  | .errProduced => readIf s.decReport (.nat s.errProduced)
  | .cw => .refused .readNotAllowed
  | .cb => .refused .readNotAllowed
  | .lastOff => .refused .readNotAllowed
  | .fst => .next (.frState s.fst)
  | .fp => readIf (decide (s.fst = .done)) (.nat s.fp)
  | .stotal => readIf (decide (s.fst = .done)) (.nat s.stotal)
  | .chunks => readIf (decide (s.fst = .done)) (.nat s.chunks)
  | .soutByte a =>
    readByteIf (decide (s.fst = .done) && s.outputShown s.soutMode) s.sout s.stotal a
  | .mst => .next (.mfState s.mst)
  | .cmdq => readIf (decide (s.mst = .done)) (.commands s.cmdq)

/-- A read delivers its value to the host and changes nothing of the block (R49). -/
def hostRead (r : HostReg) (s : State) : Result :=
  match s.readReg r with
  | .next d => .next { s with hostData := some d }
  | .fault f => .fault f
  | .refused e => .refused e

/-- A write that is refused while the agent that uses the register is running (R262). -/
def writeUnless (busy : Bool) (s : State) : Result :=
  if busy then .refused .writeWhileRunning else .next s

/-- The state with an MF parameter written. -/
def State.setMfParam (s : State) (p : MfParam) (v : Nat) : State :=
  match p with
  | .matchMin => { s with mfMatchMin := v }
  | .matchMax => { s with mfMatchMax := v }
  | .fillMin => { s with mfFillMin := v }
  | .fillMax => { s with mfFillMax := v }

/-- DEC's START from the host: refused while DEC runs, alone or for FR (R227, R251, R257). -/
def hostStartDec (s : State) : Result :=
  if s.decBusy then .refused .startWhileRunning else startDec s

/-- The framed START: refused while FR runs, and while a run of the host's uses DEC (R227, R251, log 8). -/
def hostStartFr (s : State) : Result :=
  if s.decBusy then .refused .startWhileRunning else .next (startFr s)

/-- MF's START: refused while MF runs (R227, R251). -/
def hostStartMf (s : State) : Result :=
  if s.mst.running then .refused .startWhileRunning else .next (startMf s)

/-- One action of the host. -/
def hostAct (a : HostAction) (s : State) : Result :=
  match a with
  | .reset => .next (hostReset s)
  | .startDec => hostStartDec s
  | .startFr => hostStartFr s
  | .startMf => hostStartMf s
  | .writeIn ad b => writeUnless s.decBusy { s with inp := s.inp.write ad b }
  | .writeN v => writeUnless s.decBusy { s with n := v }
  | .writeSinkMode v => writeUnless s.decBusy { s with sinkMode := v }
  | .writeFs ad b => writeUnless s.framed { s with fs := s.fs.write ad b }
  | .writeFn v => writeUnless s.framed { s with fn := v }
  | .writeSrc ad b => writeUnless s.mst.running { s with src := s.src.write ad b }
  | .writeM v => writeUnless s.mst.running { s with m := v }
  | .writeMfParam p v => writeUnless s.mst.running (s.setMfParam p v)
  | .read r => hostRead r s

end Sys2Proof.Machine
end

