-- ==== Sys2Proof/Machine/MatchFinder.lean ====
section
/-! DEFINITION. The match finder (44_match_finder.md): its operations over SRC, the index and the tables, and its
step. `idx` is the normative index (R26, D20); the tables of R27 are kept beside it, and `findOnTables` is the
search of R177 on them (log 14). -/

namespace Sys2Proof.Machine

/-- `Digraph(p)` (R171), the key of the tables. -/
def State.digraph (s : State) (p : Nat) : Nat :=
  (s.src.read p).toNat + 256 * (s.src.read (p + 1)).toNat

/-- `CommonRun(q, p, cap)` (R172): how many bytes from `q` and from `p` agree, at most `cap`. -/
def State.commonRun (s : State) (q p : Nat) : Nat → Nat
  | 0 => 0
  | cap + 1 => if s.src.read q = s.src.read p then 1 + s.commonRun (q + 1) (p + 1) cap else 0

/-- The slot of a position in `next` (R27). -/
def slotOf (p : Nat) : Nat := p % Config.chainCap

/-- `Insert(p)` (R173). -/
def State.insert (s : State) (p : Nat) : State :=
  if s.m ≤ p + 1 then s
  else
    let d := s.digraph p
    let cleared := s.nextT.clear (slotOf p)
    match s.tailT.get d with
    | none =>
      { s with
        nextT := cleared
        headT := s.headT.set d p
        tailT := s.tailT.set d p
        idx := s.idx ++ [p] }
    | some t =>
      { s with
        nextT := cleared.set (slotOf t) p
        tailT := s.tailT.set d p
        idx := s.idx ++ [p] }

/-- `Evict(q)` for a position (R174). -/
def State.evict (s : State) (q : Nat) : State :=
  if q ∈ s.idx then
    let d := s.digraph q
    let h := s.nextT.get (slotOf q)
    { s with
      headT := s.headT.put d h
      tailT := match h with
        | none => s.tailT.clear d
        | some _ => s.tailT
      idx := s.idx.filter (fun x => x ≠ q) }
  else s

/-- `Advance()` (R184); `Evict` of a negative position does nothing (R174). -/
def State.advance (s : State) : State :=
  let s1 := s.insert s.pos
  let s2 := { s1 with pos := s1.pos + 1 }
  if s2.pos < Config.chainCap then s2 else s2.evict (s2.pos - Config.chainCap)

/-- `Advance()` a number of times. -/
def State.advanceN (s : State) : Nat → State
  | 0 => s
  | k + 1 => s.advance.advanceN k

/-- The cap of a search at `p` (R176, D24). -/
def State.matchCap (s : State) (p : Nat) : Nat := min s.mfMatchMax (s.m - p)

/-- One candidate of `Find` (R176): it replaces the best so far only when strictly longer. -/
def State.better (s : State) (p : Nat) (best : Option Nat × Nat) (q : Nat) : Option Nat × Nat :=
  let l := s.commonRun q p (s.matchCap p)
  if best.2 < l then (some q, l) else best

/-- The answer of a search: the offset and the length, or (0, 0) (R176). -/
def answerOf (p : Nat) (best : Option Nat × Nat) : Nat × Nat :=
  match best.1 with
  | none => (0, 0)
  | some q => (p - q, best.2)

/-- The candidates of `Find(p)`, from the largest position to the smallest (R176). -/
def State.candidates (s : State) (p : Nat) : List Nat :=
  (s.idx.filter (fun q => s.digraph q = s.digraph p)).reverse

/-- `Find(p)` on the index (R176). -/
def State.find (s : State) (p : Nat) : Nat × Nat :=
  if s.m ≤ p + 1 then (0, 0)
  else answerOf p ((s.candidates p).foldl (s.better p) (none, 0))

/-- One candidate of the walk from the oldest on (R177): it replaces the best so far when at least as long. -/
def State.betterOrEqual (s : State) (p : Nat) (best : Option Nat × Nat) (q : Nat) :
    Option Nat × Nat :=
  let l := s.commonRun q p (s.matchCap p)
  if best.2 ≤ l then (some q, l) else best

/-- The walk along a list of the tables (R177), at most `fuel` entries. -/
def State.walk (s : State) (p : Nat) : Nat → Option Nat → Option Nat × Nat → Option Nat × Nat
  | 0, _, best => best
  | _ + 1, none, best => best
  | fuel + 1, some q, best =>
    s.walk p fuel (s.nextT.get (slotOf q)) (s.betterOrEqual p best q)

/-- `Find(p)` on the tables (R177): a list has at most one entry per slot (R28). A best of length 0 is no match,
as in R176. -/
def State.findOnTables (s : State) (p : Nat) : Nat × Nat :=
  if s.m ≤ p + 1 then (0, 0)
  else
    let best := s.walk p Config.chainCap (s.headT.get (s.digraph p)) (none, 0)
    if best.2 = 0 then (0, 0) else answerOf p best

/-- How many of the bytes from `p` on equal `b`, at most `cap`. -/
def State.sameRun (s : State) (b : Byte) (p : Nat) : Nat → Nat
  | 0 => 0
  | cap + 1 => if s.src.read p = b then 1 + s.sameRun b (p + 1) cap else 0

/-- `RunLength(p)` (R178): at least 1, whatever MF_FILL_MAX (log 13). -/
def State.runLength (s : State) (p : Nat) : Nat :=
  1 + s.sameRun (s.src.read p) (p + 1) (min s.mfFillMax (s.m - p) - 1)

/-- `Select(p, mo, ml, r)` (R179). A match can win only where there is one: `Find`'s (0, 0) is none (log 12). -/
def State.select (s : State) (p mo ml r : Nat) : Command :=
  if s.mfFillMin ≤ r ∧ ml ≤ r then .fill (s.src.read p) r
  else if s.mfMatchMin ≤ ml ∧ 1 ≤ ml then .backreference mo ml
  else .literal (s.src.read p)

/-- `Length(cmd)` (R180). -/
def commandLength : Command → Nat
  | .literal _ => 1
  | .fill _ c => c
  | .backreference _ c => c

/-- The command MF emits at its position (R185). -/
def State.chosen (s : State) : Command :=
  let best := s.find s.pos
  s.select s.pos best.1 best.2 (s.runLength s.pos)

/-- The MF step (R185), taken when `mst` is SCAN. -/
def mfStep (s : State) : Result :=
  match s.mst with
  | .scan =>
    if s.m ≤ s.pos then .next { s with mst := .done }
    else
      .next ({ s with cmdq := s.cmdq ++ [s.chosen] }.advanceN (commandLength s.chosen))
  | .idle | .done => .next s

end Sys2Proof.Machine
end

