-- ==== Sys2Proof/Machine/Agents.lean ====
section
/-! DEFINITION. One step of each agent: DEC (`decStep`), FR (R200 to R204), MF (R185), and which agent moves when the
agenda does not say (log 6). A fetched instruction runs by `exec` on the state with the cursor past it. -/

namespace Sys2Proof.Machine

/-- FrPrefix (R202): the two tests on what is left of FS, then the length. -/
def frPrefix (s : State) : Result :=
  if s.fn - s.fp = 0 ∧ 0 < s.chunks then .next (raise .unrecognizedChunkHeader s)
  else
    match decodeLength s.fsSource s.fp with
    | none => .next (raise .truncated s)
    | some (i, fp) => exec i { s with fp := fp }

/-- FrPayload (R203): the payload, if all of it is there, with the DEC run on it. -/
def frPayloadStep (s : State) : Result :=
  match decodePayload s.fsSource s.fp s.plen with
  | none => .next (raise .truncated s)
  | some (i, fp) => exec i { s with fp := fp }

/-- FrCont (R204). -/
def frContStep (s : State) : Result :=
  match decodeCont s.fsSource s.fp with
  | none => .next (raise .truncated s)
  | some (i, fp) => exec i { s with fp := fp }

/-- One step of FR. -/
def frStep (s : State) : Result :=
  match s.fst with
  | .pfx => frPrefix s
  | .payload => frPayloadStep s
  | .cont => frContStep s
  | .idle | .done | .error => .next s

/-- One step of an agent; an agent with nothing to do stays as it is. -/
def agentStep (g : Agent) (s : State) : Result :=
  match g with
  | .dec => decStep exec s
  | .fr => frStep s
  | .mf => mfStep s

/-- The agent that moves when the agenda is empty: DEC while it runs, else FR while it runs, else MF. DEC and FR are
never in a run together between two steps, and they share nothing with MF, so no result depends on this order (R10, log 6). -/
def State.mover (s : State) : Agent :=
  if s.st.running then .dec else if s.framed then .fr else .mf

/-- One move of the machine. With nothing to do it stays as it is and waits for the host (R223, R230). -/
def moveOf (s : State) : Result :=
  match s.agenda with
  | [] => agentStep s.mover s
  | .host a :: rest => hostAct a { s with agenda := rest }
  | .agent g :: rest => agentStep g { s with agenda := rest }

/-- The state whose next DEC step runs the instruction that the bytes `f 0`, `f 1`, … begin with, `len` of them: a
first byte `00` is the header of an ADV chunk, taken in SELECT; any other is a LEG opcode (R61, log 15). -/
def State.withChunk (s : State) (bytes : List Byte) (len : Nat) : State :=
  { s with
    inp := Memory.ofBytes bytes
    n := len
    ip := 0
    st := if bytes.headD 0 = 0 then .select else .legOpcode
    agenda := [] }

end Sys2Proof.Machine
end

