-- ==== Sys2Proof/Machine/Step.lean ====
section
/-! DEFINITION. The step of the machine, and the placing of one instruction where the next step fetches it. -/

namespace Sys2Proof.Machine

/-- One step: the next turn of the agenda, or the step of the agent that moves by itself. -/
def step (s : State) : Host.Outcome State Fault Refusal := moveOf s

/-- `s` with the table's word stored as the chunk in IN, every byte above it `00`, selected so that the next step
runs it (log 15). -/
def State.withFetchWord (s : State) (nbits w : Nat) : State :=
  s.withChunk ((List.range ((nbits + 7) / 8)).map (tableByte nbits w)) (tableLength nbits)

end Sys2Proof.Machine
end

