-- ==== Sys2Proof/Safety.lean ====
section
/-! DEFINITION. The words that claims about the machine use: what a sink operation does to a state, executing
commands one after the other, what a SIZE_ONLY run cannot see, and the invariants of 10_state.md, 40_bit_cursor.md
and 44_match_finder.md. -/

namespace Sys2Proof.Machine

/-! ## Output -/

/-- `t` is `s` with the `c` bytes `f 0`, `f 1`, … appended to the output and nothing else changed: in MATERIALIZE
mode they stand at `olen` and every other byte of OUT reads as before, in SIZE_ONLY mode OUT is untouched (R150 to
R154). -/
def Appended (s : State) (f : Nat → Byte) (c : Nat) (t : State) : Prop :=
  t = { s with out := t.out, olen := s.olen + c } ∧
  (s.sinkMode = .materialize → ∀ a, t.out.read a =
    if s.olen ≤ a ∧ a < s.olen + c then f (a - s.olen) else s.out.read a) ∧
  (s.sinkMode = .sizeOnly → t.out = s.out)

/-- The byte an accepted backreference of offset `o` appends as its `k`-th (R154). -/
def copiedByte (s : State) (o k : Nat) : Byte := s.out.read (s.olen - o + k % o)

/-- The offset is one the sink accepts (R153). -/
def State.reaches (s : State) (o : Nat) : Prop := 1 ≤ o ∧ o ≤ s.olen

/-- `t` is `s` after raising `e` (R221, R222): `err`, and for InvalidBackreference the report registers, hold what
R221 says, `st` is ERROR, in a framed run `fst` is too, and outside what R222 leaves unspecified nothing else
changed. -/
def ErrorEntered (s : State) (e : Error) (t : State) : Prop :=
  t.err = e.errCode ∧ t.st = .error ∧
  (∀ c o p, e = .invalidBackreference c o p →
    t.errCount = c ∧ t.errOffset = o ∧ t.errProduced = p) ∧
  (s.framed = true → t.fst = .error) ∧
  (s.framed = false →
    t.fst = s.fst ∧ t.fp = s.fp ∧ t.stotal = s.stotal ∧ t.chunks = s.chunks ∧ t.sout = s.sout) ∧
  t = { s with
    st := t.st, err := t.err, errCount := t.errCount, errOffset := t.errOffset,
    errProduced := t.errProduced, ip := t.ip, cw := t.cw, cb := t.cb, olen := t.olen,
    out := t.out, lastOff := t.lastOff, fst := t.fst, fp := t.fp, stotal := t.stotal,
    chunks := t.chunks, sout := t.sout, freeCtr := t.freeCtr }

/-! ## Sequences -/

/-- The outcome with the state changed by `f`. -/
def mapResult (f : State → State) : Result → Result
  | .next s => .next (f s)
  | .fault r => .fault r
  | .refused r => .refused r

/-- Instructions executed one after the other. -/
def execAll : List Instr → State → Result
  | [], s => .next s
  | i :: is, s =>
    match exec i s with
    | .next t => execAll is t
    | .fault r => .fault r
    | .refused r => .refused r

/-- A Command on the sink (R2). -/
def runCommand : Command → State → Result
  | .literal b, s => emitLiterals [b] s
  | .fill b c, s => emitFill b c s
  | .backreference o c, s => emitBackreference o c s

/-- DEC's steps one after the other (R110, R111, R130). -/
def decSteps : Nat → State → Result
  | 0, s => .next s
  | k + 1, s =>
    match decStep exec s with
    | .next t => decSteps k t
    | .fault r => .fault r
    | .refused r => .refused r

/-- Commands on the sink, one after the other (R186). -/
def replay : List Command → State → Result
  | [], s => .next s
  | c :: cs, s =>
    match runCommand c s with
    | .next t => replay cs t
    | .fault r => .fault r
    | .refused r => .refused r

/-- An empty sink without a capacity, in MATERIALIZE mode (R186). -/
def EmptySink (s : State) : Prop :=
  s.olen = 0 ∧ s.out = [] ∧ s.sinkMode = .materialize ∧ s.cfg.outCap = none

/-- What a SIZE_ONLY machine holds where `s` materializes: the same but OUT, SOUT and the modes (R150, R156). -/
def State.withoutOutput (s : State) : State :=
  { s with
    sinkMode := .sizeOnly, outMode := .sizeOnly, soutMode := .sizeOnly, out := [], sout := [] }

/-! ## Host reads -/

/-- The host's read of `r` delivers `d` and changes nothing of the block (log 9). -/
def ReadDelivers (s : State) (r : HostReg) (d : Datum) : Prop :=
  ∀ rest, step { s with agenda := .host (.read r) :: rest } =
    .next { s with agenda := rest, hostData := some d }

/-- The host's read of `r` is refused. -/
def ReadRefused (s : State) (r : HostReg) : Prop :=
  ∀ rest, step { s with agenda := .host (.read r) :: rest } = .refused .readNotAllowed

/-- The host's read of `r` names an address outside its space. -/
def ReadFaults (s : State) (r : HostReg) : Prop :=
  ∀ rest, step { s with agenda := .host (.read r) :: rest } = .fault .noSuchAddress

/-- A byte of an output space: delivered below the length and a fault from there on where `shown` holds, refused where
it does not. -/
def ByteReadIf (s : State) (shown : Prop) (reg : Nat → HostReg) (m : Memory) (len : Nat) : Prop :=
  ∀ a, (shown → a < len → ReadDelivers s (reg a) (.byte (m.read a))) ∧
    (shown → len ≤ a → ReadFaults s (reg a)) ∧ (¬ shown → ReadRefused s (reg a))

/-! ## Invariants -/

/-- Every byte space is in its canonical form. -/
def SpacesCanonical (s : State) : Prop :=
  s.inp.wf ∧ s.out.wf ∧ s.fs.wf ∧ s.sout.wf ∧ s.src.wf

/-- R13, R14, R96: while DEC runs the cursor is inside IN, no bit of `cw` at or above `cb` is set in an ADV run, and
in a LEG run `cb` is 0; `cb` never passes 16. -/
def CursorInv (s : State) : Prop :=
  s.cb ≤ 16 ∧
  (s.st.running = true → s.ip ≤ s.n) ∧
  (s.st = .select → s.ip = 0 ∧ s.cb = 0) ∧
  (s.st = .advReadControl → s.cw >>> s.cb = 0) ∧
  (s.st = .legOpcode → s.cb = 0)

/-- R16, R17, R42, R157: but for the ERROR state, OUT holds no byte at or beyond `olen`, and `olen` is within
OUT_CAP; an OUT made in SIZE_ONLY mode is empty, and a run has the mode it was started in. -/
def OutputInv (s : State) : Prop :=
  (s.st ≠ .error → ∀ c ∈ s.out, c.1 < s.olen) ∧
  (s.st ≠ .error → ∀ cap, s.cfg.outCap = some cap → s.olen ≤ cap) ∧
  (s.st ≠ .error → s.outMode = .sizeOnly → s.out = []) ∧
  (s.st.running = true → s.outMode = s.sinkMode)

/-- R23, R200, R202: while FR runs its cursor is inside FS, the payload length is one a prefix can give, DEC is in no
run between two FR steps, SOUT holds no byte at or beyond `stotal`, and the mode is the one the run was started in, an
SOUT made in SIZE_ONLY mode being empty. -/
def FrameInv (s : State) : Prop :=
  (s.framed = true → s.fp ≤ s.fn ∧ s.plen ≤ 65533) ∧
  (s.framed = true → s.st.running = false) ∧
  (s.framed = true → ∀ c ∈ s.sout, c.1 < s.stotal) ∧
  (s.framed = true → s.soutMode = s.sinkMode ∧ (s.soutMode = .sizeOnly → s.sout = []))

/-- The positions R175 says are in `idx` at the start of an MF step, in ascending order. -/
def windowOf (pos m : Nat) : List Nat :=
  (List.range (m - 1)).filter (fun q => decide (pos ≤ q + Config.window ∧ q < pos))

/-- The positions visited from an entry along `next`, at most `fuel` of them (R28). -/
def State.follow (s : State) : Nat → Option Nat → List Nat
  | 0, _ => []
  | _ + 1, none => []
  | fuel + 1, some q => q :: s.follow fuel (s.nextT.get (slotOf q))

/-- R28: for every digraph the list from `head` visits exactly its positions of `idx`, in increasing order, within
the capacity of `next`, and `tail` is the last one visited. -/
def TablesAgree (s : State) : Prop :=
  s.idx.length ≤ Config.window ∧
  ∀ d, s.follow (Config.chainCap + 1) (s.headT.get d) = s.idx.filter (fun q => s.digraph q = d) ∧
    s.tailT.get d = (s.idx.filter (fun q => s.digraph q = d)).getLast?

/-- R27, R188: no table has an entry beyond its size. -/
def TableSizes (s : State) : Prop :=
  (∀ e ∈ s.headT, e.1 < Config.digraphSpace) ∧ (∀ e ∈ s.tailT, e.1 < Config.digraphSpace) ∧
  (∀ e ∈ s.nextT, e.1 < Config.chainCap)

/-- R25, R28, R175: what holds of MF at the start of every step of a run. -/
def FinderInv (s : State) : Prop :=
  s.mst = .scan →
    s.pos ≤ s.m ∧ s.idx = windowOf s.pos s.m ∧ TablesAgree s ∧ TableSizes s ∧
    s.headT.wf ∧ s.tailT.wf ∧ s.nextT.wf

end Sys2Proof.Machine
end

