-- ==== Sys2Proof/Certificates/Slice0/Obligations.lean ====
section
/-! DEFINITION. The statements for the provers. They speak of decoding and encoding, of the bit cursor, of what each
instruction does and leaves alone, of the errors, of FR, of MF, of the host's actions, and of what every step keeps. -/

open Sys2Proof Sys2Proof.Machine

/-! ## Decoding and encoding -/

/-- R63, R65, R66, R84: the elements of a well-formed ADV command, wherever control words fall among them and in
either FIELD_ORDER, decode to that command and leave the cursor after its last element. The rules give msb_first; what
lsb_first means is the model's reading of D3 (log 11). -/
def Obligations.AdvDecodeInvertsEncode : Prop :=
  ∀ (fo : FieldOrder) (rd : Source) (c c' : Cursor) (i : Instr),
    (i.isAdvCommand = true ∨ i = .endMark) → i.wf = true →
    spells rd (encode fo i) c = some c' → decodeAdv fo rd c = some (i, c')

/-- R70: whatever the ADV decoder reads is a well-formed ADV command or END, spelled by exactly its elements. The rules
give msb_first; what lsb_first means is the model's reading of D3 (log 11). -/
def Obligations.AdvDecodingIsTheEncoding : Prop :=
  ∀ (fo : FieldOrder) (rd : Source) (c c' : Cursor) (i : Instr),
    decodeAdv fo rd c = some (i, c') →
    (i.isAdvCommand = true ∨ i = .endMark) ∧ i.wf = true ∧ spells rd (encode fo i) c = some c'

/-- R68, R85: the bytes of a well-formed LEG command decode to it, and `ip` moves past them. -/
def Obligations.LegDecodeInvertsEncode : Prop :=
  ∀ (rd : Source) (c : Cursor) (i : Instr), i.isLegCommand = true → i.wf = true →
    (∀ k < (encodeLeg i).length, rd (c.ip + k) = (encodeLeg i)[k]?) →
    decodeLeg rd c = .ok i { c with ip := c.ip + (encodeLeg i).length }

/-- R68, R73: whatever the LEG decoder reads is a well-formed LEG command, and the bytes read are its encoding. -/
def Obligations.LegDecodingIsTheEncoding : Prop :=
  ∀ (rd : Source) (c c' : Cursor) (i : Instr), decodeLeg rd c = .ok i c' →
    i.isLegCommand = true ∧ i.wf = true ∧
    c' = { c with ip := c.ip + (encodeLeg i).length } ∧
    ∀ k < (encodeLeg i).length, rd (c.ip + k) = (encodeLeg i)[k]?

/-- R65, R95: reading a count code gives a code exactly when the stream spells it there, and the instruction of its
table row has the same elements. The rules give CC6's suffix msb_first; what lsb_first means is the model's reading of
D3 (log 11). -/
def Obligations.CountCodeReadIsItsSpelling : Prop :=
  ∀ (fo : FieldOrder) (rd : Source) (c c' : Cursor) (cc : CountCode),
    (readCountCode fo rd c = some (cc, c') ↔ spells rd (cc.encode fo) c = some c') ∧
    (decodeCountCode fo rd c = some (cc.toInstr, c') ↔
      spells rd (encode fo cc.toInstr) c = some c')

/-- R71: the count code is total, and every count 2 .. 269 has exactly one spelling. -/
def Obligations.CountCodeIsTotalAndUnique : Prop :=
  (∀ (fo : FieldOrder) (rd : Source) (c : Cursor), (∀ a, (rd a).isSome = true) →
    ∃! p, readCountCode fo rd c = some p) ∧
  (∀ n, 2 ≤ n → n ≤ 269 → ∃! cc, countOf cc = n) ∧
  (∀ cc, 2 ≤ countOf cc ∧ countOf cc ≤ 269)

/-- R73: the six opcode ranges of the LEG format, each with its command; with no byte missing every opcode decodes. -/
def Obligations.LegOpcodeRangesAreTotal : Prop :=
  ∀ (rd : Source) (op : Byte) (c : Cursor), (∀ a, (rd a).isSome = true) →
    (op.toNat ≤ 0x1F → ∃ d c', decodeOpcode rd op c = .ok (.verb d) c' ∧ d.length = op.toNat) ∧
    (0x20 ≤ op.toNat → op.toNat ≤ 0x3F → ∃ d c', decodeOpcode rd op c = .ok (.verbx d) c') ∧
    (0x40 ≤ op.toNat → op.toNat ≤ 0x4F → ∃ n b c', decodeOpcode rd op c = .ok (.lfill n b) c') ∧
    (0x50 ≤ op.toNat → op.toNat ≤ 0x5F → ∃ n b c', decodeOpcode rd op c = .ok (.lfillx n b) c') ∧
    (0x60 ≤ op.toNat → op.toNat ≤ 0x7F → ∃ n, decodeOpcode rd op c = .ok (.reuse n) c) ∧
    (0x80 ≤ op.toNat → ∃ n o c', decodeOpcode rd op c = .ok (.newoff n o) c')

/-- R93, R201, R202, R204: the first control word and the three parts of a frame decode to the header and to the
parts they are. -/
def Obligations.HeaderAndFramePartsDecode : Prop :=
  ∀ (rd : Source),
    (∀ (c : Cursor) (w0 : Byte), c.ip = 0 → rd 0 = some 0 → rd 1 = some w0 →
      decodeSelect rd c = some (some (.advHeader w0), { c with ip := 2 })) ∧
    (∀ (fp : Nat) (l : BitVec 16),
      rd fp = some (BitVec.ofNat 8 (l.toNat % 256)) →
      rd (fp + 1) = some (BitVec.ofNat 8 (l.toNat / 256)) →
      decodeLength rd fp = some (.chunk (.length l), fp + 2)) ∧
    (∀ (fp : Nat) (p : List Byte), (∀ k < p.length, rd (fp + k) = p[k]?) →
      decodePayload rd fp p.length = some (.chunk (.payload p), fp + p.length)) ∧
    (∀ (fp : Nat) (k : Byte), rd fp = some k →
      decodeCont rd fp = some (.chunk (.cont k), fp + 1))

/-- R77, R119: an ADV command is self-delimiting. Cut anywhere before its last byte read it is Truncated; cut at or
after it, it decodes as before. -/
def Obligations.AdvCommandCutShortIsTruncated : Prop :=
  ∀ (fo : FieldOrder) (m : Memory) (len k : Nat) (c c' : Cursor) (i : Instr),
    decodeAdv fo (m.source len) c = some (i, c') → c.ip < c'.ip →
    (k < c'.ip → decodeAdv fo (m.source k) c = none) ∧
    (c'.ip ≤ k → decodeAdv fo (m.source k) c = some (i, c'))

/-- R63, R65, R68 on words written out from the spec's encodings: LIT and SMATCH in the chunk of vector A5, LMATCH with
the selector 301, both sizes of FILL, END, and one word of each LEG form. -/
def Obligations.WrittenOutWordsDecode : Prop :=
  decodeAdv .msbFirst (listSource [0x00, 0x04, 0x61]) ⟨2, 0x04, 8⟩ = some (.lit 0x61, ⟨3, 0x02, 7⟩) ∧
  decodeAdv .msbFirst (listSource [0x00, 0x04, 0x61, 0x62, 0x02, 0x31, 0x00]) ⟨4, 0x01, 6⟩ =
    some (.smatch 2 (.six 0), ⟨7, 0x03, 12⟩) ∧
  decodeAdv .msbFirst (listSource [0x2D]) ⟨0, 0x3C3, 11⟩ = some (.lmatch 301 .two, ⟨1, 0x03, 3⟩) ∧
  decodeAdv .msbFirst (listSource [0x00, 0x03, 0x01, 0x30, 0x00, 0x2A]) ⟨2, 0x03, 8⟩ =
    some (.fill 0 0x2A, ⟨6, 0x03, 12⟩) ∧
  decodeAdv .msbFirst (listSource [0x00, 0x83, 0x01, 0x30, 0x00, 0x10, 0x2A]) ⟨2, 0x83, 8⟩ =
    some (.fill12 16 0x2A, ⟨7, 0x03, 12⟩) ∧
  decodeAdv .msbFirst (listSource [0x00, 0x03, 0x00]) ⟨2, 0x03, 8⟩ = some (.endMark, ⟨3, 0, 1⟩) ∧
  decodeLeg (listSource [0x02, 0x61, 0x62]) ⟨0, 0, 0⟩ = .ok (.verb [0x61, 0x62]) ⟨3, 0, 0⟩ ∧
  decodeLeg (listSource [0x20, 0x01, 0x21]) ⟨0, 0, 0⟩ = .ok (.verbx [0x21]) ⟨3, 0, 0⟩ ∧
  decodeLeg (listSource [0x4F, 0x2A]) ⟨0, 0, 0⟩ = .ok (.lfill 15 0x2A) ⟨2, 0, 0⟩ ∧
  decodeLeg (listSource [0x50, 0x10, 0x2A]) ⟨0, 0, 0⟩ = .ok (.lfillx 16 0x2A) ⟨3, 0, 0⟩ ∧
  decodeLeg (listSource [0x65]) ⟨0, 0, 0⟩ = .ok (.reuse 5) ⟨1, 0, 0⟩ ∧
  decodeLeg (listSource [0x9F, 0xFF]) ⟨0, 0, 0⟩ = .ok (.newoff 0 8191) ⟨2, 0, 0⟩

/-! ## The bit cursor -/

/-- R92: after a refill at `a` the `k`-th control bit is bit `k mod 8` of the byte at `a + k div 8`. -/
def Obligations.ControlBitsComeLowestFirst : Prop :=
  ∀ (rd : Source) (c : Cursor) (n : Nat) (lo hi : Byte),
    c.cb = 0 → 1 ≤ n → n ≤ 16 → rd c.ip = some lo → rd (c.ip + 1) = some hi →
    ∃ bits, readBitList rd n c =
        some (bits, { ip := c.ip + 2, cw := wordOf lo hi >>> n, cb := 16 - n }) ∧
      bits.length = n ∧
      ∀ k < n, bits[k]? = some ((if k / 8 = 0 then lo else hi).getLsbD (k % 8))

/-- R66, R94: `Bits(n)` reads `n mod 8` control bits and then `n div 8` raw bytes, and its value has `n` bits; with
FIELD_ORDER msb_first a field of at most one raw byte is the bits, first read highest, above the byte. -/
def Obligations.FieldsAreBitsThenBytes : Prop :=
  ∀ (fo : FieldOrder) (rd : Source) (n v : Nat) (c c' : Cursor),
    readBits fo rd n c = some (v, c') →
    v < 2 ^ n ∧
    ∃ bits bytes c1, readBitList rd (n % 8) c = some (bits, c1) ∧
      readByteList rd (n / 8) c1 = some (bytes, c') ∧
      (fo = .msbFirst → ∀ k < n % 8,
        v.testBit (n - 1 - k) = bits.getD k false) ∧
      (fo = .msbFirst → ∀ y, bytes = [y] → v % 256 = y.toNat)

/-! ## What the commands do -/

/-- R112, R133, R151: LIT, VERB and VERBX complete, and append their bytes and change nothing else. -/
def Obligations.LiteralsAppendTheirBytes : Prop :=
  ∀ (s : State), s.out.wf →
    (∀ b, s.room 1 = true → ∃ t, exec (.lit b) s = .next t ∧ Appended s (fun _ => b) 1 t) ∧
    (∀ data, s.room data.length = true →
      (∃ t, exec (.verb data) s = .next t ∧
        Appended s (fun k => data.getD k 0) data.length t) ∧
      ∃ t, exec (.verbx data) s = .next t ∧
        Appended s (fun k => data.getD k 0) data.length t)

/-- R116, R135, R152: FILL, FILL12, LFILL and LFILLX complete, and append 14 + s or 4 + n copies of their byte and
change nothing else. -/
def Obligations.FillsAppendTheirByte : Prop :=
  ∀ (s : State) (b : Byte), s.out.wf →
    (∀ sz : BitVec 4, s.room (14 + sz.toNat) = true →
      ∃ t, exec (.fill sz b) s = .next t ∧ Appended s (fun _ => b) (14 + sz.toNat) t) ∧
    (∀ sz : BitVec 12, s.room (14 + sz.toNat) = true →
      ∃ t, exec (.fill12 sz b) s = .next t ∧ Appended s (fun _ => b) (14 + sz.toNat) t) ∧
    (∀ n : BitVec 4, s.room (4 + n.toNat) = true →
      ∃ t, exec (.lfill n b) s = .next t ∧ Appended s (fun _ => b) (4 + n.toNat) t) ∧
    (∀ n : BitVec 12, s.room (4 + n.toNat) = true →
      ∃ t, exec (.lfillx n b) s = .next t ∧ Appended s (fun _ => b) (4 + n.toNat) t)

/-- R113, R115, R153: SMATCH and LMATCH with an offset the output reaches complete; they append `c` bytes, the
`k`-th equal to the byte `o` back with period `o`, and but for the model's `count` (log 5) change nothing else. -/
def Obligations.AdvMatchesCopyTheirBytes : Prop :=
  ∀ (s : State) (cc : CountCode), s.out.wf → s.room (countOf cc) = true →
    (∀ o : BitVec 8, s.reaches o.toNat →
      ∃ t, exec (.smatch o cc) s = .next t ∧
        Appended (s.deliverCount (countOf cc)) (copiedByte s o.toNat) (countOf cc) t) ∧
    (∀ v : BitVec 13, s.reaches v.toNat →
      ∃ t, exec (.lmatch v cc) s = .next t ∧
        Appended (s.deliverCount (countOf cc)) (copiedByte s v.toNat) (countOf cc) t)

/-- R137, R139, R153: REUSE (count 0 included) and NEWOFF with an offset the output reaches complete; they append
their bytes, NEWOFF keeps the offset in `last_off`, and nothing else changes. -/
def Obligations.LegMatchesCopyTheirBytes : Prop :=
  ∀ (s : State), s.out.wf →
    (∀ n : BitVec 5, s.room n.toNat = true → s.reaches s.lastOff.toNat →
      ∃ t, exec (.reuse n) s = .next t ∧
        Appended s (copiedByte s s.lastOff.toNat) n.toNat t) ∧
    (∀ (n : BitVec 2) (o : BitVec 13), s.room (4 + n.toNat) = true → s.reaches o.toNat →
      ∃ t, exec (.newoff n o) s = .next t ∧
        Appended { s with lastOff := o } (copiedByte s o.toNat) (4 + n.toNat) t)

/-- R154: the closed form of an accepted backreference in MATERIALIZE mode. -/
def Obligations.AcceptedBackreferenceClosedForm : Prop :=
  ∀ (s : State) (o c : Nat), s.out.wf → s.sinkMode = .materialize → s.room c = true →
    s.reaches o →
    ∃ t, emitBackreference o c s = .next t ∧ t.olen = s.olen + c ∧
      (∀ k < c, t.out.read (s.olen + k) = s.out.read (s.olen - o + k % o)) ∧
      (∀ a < s.olen, t.out.read a = s.out.read a) ∧
      (c ≤ o → ∀ k < c, t.out.read (s.olen + k) = s.out.read (s.olen - o + k))

/-- R153, R217, R221: a backreference whose offset is 0 or exceeds `olen` raises InvalidBackreference with the
requested count, the offset and `olen`, whatever the count; no byte is copied first and nothing outside what R222
leaves unspecified changes (but for the model's `count`, log 5). -/
def Obligations.BadOffsetsRaiseInvalidBackreference : Prop :=
  ∀ (s : State),
    (∀ (o : BitVec 8) (cc : CountCode), ¬ s.reaches o.toNat →
      ∃ t, exec (.smatch o cc) s = .next t ∧
        ErrorEntered (s.deliverCount (countOf cc))
          (.invalidBackreference (countOf cc) o.toNat s.olen) t) ∧
    (∀ (v : BitVec 13) (cc : CountCode), ¬ s.reaches v.toNat →
      ∃ t, exec (.lmatch v cc) s = .next t ∧
        ErrorEntered (s.deliverCount (countOf cc))
          (.invalidBackreference (countOf cc) v.toNat s.olen) t) ∧
    (∀ n : BitVec 5, ¬ s.reaches s.lastOff.toNat →
      ∃ t, exec (.reuse n) s = .next t ∧
        ErrorEntered s (.invalidBackreference n.toNat s.lastOff.toNat s.olen) t) ∧
    (∀ (n : BitVec 2) (o : BitVec 13), ¬ s.reaches o.toNat →
      ∃ t, exec (.newoff n o) s = .next t ∧
        ErrorEntered s (.invalidBackreference (4 + n.toNat) o.toNat s.olen) t)

/-- R157 and the treatment U5: an output operation that would make `olen` exceed a finite OUT_CAP is refused, never
cut short and never wrapped; without OUT_CAP none is refused. That the capacity is tested once per operation is the
model's choice (log 10). -/
def Obligations.OutputBeyondCapacityIsRefused : Prop :=
  ∀ (s : State),
    (∀ cap, s.cfg.outCap = some cap →
      (∀ b c, 0 < c → cap < s.olen + c → emitFill b c s = .refused .outCapExceeded) ∧
      (∀ bs, bs ≠ [] → cap < s.olen + bs.length → emitLiterals bs s = .refused .outCapExceeded) ∧
      (∀ o c, s.reaches o → 0 < c → cap < s.olen + c →
        emitBackreference o c s = .refused .outCapExceeded)) ∧
    (s.cfg.outCap = none → ∀ i : Instr, (i.isAdvCommand = true ∨ i.isLegCommand = true) →
      ∃ t, exec i s = .next t)

/-- R118: END completes with `st` DONE; R93: the header completes with its byte as the 8 cached control bits. -/
def Obligations.EndAndHeaderComplete : Prop :=
  ∀ (s : State) (w0 : Byte),
    exec .endMark s = .next { s with st := .done } ∧
    ∃ t, exec (.advHeader w0) s = .next t ∧
      t = { s with cw := t.cw, cb := 8, st := .advReadControl } ∧ t.cw.toNat = w0.toNat

/-- R95: each count code completes and delivers its count, by the eight boundary counts' formulas; the delivery is
the model's own field `count` (log 5), and nothing else changes. A match with that code uses the count delivered. -/
def Obligations.CountCodesDeliverTheirCount : Prop :=
  ∀ (s : State),
    exec .cc2 s = .next { s with count := 2 } ∧
    exec .cc3 s = .next { s with count := 3 } ∧
    exec .cc4 s = .next { s with count := 4 } ∧
    exec .cc5 s = .next { s with count := 5 } ∧
    (∀ k : BitVec 3, exec (.cc6 k) s = .next { s with count := 6 + k.toNat }) ∧
    (∀ m : BitVec 8, exec (.cc14 m) s = .next { s with count := 14 + m.toNat }) ∧
    (∀ (o : BitVec 8) (cc : CountCode) (t : State), exec cc.toInstr s = .next t →
      exec (.smatch o cc) s = emitBackreference o.toNat t.count t)

/-- R216: no command but SMATCH, LMATCH, REUSE and NEWOFF ends in an error of its own once its fields are read, and
those raise InvalidBackreference only; reading REUSE after its opcode never fails. -/
def Obligations.CommandsRaiseOnlyTheirErrors : Prop :=
  (∀ (i : Instr) (s t : State), exec i s = .next t →
    (i.isAdvCommand = true ∨ i.isLegCommand = true ∨ i = .endMark) →
    (t.err = s.err ∧ t.freeCtr = s.freeCtr ∧ (t.st = s.st ∨ i = .endMark)) ∨
    (t.err = .invalidBackreference ∧ t.st = .error ∧
      ((∃ o cc, i = .smatch o cc) ∨ (∃ v cc, i = .lmatch v cc) ∨ (∃ n, i = .reuse n) ∨
        ∃ n o, i = .newoff n o))) ∧
  (∀ (rd : Source) (op : Byte) (c : Cursor) (k : Nat), 0x60 ≤ op.toNat → op.toNat ≤ 0x7F →
    decodeOpcode rd op c ≠ .truncated k)

/-- R18, R121: but for an error, no DEC command except NEWOFF writes `last_off`, and no ADV command does. -/
def Obligations.OnlyNewoffWritesLastOff : Prop :=
  ∀ (i : Instr) (s t : State), exec i s = .next t → t.freeCtr = s.freeCtr →
    (∃ n o, i = .newoff n o ∧ t.lastOff = o) ∨ t.lastOff = s.lastOff

/-! ## The step -/

/-- R110, R111, R130: with DEC to move, the step runs by `exec` exactly the instruction decoded at the cursor, on the
state with the cursor past it. -/
def Obligations.StepRunsTheDecodedInstruction : Prop :=
  ∀ (s : State) (i : Instr) (c : Cursor), s.agenda = [] →
    (s.st = .advReadControl → decodeAdv s.cfg.fieldOrder s.inSource s.cursor = some (i, c) →
      step s = exec i (s.setCursor c)) ∧
    (s.st = .legOpcode → s.ip < s.n → decodeLeg s.inSource s.cursor = .ok i c →
      step s = exec i (s.setCursor c)) ∧
    (s.st = .select → decodeSelect s.inSource s.cursor = some (some i, c) →
      step s = exec i (s.setCursor c))

/-- R200: with FR to move, the step runs by `exec` the part of the frame that is due, on the state with `fp` past
it. -/
def Obligations.StepRunsTheChunkPart : Prop :=
  ∀ (s : State) (i : Instr) (fp : Nat), s.agenda = [] → s.st.running = false →
    (s.fst = .pfx → (s.fn - s.fp ≠ 0 ∨ s.chunks = 0) →
      decodeLength s.fsSource s.fp = some (i, fp) → step s = exec i { s with fp := fp }) ∧
    (s.fst = .payload →
      decodePayload s.fsSource s.fp s.plen = some (i, fp) → step s = exec i { s with fp := fp }) ∧
    (s.fst = .cont → decodeCont s.fsSource s.fp = some (i, fp) →
      step s = exec i { s with fp := fp })

/-- R10, R223, log 6: a turn of the agenda is taken first: an agent's turn is that agent's step, a host turn the
host's action, each on the state with the turn taken off. The agenda is the model's choice. -/
def Obligations.AgendaTurnsAreTakenInOrder : Prop :=
  ∀ (s : State) (rest : List Turn),
    (∀ g, s.agenda = .agent g :: rest → step s = agentStep g { s with agenda := rest }) ∧
    (∀ a, s.agenda = .host a :: rest → step s = hostAct a { s with agenda := rest }) ∧
    (s.agenda = [] → s.st.running = false → s.framed = false → s.mst ≠ .scan → step s = .next s)

/-- R61, R110: the SELECT step. The first byte picks the format; a byte other than 0 is left unread; too short a
chunk is Truncated. -/
def Obligations.FirstByteSelectsTheFormat : Prop :=
  ∀ (s : State), s.agenda = [] → s.st = .select → s.ip = 0 →
    (1 ≤ s.n → s.inp.read 0 ≠ 0 → step s = .next { s with st := .legOpcode }) ∧
    (2 ≤ s.n → s.inp.read 0 = 0 →
      ∃ t, step s = .next t ∧
        t = { s with st := .advReadControl, ip := 2, cw := t.cw, cb := 8 } ∧
        t.cw.toNat = (s.inp.read 1).toNat) ∧
    (s.n = 0 ∨ (s.n = 1 ∧ s.inp.read 0 = 0) →
      ∃ t, step s = .next t ∧ ErrorEntered s .truncated t)

/-- R90, R119, R130, R133: a command cut short by the end of IN raises Truncated, and a LEG run at the end of IN
between two commands is DONE. -/
def Obligations.EndOfInputIsTruncatedOrDone : Prop :=
  ∀ (s : State), s.agenda = [] →
    (s.st = .advReadControl → decodeAdv s.cfg.fieldOrder s.inSource s.cursor = none →
      ∃ t, step s = .next t ∧ ErrorEntered s .truncated t) ∧
    (∀ k, s.st = .legOpcode → s.ip < s.n → decodeLeg s.inSource s.cursor = .truncated k →
      s.room k = true → ∃ t, step s = .next t ∧ ErrorEntered s .truncated t) ∧
    (s.st = .legOpcode → s.n ≤ s.ip → step s = .next { s with st := .done })

/-- R218: fields before the check: a SMATCH whose count code is cut short is Truncated even when its offset is
bad. -/
def Obligations.CutShortBadMatchIsTruncated : Prop :=
  ∀ (s : State) (c1 c2 c3 : Cursor) (v : Nat), s.agenda = [] → s.st = .advReadControl →
    readBit s.inSource s.cursor = some (true, c1) → readBit s.inSource c1 = some (false, c2) →
    readBits s.cfg.fieldOrder s.inSource 8 c2 = some (v, c3) → ¬ s.reaches v →
    readCountCode s.cfg.fieldOrder s.inSource c3 = none →
    ∃ t, step s = .next t ∧ ErrorEntered s .truncated t

/-! ## The framing -/

/-- R202: the length field completes with the payload due; below 2 it raises UnrecognizedChunkHeader; nothing left
after a chunk that announced another is UnrecognizedChunkHeader, and any other short read is Truncated. -/
def Obligations.LengthFieldOfAFrame : Prop :=
  (∀ (s : State) (l : BitVec 16),
    (2 ≤ l.toNat → exec (.chunk (.length l)) s =
      .next { s with plen := l.toNat - 2, fst := .payload }) ∧
    (l.toNat < 2 → ∃ t, exec (.chunk (.length l)) s = .next t ∧
      ErrorEntered s .unrecognizedChunkHeader t)) ∧
  (∀ s : State, s.agenda = [] → s.st.running = false → s.fst = .pfx →
    (s.fn ≤ s.fp → 0 < s.chunks →
      ∃ t, step s = .next t ∧ ErrorEntered s .unrecognizedChunkHeader t) ∧
    (s.fn ≤ s.fp → s.chunks = 0 → ∃ t, step s = .next t ∧ ErrorEntered s .truncated t) ∧
    (s.fn = s.fp + 1 → ∃ t, step s = .next t ∧ ErrorEntered s .truncated t))

/-- R200, R203, R251: the payload completes, on a machine without OUT_CAP, as one whole DEC run: DEC starts afresh on it,
makes its steps until DONE or ERROR, and FR takes the result, the totals and the continuation byte due, or the error;
a payload longer than IN_CAP is refused (U5). That a run of `decRunBound` steps always gets there is R230 and R275 (log
7); the fields `count`, `outMode` and `freeCtr` are the model's own (logs 5, 21, 3). -/
def Obligations.PayloadIsOneWholeDecRun : Prop :=
  ∀ (s : State) (p : List Byte),
    ((∀ cap, s.cfg.inCap = some cap → p.length ≤ cap) → s.cfg.outCap = none →
      ∃ (d u t : State) (k : Nat),
        (∀ a, d.inp.read a = p.getD a 0) ∧ d.inp.wf ∧
        d = { s with
          inp := d.inp, n := p.length, st := .select, ip := 0, cb := 0, olen := 0, out := [],
          lastOff := 0, err := .none, count := 0, outMode := s.sinkMode, cw := d.cw,
          errCount := d.errCount, errOffset := d.errOffset, errProduced := d.errProduced,
          freeCtr := s.freeCtr + 1 } ∧
        decSteps k d = .next u ∧ u.st.terminal = true ∧
        exec (.chunk (.payload p)) s = .next t ∧
        (u.st = .done → t = { u with
          sout := t.sout, stotal := s.stotal + u.olen, chunks := s.chunks + 1, fst := .cont }) ∧
        (u.st = .error → t = { u with fst := .error })) ∧
    (∀ cap, s.cfg.inCap = some cap → cap < p.length →
      exec (.chunk (.payload p)) s = .refused .inCapExceeded)

/-- R203: when DEC's run on the payload ends in DONE, FR appends its output to SOUT in MATERIALIZE mode, adds `olen` to
`stotal`, counts the chunk, and the continuation byte is due; in SIZE_ONLY mode SOUT is left alone. -/
def Obligations.PayloadOutputIsCollected : Prop :=
  ∀ (s t : State) (p : List Byte), s.sout.wf →
    exec (.chunk (.payload p)) s = .next t → t.st = .done →
    t.fst = .cont ∧ t.chunks = s.chunks + 1 ∧ t.stotal = s.stotal + t.olen ∧
    (s.sinkMode = .materialize → ∀ a, t.sout.read a =
      if s.stotal ≤ a ∧ a < s.stotal + t.olen then t.out.read (a - s.stotal)
      else s.sout.read a) ∧
    (s.sinkMode = .sizeOnly → t.sout = s.sout)

/-- R204: the continuation byte completes: 0 ends the run, anything else makes the next length due; a missing one is
Truncated, and so is a short payload (R203, R205). -/
def Obligations.ContinuationByteOfAFrame : Prop :=
  (∀ (s : State) (k : Byte),
    exec (.chunk (.cont k)) s = .next { s with fst := if k = 0 then .done else .pfx }) ∧
  (∀ s : State, s.agenda = [] → s.st.running = false →
    (s.fst = .cont → s.fn ≤ s.fp → ∃ t, step s = .next t ∧ ErrorEntered s .truncated t) ∧
    (s.fst = .payload → s.fp ≤ s.fn → s.fn < s.fp + s.plen →
      ∃ t, step s = .next t ∧ ErrorEntered s .truncated t))

/-! ## The match finder -/

/-- R172: `CommonRun` is the largest common run under the cap, reads SRC only below `M`, and is at least 2 for equal
digraphs when the cap allows. -/
def Obligations.CommonRunIsTheLargest : Prop :=
  ∀ (s : State) (q p cap : Nat), q < p → p + cap ≤ s.m →
    s.commonRun q p cap ≤ cap ∧
    (∀ k < s.commonRun q p cap, s.src.read (q + k) = s.src.read (p + k)) ∧
    (∀ l, s.commonRun q p cap < l → l ≤ cap →
      ∃ k < l, s.src.read (q + k) ≠ s.src.read (p + k)) ∧
    (∀ mem : Memory, (∀ a < s.m, mem.read a = s.src.read a) →
      State.commonRun { s with src := mem } q p cap = s.commonRun q p cap) ∧
    (s.digraph q = s.digraph p → 2 ≤ cap → 2 ≤ s.commonRun q p cap)

/-- R178: `RunLength` is the largest run of equal bytes under MF_FILL_MAX, at least 1. -/
def Obligations.RunLengthIsTheLargest : Prop :=
  ∀ (s : State) (p : Nat), p < s.m → 1 ≤ s.mfFillMax →
    1 ≤ s.runLength p ∧ s.runLength p ≤ min s.mfFillMax (s.m - p) ∧
    (∀ k < s.runLength p, s.src.read (p + k) = s.src.read p) ∧
    (s.runLength p < min s.mfFillMax (s.m - p) →
      s.src.read (p + s.runLength p) ≠ s.src.read p)

/-- R176: `Find` gives the greatest common run among the candidates, the newest of the longest, or (0, 0) when there
is none. -/
def Obligations.FindIsTheNewestLongest : Prop :=
  ∀ (s : State) (p : Nat), s.idx.Pairwise (· < ·) → (∀ q ∈ s.idx, q < p) →
    (s.find p = (0, 0) ∧
      (s.m ≤ p + 1 ∨ ∀ q ∈ s.idx, s.digraph q = s.digraph p →
        s.commonRun q p (min s.mfMatchMax (s.m - p)) = 0)) ∨
    (p + 1 < s.m ∧ ∃ q ∈ s.idx, s.digraph q = s.digraph p ∧
      s.find p = (p - q, s.commonRun q p (min s.mfMatchMax (s.m - p))) ∧
      0 < s.commonRun q p (min s.mfMatchMax (s.m - p)) ∧
      ∀ r ∈ s.idx, s.digraph r = s.digraph p →
        s.commonRun r p (min s.mfMatchMax (s.m - p)) ≤
          s.commonRun q p (min s.mfMatchMax (s.m - p)) ∧
        (s.commonRun r p (min s.mfMatchMax (s.m - p)) =
          s.commonRun q p (min s.mfMatchMax (s.m - p)) → r ≤ q))

/-- R177: the walk over the tables returns the same pair as the search of the index, for every SRC and position, when
the tables agree with the index (R28). That a best of length 0 is no match for the walk either is the model's reading
(log 12). -/
def Obligations.FindOnTablesAgrees : Prop :=
  ∀ (s : State) (p : Nat), TablesAgree s → s.findOnTables p = s.find p

/-- R179, R176, R178: what Select answers, and that with the default parameters every command MF emits is encodable
in the ADV format. -/
def Obligations.EmittedCommandsAreEncodable : Prop :=
  (∀ (s : State) (p mo ml r : Nat),
    (s.mfFillMin ≤ r → ml ≤ r → s.select p mo ml r = .fill (s.src.read p) r) ∧
    (¬ (s.mfFillMin ≤ r ∧ ml ≤ r) → s.mfMatchMin ≤ ml → 1 ≤ ml →
      s.select p mo ml r = .backreference mo ml) ∧
    (¬ (s.mfFillMin ≤ r ∧ ml ≤ r) → ml < s.mfMatchMin →
      s.select p mo ml r = .literal (s.src.read p))) ∧
  (∀ s : State, s.mst = .scan → FinderInv s → s.pos < s.m →
    s.mfMatchMin = 2 → s.mfMatchMax = 269 → s.mfFillMin = 14 → s.mfFillMax = 4109 →
    match s.chosen with
    | .literal b => b = s.src.read s.pos
    | .fill b c => b = s.src.read s.pos ∧ 14 ≤ c ∧ c ≤ 4109
    | .backreference o c => 1 ≤ o ∧ o ≤ 8191 ∧ 2 ≤ c ∧ c ≤ 269)

/-- R185, R187: a step of MF's run emits one command, moves `pos` by the bytes it covers, at least 1 and at most
`M - pos`, and changes only MF's own state; at the end of SRC the run is DONE. -/
def Obligations.FinderStepCoversItsCommand : Prop :=
  ∀ (s : State), s.agenda = [] → s.st.running = false → s.framed = false → s.mst = .scan →
    (s.m ≤ s.pos → step s = .next { s with mst := .done }) ∧
    (s.pos < s.m → ∃ t, step s = .next t ∧
      t = { s with
        pos := s.pos + commandLength s.chosen, cmdq := s.cmdq ++ [s.chosen], idx := t.idx,
        headT := t.headT, tailT := t.tailT, nextT := t.nextT } ∧
      1 ≤ commandLength s.chosen ∧ commandLength s.chosen ≤ s.m - s.pos)

/-- R186: an MF run, whatever its parameters, ends in DONE with `pos` = `M` within `M + 1` steps (R187), and its
commands, executed in order on an empty sink, raise no error and leave OUT = SRC and `olen` = `M`. For parameters
outside R256's ranges this rests on the model's readings of Select and RunLength (logs 12, 13). -/
def Obligations.FinderRunReplaysToItsSource : Prop :=
  ∀ (s : State), s.agenda = [] → s.st.running = false → s.framed = false → s.mst = .scan →
    s.pos = 0 → s.idx = [] → s.headT = [] → s.tailT = [] → s.nextT = [] → s.cmdq = [] →
    ∃ t, Host.Core.run Sys2Proof.core (s.m + 1) s = .next t ∧ t.mst = .done ∧ t.pos = s.m ∧
      ∀ e : State, EmptySink e →
        ∃ u, replay t.cmdq e = .next u ∧ u.st = e.st ∧ u.err = e.err ∧ u.olen = s.m ∧
          ∀ a < s.m, u.out.read a = s.src.read a

/-! ## The host's side -/

/-- R30, R31, R32, R251, R252: START, given to an agent that is not running, completes with every element of the
agent at its value after START and the configuration as the host wrote it. The fields `count`, `outMode`,
`soutMode`, `agenda` and `freeCtr` are the model's own (logs 5, 21, 6, 3); that the framed START puts `plen` at 0 is the
model's too (log 7), since R23 and R32 do not list it. -/
def Obligations.StartGivesTheInitialState : Prop :=
  ∀ (s : State) (rest : List Turn),
    (s.agenda = .host .startDec :: rest → s.decBusy = false →
      (∀ cap, s.cfg.inCap = some cap → s.n ≤ cap) →
      ∃ t, step s = .next t ∧
        t = { s with
          st := .select, ip := 0, cb := 0, olen := 0, out := [], lastOff := 0, err := .none,
          count := 0, outMode := s.sinkMode, agenda := rest, cw := t.cw, errCount := t.errCount,
          errOffset := t.errOffset, errProduced := t.errProduced, freeCtr := s.freeCtr + 1 }) ∧
    (s.agenda = .host .startFr :: rest → s.decBusy = false →
      ∃ t, step s = .next t ∧
        t = { s with
          fst := .pfx, fp := 0, stotal := 0, chunks := 0, sout := [], err := .none, plen := 0,
          soutMode := s.sinkMode, agenda := rest, errCount := t.errCount, errOffset := t.errOffset,
          errProduced := t.errProduced, freeCtr := s.freeCtr + 1 }) ∧
    (s.agenda = .host .startMf :: rest → s.mst ≠ .scan →
      step s = .next { s with
        mst := .scan, pos := 0, idx := [], headT := [], tailT := [], nextT := [], cmdq := [],
        agenda := rest })

/-- R227, R257, R262, R157 and the treatments U5, U6: a START of a running agent, or of DEC during a framed run, and a
write of a register a running agent uses, are refused. That a framed START is refused while a run of the host's uses
DEC, and that an input too long is refused at START, are the model's (logs 8, 10). -/
def Obligations.ForbiddenHostActionsAreRefused : Prop :=
  ∀ (s : State) (rest : List Turn) (a : HostAction), s.agenda = .host a :: rest →
    (s.decBusy = true → (a = .startDec ∨ a = .startFr) →
      step s = .refused .startWhileRunning) ∧
    (s.mst = .scan → a = .startMf → step s = .refused .startWhileRunning) ∧
    (s.decBusy = true →
      ((∃ x b, a = .writeIn x b) ∨ (∃ v, a = .writeN v) ∨ (∃ v, a = .writeSinkMode v)) →
      step s = .refused .writeWhileRunning) ∧
    (s.framed = true → ((∃ x b, a = .writeFs x b) ∨ (∃ v, a = .writeFn v)) →
      step s = .refused .writeWhileRunning) ∧
    (s.mst = .scan →
      ((∃ x b, a = .writeSrc x b) ∨ (∃ v, a = .writeM v) ∨ (∃ p v, a = .writeMfParam p v)) →
      step s = .refused .writeWhileRunning) ∧
    (s.decBusy = false → a = .startDec → (∃ cap, s.cfg.inCap = some cap ∧ cap < s.n) →
      step s = .refused .inCapExceeded)

/-- R12, R24, R255 to R257: a write of the configuration while no agent that uses it is running completes, and changes
the one byte or register it names. That a host action is a turn of the agenda, and that a byte may be written at any
address, at or beyond the length register too, are the model's (logs 6, 8). -/
def Obligations.HostWritesLandWhereTheyName : Prop :=
  ∀ (s : State) (rest : List Turn), SpacesCanonical s →
    (s.decBusy = false →
      (∀ x b, s.agenda = .host (.writeIn x b) :: rest →
        ∃ t, step s = .next t ∧ t = { s with inp := t.inp, agenda := rest } ∧
          ∀ a, t.inp.read a = if a = x then b else s.inp.read a) ∧
      (∀ v, s.agenda = .host (.writeN v) :: rest → step s = .next { s with n := v, agenda := rest }) ∧
      (∀ v, s.agenda = .host (.writeSinkMode v) :: rest →
        step s = .next { s with sinkMode := v, agenda := rest })) ∧
    (s.framed = false →
      (∀ x b, s.agenda = .host (.writeFs x b) :: rest →
        ∃ t, step s = .next t ∧ t = { s with fs := t.fs, agenda := rest } ∧
          ∀ a, t.fs.read a = if a = x then b else s.fs.read a) ∧
      (∀ v, s.agenda = .host (.writeFn v) :: rest →
        step s = .next { s with fn := v, agenda := rest })) ∧
    (s.mst ≠ .scan →
      (∀ x b, s.agenda = .host (.writeSrc x b) :: rest →
        ∃ t, step s = .next t ∧ t = { s with src := t.src, agenda := rest } ∧
          ∀ a, t.src.read a = if a = x then b else s.src.read a) ∧
      (∀ v, s.agenda = .host (.writeM v) :: rest → step s = .next { s with m := v, agenda := rest }) ∧
      (∀ v, s.agenda = .host (.writeMfParam .matchMin v) :: rest →
        step s = .next { s with mfMatchMin := v, agenda := rest }) ∧
      (∀ v, s.agenda = .host (.writeMfParam .matchMax v) :: rest →
        step s = .next { s with mfMatchMax := v, agenda := rest }) ∧
      (∀ v, s.agenda = .host (.writeMfParam .fillMin v) :: rest →
        step s = .next { s with mfFillMin := v, agenda := rest }) ∧
      (∀ v, s.agenda = .host (.writeMfParam .fillMax v) :: rest →
        step s = .next { s with mfFillMax := v, agenda := rest }))

/-- R22, R56, R222, R227: what the host may read is delivered, register by register, and the rest is refused: run states
and DEC's configuration at any time, DEC's results at DONE, its report at ERROR and `err` at both, FR's and MF's
results at DONE, `cw`, `cb` and `last_off` never; an address at or beyond the length of its space faults (R40). A read
changes nothing of the block. The list for FR and MF, the reads of DEC between two steps of a framed run, and the field
`hostData` are log 9's; when OUT and SOUT are shown after `sink_mode` was rewritten at DONE is the model's choice (log
21). -/
def Obligations.HostReadsOnlyWhatIsAllowed : Prop :=
  ∀ s : State,
    (ReadDelivers s .st (.runState s.st) ∧ ReadDelivers s .fst (.frState s.fst) ∧
      ReadDelivers s .mst (.mfState s.mst) ∧ ReadDelivers s .n (.nat s.n) ∧
      ReadDelivers s .sinkMode (.sinkMode s.sinkMode)) ∧
    ByteReadIf s True .inByte s.inp s.n ∧
    (s.st = .done → ReadDelivers s .ip (.nat s.ip) ∧ ReadDelivers s .olen (.nat s.olen)) ∧
    (s.st ≠ .done → ReadRefused s .ip ∧ ReadRefused s .olen) ∧
    ByteReadIf s (s.st = .done ∧ s.outMode = .materialize ∧ s.sinkMode = .materialize)
      .outByte s.out s.olen ∧
    (s.st = .done ∨ s.st = .error → ReadDelivers s .err (.nat s.err.code)) ∧
    (s.st ≠ .done → s.st ≠ .error → ReadRefused s .err) ∧
    (s.st = .error → ReadDelivers s .errCount (.nat s.errCount) ∧
      ReadDelivers s .errOffset (.nat s.errOffset) ∧
      ReadDelivers s .errProduced (.nat s.errProduced)) ∧
    (s.st ≠ .error → ReadRefused s .errCount ∧ ReadRefused s .errOffset ∧
      ReadRefused s .errProduced) ∧
    (ReadRefused s .cw ∧ ReadRefused s .cb ∧ ReadRefused s .lastOff) ∧
    (s.fst = .done → ReadDelivers s .fp (.nat s.fp) ∧ ReadDelivers s .stotal (.nat s.stotal) ∧
      ReadDelivers s .chunks (.nat s.chunks)) ∧
    (s.fst ≠ .done → ReadRefused s .fp ∧ ReadRefused s .stotal ∧ ReadRefused s .chunks) ∧
    ByteReadIf s (s.fst = .done ∧ s.soutMode = .materialize ∧ s.sinkMode = .materialize)
      .soutByte s.sout s.stotal ∧
    (s.mst = .done → ReadDelivers s .cmdq (.commands s.cmdq)) ∧
    (s.mst ≠ .done → ReadRefused s .cmdq) ∧
    (∀ r rest t, step { s with agenda := .host (.read r) :: rest } = .next t →
      ∃ d, t = { s with agenda := rest, hostData := some d })

/-- R250: reset is taken at any time and leaves every agent IDLE and nothing of a run; R250's values for the elements
the spec leaves unspecified are the model's choice (logs 1, 2, 16). -/
def Obligations.ResetIdlesEveryAgent : Prop :=
  ∀ (s : State) (rest : List Turn), s.agenda = .host .reset :: rest →
    ∃ t, step s = .next t ∧ t.st = .idle ∧ t.fst = .idle ∧ t.mst = .idle ∧
      t.ip = 0 ∧ t.cb = 0 ∧ t.olen = 0 ∧ t.out = [] ∧ t.lastOff = 0 ∧ t.err = .none ∧
      t.fp = 0 ∧ t.sout = [] ∧ t.stotal = 0 ∧ t.chunks = 0 ∧
      t.pos = 0 ∧ t.idx = [] ∧ t.headT = [] ∧ t.tailT = [] ∧ t.nextT = [] ∧ t.cmdq = [] ∧
      t.cfg = s.cfg ∧ t.agenda = rest

/-! ## What every step keeps -/

/-- Log 1: every step keeps the canonical form of the five byte spaces. -/
def Obligations.StepKeepsSpacesCanonical : Prop :=
  ∀ (s t : State), SpacesCanonical s → step s = .next t → SpacesCanonical t

/-- R13, R14, R96: every step keeps the cursor's invariant. -/
def Obligations.StepKeepsCursorInvariant : Prop :=
  ∀ (s t : State), CursorInv s → step s = .next t → CursorInv t

/-- R16, R17, R42, R157: every step keeps the output's invariant; its field `outMode` is the model's own (log 21). -/
def Obligations.StepKeepsOutputInvariant : Prop :=
  ∀ (s t : State), OutputInv s → step s = .next t → OutputInv t

/-- R23, R200, R202: every step keeps the framing's invariant; its field `soutMode` is the model's own (log 21). -/
def Obligations.StepKeepsFrameInvariant : Prop :=
  ∀ (s t : State), FrameInv s → step s = .next t → FrameInv t

/-- R28, R175: every step keeps MF's invariant: the index is exactly the window, the tables agree with it, within
their sizes. -/
def Obligations.StepKeepsFinderInvariant : Prop :=
  ∀ (s t : State), FinderInv s → step s = .next t → FinderInv t

/-- The invariants hold right after reset, where every agent is IDLE (R250). -/
def Obligations.ResetMeetsEveryInvariant : Prop :=
  SpacesCanonical State.reset ∧ CursorInv State.reset ∧ OutputInv State.reset ∧
  FrameInv State.reset ∧ FinderInv State.reset ∧
  State.reset.st = .idle ∧ State.reset.fst = .idle ∧ State.reset.mst = .idle

/-- R10, R33, R49, R203, R221, R270: DEC's steps write no input and no configuration and nothing of MF, and nothing of
FR either unless they raise an error in a framed run; FR's steps write FR, IN and `N`, and all of DEC's run, and nothing
of MF; MF's steps write nothing but MF's own state. -/
def Obligations.AgentsKeepToTheirOwnState : Prop :=
  ∀ (s t : State),
    (agentStep .dec s = .next t → t = { s with
      st := t.st, ip := t.ip, cw := t.cw, cb := t.cb, olen := t.olen, out := t.out,
      lastOff := t.lastOff, err := t.err, errCount := t.errCount, errOffset := t.errOffset,
      errProduced := t.errProduced, count := t.count, fp := t.fp, fst := t.fst, sout := t.sout,
      stotal := t.stotal, chunks := t.chunks, freeCtr := t.freeCtr }) ∧
    (agentStep .dec s = .next t → (s.framed = false ∨ s.st = .error ∨ t.st ≠ .error) →
      t.fp = s.fp ∧ t.fst = s.fst ∧ t.sout = s.sout ∧ t.stotal = s.stotal ∧
      t.chunks = s.chunks) ∧
    (agentStep .fr s = .next t → t = { s with
      inp := t.inp, n := t.n,
      st := t.st, ip := t.ip, cw := t.cw, cb := t.cb, olen := t.olen, out := t.out,
      lastOff := t.lastOff, err := t.err, errCount := t.errCount, errOffset := t.errOffset,
      errProduced := t.errProduced, count := t.count, outMode := t.outMode, fp := t.fp,
      fst := t.fst, sout := t.sout, stotal := t.stotal, chunks := t.chunks, plen := t.plen,
      freeCtr := t.freeCtr }) ∧
    (agentStep .mf s = .next t → t = { s with
      pos := t.pos, idx := t.idx, headT := t.headT, tailT := t.tailT, nextT := t.nextT,
      cmdq := t.cmdq, mst := t.mst })

/-- R17: OUT is append-only: but for an error, a step of a DEC run in MATERIALIZE mode never changes a byte below
`olen`, and `olen` never shrinks (R16). -/
def Obligations.OutputIsAppendOnly : Prop :=
  ∀ (s t : State), s.st.running = true → s.sinkMode = .materialize → s.out.wf →
    agentStep .dec s = .next t → t.st ≠ .error →
    s.olen ≤ t.olen ∧ ∀ a < s.olen, t.out.read a = s.out.read a

/-- R156: a SIZE_ONLY machine and a MATERIALIZE machine run alike, step for step: the same `st`, `ip`, `olen`, `err`
and report, and all else but OUT and SOUT, for as long as the host does not act. That they agree after an error in what
R222 leaves unspecified, and in the report registers while `err` is not 2, is a property of the model only, which draws
equal free values (logs 3, 4). -/
def Obligations.SizeOnlyRunsAgree : Prop :=
  ∀ (k : Nat) (s : State), s.agenda = [] →
    Host.Core.run Sys2Proof.core k s.withoutOutput =
      mapResult State.withoutOutput (Host.Core.run Sys2Proof.core k s)

/-- R97, R230, R275: a DEC run outside a framed run ends in DONE or ERROR within `8 * N + 1` steps, whatever the bytes
of IN, unless it is refused at a finite OUT_CAP (R157); on a machine without OUT_CAP it always ends so. -/
def Obligations.EveryDecRunEnds : Prop :=
  ∀ (s : State), s.agenda = [] → s.st = .select → s.framed = false →
    ((∃ t, Host.Core.run Sys2Proof.core (8 * s.n + 1) s = .next t ∧ t.st.terminal = true) ∨
      Host.Core.run Sys2Proof.core (8 * s.n + 1) s = .refused .outCapExceeded) ∧
    (s.cfg.outCap = none →
      ∃ t, Host.Core.run Sys2Proof.core (8 * s.n + 1) s = .next t ∧ t.st.terminal = true)

/-- R205, R230: on a machine without capacities every framed run ends in DONE or ERROR, within `FN + 3` steps of FR,
whatever the bytes of FS. -/
def Obligations.EveryFramedRunEnds : Prop :=
  ∀ (s : State), s.agenda = [] → s.fst = .pfx → s.st.running = false → s.fp ≤ s.fn →
    s.cfg.inCap = none → s.cfg.outCap = none →
    ∃ t, Host.Core.run Sys2Proof.core (s.fn + 3) s = .next t ∧ (t.fst = .done ∨ t.fst = .error)

/-- R86, ADV: running DEC on the chunk assembled from an ADV program and END executes exactly the program's commands
in order, if they raise no error, ends in DONE and leaves `ip` at the chunk's length. R80 to R84 give the assembler for
msb_first; what lsb_first means is the model's reading of D3 (log 11). -/
def Obligations.AssembledAdvProgramRuns : Prop :=
  ∀ (prog : List Instr) (s u : State),
    (∀ i ∈ prog, i.isAdvCommand = true ∧ i.wf = true) →
    s.agenda = [] → s.st = .select → s.ip = 0 →
    s.inp = Memory.ofBytes (assembleAdv s.cfg.fieldOrder (prog ++ [.endMark])) →
    s.n = (assembleAdv s.cfg.fieldOrder (prog ++ [.endMark])).length →
    execAll prog s = .next u → u.st ≠ .error →
    ∃ t, Host.Core.run Sys2Proof.core (prog.length + 2) s = .next t ∧
      t = { u with st := .done, ip := s.n, cw := t.cw, cb := t.cb }

/-- R86, LEG: the same for a LEG program whose assembled chunk does not begin with `00`. -/
def Obligations.AssembledLegProgramRuns : Prop :=
  ∀ (prog : List Instr) (s u : State),
    (∀ i ∈ prog, i.isLegCommand = true ∧ i.wf = true) →
    s.agenda = [] → s.st = .select → s.ip = 0 →
    s.inp = Memory.ofBytes (assembleLeg prog) → s.n = (assembleLeg prog).length →
    (assembleLeg prog).headD 0 ≠ 0 →
    execAll prog s = .next u → u.st ≠ .error →
    ∃ t, Host.Core.run Sys2Proof.core (prog.length + 2) s = .next t ∧
      t = { u with st := .done, ip := s.n }
end

