-- ==== Sys2Proof/Laws/Asm.lean ====
section
/-! SUPPORT. What a line of assembly answers, said once: an instruction is well formed and holds exactly the operands of
the line, and there is one exactly in the ranges of R83 to R85. -/

namespace Sys2Proof.Machine

/-- A count has a code exactly from 2 to 269. -/
theorem ofCount_isSome (c : Nat) : (CountCode.ofCount c).isSome = true ↔ 2 ≤ c ∧ c ≤ 269 := by
  unfold CountCode.ofCount
  repeat' split
  all_goals simp
  all_goals omega

/-- The code of a count delivers that count (R71, R95). -/
theorem countOf_ofCount {c : Nat} {cc : CountCode} (h : CountCode.ofCount c = some cc) :
    countOf cc = c := by
  unfold CountCode.ofCount at h
  repeat' split at h
  all_goals simp only [Option.some.injEq, reduceCtorEq] at h
  all_goals subst h
  all_goals simp only [countOf, BitVec.toNat_ofNat]
  all_goals omega

/-- `SMATCH o, c` holds its offset and its count. -/
theorem asmSmatch_eq_some {o c : Nat} {i : Instr} (h : asmSmatch o c = some i) :
    1 ≤ o ∧ o ≤ 255 ∧ ∃ v cc, i = .smatch v cc ∧ smatchOffset v = o ∧ countOf cc = c := by
  unfold asmSmatch at h
  split at h
  · obtain ⟨cc, hc, rfl⟩ := Option.map_eq_some_iff.1 h
    exact ⟨by omega, by omega, _, cc, rfl, by simp only [smatchOffset, BitVec.toNat_ofNat]; omega,
      countOf_ofCount hc⟩
  · cases h

/-- `LMATCH o, c` holds its offset and its count, and is well formed. -/
theorem asmLmatch_eq_some {o c : Nat} {i : Instr} (h : asmLmatch o c = some i) :
    2 ≤ o ∧ o ≤ 8191 ∧ i.wf = true ∧
      ∃ v cc, i = .lmatch v cc ∧ lmatchOffset v = o ∧ countOf cc = c := by
  unfold asmLmatch at h
  split at h
  · obtain ⟨cc, hc, rfl⟩ := Option.map_eq_some_iff.1 h
    have e : (BitVec.ofNat 13 o).toNat = o := by simp only [BitVec.toNat_ofNat]; omega
    exact ⟨by omega, by omega, by simp only [Instr.wf, e, decide_eq_true_eq]; omega, _, cc, rfl, e,
      countOf_ofCount hc⟩
  · cases h

/-- `MATCH o, c` is one of the two matches with the offset and the count of the line (R79). -/
theorem asmMatch_eq_some {o c : Nat} {i : Instr} (h : asmMatch o c = some i) :
    (∃ v cc, i = .smatch v cc ∧ smatchOffset v = o ∧ countOf cc = c) ∨
    (∃ v cc, i = .lmatch v cc ∧ lmatchOffset v = o ∧ countOf cc = c) := by
  unfold asmMatch at h
  split at h
  · exact .inl (asmSmatch_eq_some h).2.2
  · exact .inr (asmLmatch_eq_some h).2.2.2

/-- `FILL b, c` is one of the two sizes with the count of the line (R78). -/
theorem asmFill_eq_some {b : Byte} {c : Nat} {i : Instr} (h : asmFill b c = some i) :
    (∃ s, i = .fill s b ∧ fillCount s = c) ∨ (∃ s, i = .fill12 s b ∧ fill12Count s = c) := by
  unfold asmFill asmFill12 at h
  repeat' split at h
  all_goals simp only [Option.some.injEq, reduceCtorEq] at h
  · exact .inl ⟨_, h.symm, by simp only [fillCount, BitVec.toNat_ofNat]; omega⟩
  · exact .inr ⟨_, h.symm, by simp only [fill12Count, BitVec.toNat_ofNat]; omega⟩

/-- `LFILL b, c` is one of the two forms with the count of the line (R78). -/
theorem asmLfill_eq_some {b : Byte} {c : Nat} {i : Instr} (h : asmLfill b c = some i) :
    (∃ n, i = .lfill n b ∧ lfillCount n = c) ∨ (∃ n, i = .lfillx n b ∧ lfillxCount n = c) := by
  unfold asmLfill asmLfillx at h
  repeat' split at h
  all_goals simp only [Option.some.injEq, reduceCtorEq] at h
  · exact .inl ⟨_, h.symm, by simp only [lfillCount, BitVec.toNat_ofNat]; omega⟩
  · exact .inr ⟨_, h.symm, by simp only [lfillxCount, BitVec.toNat_ofNat]; omega⟩

/-- `VERB` is one of the two forms with the data of the line, and is well formed (R78). -/
theorem asmVerb_eq_some {data : List Byte} {i : Instr} (h : asmVerb data = some i) :
    i.wf = true ∧ (i = .verb data ∨ i = .verbx data) := by
  unfold asmVerb asmVerbx at h
  repeat' split at h
  all_goals simp only [Option.some.injEq, reduceCtorEq] at h
  all_goals subst h
  · exact ⟨by simpa only [Instr.wf, decide_eq_true_eq], .inl rfl⟩
  · exact ⟨by simp only [Instr.wf, decide_eq_true_eq]; omega, .inr rfl⟩

/-- `NEWOFF o, c` holds its offset and its count. -/
theorem asmNewoff_eq_some {o c : Nat} {i : Instr} (h : asmNewoff o c = some i) :
    ∃ n v, i = .newoff n v ∧ legOffset v = o ∧ newoffCount n = c := by
  unfold asmNewoff at h
  split at h
  · simp only [Option.some.injEq] at h
    exact ⟨_, _, h.symm, by simp only [legOffset, BitVec.toNat_ofNat]; omega,
      by simp only [newoffCount, BitVec.toNat_ofNat]; omega⟩
  · cases h

end Sys2Proof.Machine
end

