-- ==== Sys2Proof/Laws/Dec.lean ====
section
/-! SUPPORT. The DEC run inside FrPayload is a run of DEC's own steps: `execDec` is `exec` on all that DEC's decoders
give, so both executors make the same steps. What FrPayload answers follows. -/

namespace Sys2Proof.Machine

/-- The instruction is a part of a frame. -/
def isChunk : Instr → Bool
  | .chunk _ => true
  | .lit _ | .smatch _ _ | .lmatch _ _ | .fill _ _ | .fill12 _ _ | .endMark | .cc2 | .cc3 | .cc4
  | .cc5 | .cc6 _ | .cc14 _ | .verb _ | .verbx _ | .lfill _ _ | .lfillx _ _ | .reuse _ | .newoff _ _
  | .advHeader _ => false

/-- Without CHUNK the two executors are one. -/
theorem execDec_eq_exec (i : Instr) (s : State) (h : isChunk i = false) : execDec i s = exec i s := by
  cases i <;> first | rfl | exact absurd h (by simp [isChunk])

theorem decodeSelect_not_chunk {rd : Source} {c c' : Cursor} {i : Instr}
    (h : decodeSelect rd c = some (some i, c')) : isChunk i = false := by
  unfold decodeSelect at h
  dsimp only at h
  repeat' split at h
  all_goals simp only [Option.some.injEq, Prod.mk.injEq, reduceCtorEq, false_and] at h
  all_goals rw [← h.1]; rfl

theorem decodeAdv_not_chunk {fo : FieldOrder} {rd : Source} {c c' : Cursor} {i : Instr}
    (h : decodeAdv fo rd c = some (i, c')) : isChunk i = false := by
  unfold decodeAdv decodeLit decodeSmatch decodeExtended decodeFill at h
  repeat' split at h
  all_goals simp only [Option.some.injEq, Prod.mk.injEq, reduceCtorEq] at h
  all_goals rw [← h.1]; rfl

theorem decodeLeg_not_chunk {rd : Source} {c c' : Cursor} {i : Instr}
    (h : decodeLeg rd c = .ok i c') : isChunk i = false := by
  unfold decodeLeg decodeOpcode decodeVerb decodeLfill decodeNewoff decodeData at h
  dsimp only at h
  repeat' split at h
  all_goals simp only [Decoded.ok.injEq, reduceCtorEq] at h
  all_goals rw [← h.1]; rfl

/-- DEC's step is the same with either executor. -/
theorem decStep_execDec (s : State) : decStep execDec s = decStep exec s := by
  unfold decStep
  cases s.st with
  | idle => rfl
  | done => rfl
  | error => rfl
  | select =>
    show decSelect execDec s = decSelect exec s
    unfold decSelect
    cases h : decodeSelect s.inSource s.cursor with
    | none => rfl
    | some p =>
      obtain ⟨o, c⟩ := p
      cases o with
      | none => rfl
      | some i => exact execDec_eq_exec i _ (decodeSelect_not_chunk h)
  | advReadControl =>
    show decAdv execDec s = decAdv exec s
    unfold decAdv
    cases h : decodeAdv s.cfg.fieldOrder s.inSource s.cursor with
    | none => rfl
    | some p => exact execDec_eq_exec p.1 _ (decodeAdv_not_chunk h)
  | legOpcode =>
    show decLeg execDec s = decLeg exec s
    unfold decLeg
    cases h : decodeLeg s.inSource s.cursor with
    | truncated k => rfl
    | ok i c => simp only [execDec_eq_exec i _ (decodeLeg_not_chunk h)]

/-- A DEC that is in no run stays as it is (R223). -/
theorem decStep_of_not_running (ex : Instr → State → Result) (s : State)
    (h : s.st.running = false) : decStep ex s = .next s := by
  unfold decStep
  cases hs : s.st <;> first | rfl | exact absurd h (by simp [hs, RunState.running])

/-- The run inside FrPayload is DEC's steps, one after the other. -/
theorem decRun_eq_decSteps (k : Nat) : ∀ s : State, decRun k s = decSteps k s := by
  induction k with
  | zero => exact fun _ => rfl
  | succ k ih =>
    intro s
    cases h : s.st.running with
    | true =>
      simp only [decRun, decSteps, h, if_true, decStep_execDec]
      cases decStep exec s <;> first | exact ih _ | rfl
    | false =>
      have e : decSteps k s = .next s := by
        rw [← ih]
        cases k <;> simp [decRun, h]
      simp [decRun, decSteps, h, decStep_of_not_running exec s h, e]

/-- What FrPayload does when it answers (R203): load, START, DEC's steps, the result. -/
theorem frPayload_next {p : List Byte} {s t : State} (h : frPayload p s = .next t) :
    ∃ u, (frLoad p s).inputFits = true ∧
      decSteps (decRunBound p.length) (frLoad p s).decStarted = .next u ∧ t = frEndPayload u := by
  unfold frPayload startDec at h
  cases hf : (frLoad p s).inputFits with
  | false => simp [hf] at h
  | true =>
    simp only [hf, if_true, decRun_eq_decSteps] at h
    cases hu : decSteps (decRunBound p.length) (frLoad p s).decStarted with
    | next u =>
      simp only [hu, Host.Outcome.next.injEq] at h
      exact ⟨u, rfl, rfl, h.symm⟩
    | fault f => simp [hu] at h
    | refused e => simp [hu] at h

end Sys2Proof.Machine
end

