-- ==== Sys2Proof/Laws/Host.lean ====
section
/-! SUPPORT. What the host's actions can do, said once: a START, a write and a read each answer one of two ways, and a
read changes nothing of the block. -/

namespace Sys2Proof.Machine

/-- What a guarded write answers (R262). -/
theorem writeUnless_cases (busy : Bool) (s : State) :
    (busy = false ∧ writeUnless busy s = .next s) ∨
    (busy = true ∧ writeUnless busy s = .refused .writeWhileRunning) := by
  cases busy
  · exact .inl ⟨rfl, rfl⟩
  · exact .inr ⟨rfl, rfl⟩

/-- What the host's START of DEC answers (R227, U6). -/
theorem hostStartDec_cases (s : State) :
    (s.decBusy = false ∧ hostStartDec s = startDec s) ∨
    (s.decBusy = true ∧ hostStartDec s = .refused .startWhileRunning) := by
  unfold hostStartDec
  cases s.decBusy
  · exact .inl ⟨rfl, rfl⟩
  · exact .inr ⟨rfl, rfl⟩

/-- What the framed START answers. -/
theorem hostStartFr_cases (s : State) :
    (s.decBusy = false ∧ hostStartFr s = .next (startFr s)) ∨
    (s.decBusy = true ∧ hostStartFr s = .refused .startWhileRunning) := by
  unfold hostStartFr
  cases s.decBusy
  · exact .inl ⟨rfl, rfl⟩
  · exact .inr ⟨rfl, rfl⟩

/-- What MF's START answers. -/
theorem hostStartMf_cases (s : State) :
    (s.mst.running = false ∧ hostStartMf s = .next (startMf s)) ∨
    (s.mst.running = true ∧ hostStartMf s = .refused .startWhileRunning) := by
  unfold hostStartMf
  cases s.mst.running
  · exact .inl ⟨rfl, rfl⟩
  · exact .inr ⟨rfl, rfl⟩

/-- A read that is answered changes what the host holds and nothing else (R49). -/
theorem hostRead_frame {r : HostReg} {s t : State} (h : hostRead r s = .next t) :
    ∃ d, t = { s with hostData := some d } := by
  unfold hostRead at h
  cases hr : s.readReg r with
  | next d =>
    simp only [hr, Host.Outcome.next.injEq] at h
    exact ⟨d, h.symm⟩
  | fault f =>
    simp only [hr] at h
    cases h
  | refused e =>
    simp only [hr] at h
    cases h

end Sys2Proof.Machine
end

