-- ==== Sys2Proof/Laws/Memory.lean ====
section
/-! SUPPORT. The laws of the byte spaces and of MF's tables: every operation keeps the canonical form, and a read
after a write. -/

namespace Sys2Proof.Machine

/-! ### Byte spaces -/

@[simp] theorem Memory.read_nil (a : Nat) : Memory.read [] a = 0 := rfl

/-- Below every listed address a byte reads `00`. -/
theorem Memory.read_of_below (m : Memory) (a : Nat) (h : ∀ c ∈ m, a < c.1) : m.read a = 0 := by
  induction m with
  | nil => rfl
  | cons c t ih =>
    have hc := h c (List.mem_cons_self ..)
    simp only [Memory.read, show ¬ c.1 = a by omega, if_false]
    exact ih fun d hd => h d (List.mem_cons_of_mem _ hd)

/-- The cells of a written space: old ones, or the new one when it is listed. -/
theorem Memory.mem_write (m : Memory) (a : Nat) (b : Byte) (c : Host.Cell) (h : c ∈ m.write a b) :
    c ∈ m ∨ (c = (a, b) ∧ b ≠ 0) := by
  induction m with
  | nil =>
    by_cases hb : b = 0 <;> simp_all [Memory.write]
  | cons d t ih =>
    obtain ⟨k, v⟩ := d
    simp only [Memory.write] at h
    split at h
    · split at h
      · exact .inl h
      · rcases List.mem_cons.1 h with rfl | h
        · exact .inr ⟨rfl, ‹_›⟩
        · exact .inl h
    · split at h
      · split at h
        · exact .inl (List.mem_cons_of_mem _ h)
        · rcases List.mem_cons.1 h with rfl | h
          · exact .inr ⟨rfl, ‹_›⟩
          · exact .inl (List.mem_cons_of_mem _ h)
      · rcases List.mem_cons.1 h with rfl | h
        · exact .inl (List.mem_cons_self ..)
        · exact (ih h).imp (List.mem_cons_of_mem _) id

/-- A write keeps the canonical form. -/
theorem Memory.wf_write (m : Memory) (a : Nat) (b : Byte) (h : m.wf) : (m.write a b).wf := by
  induction m with
  | nil =>
    simp only [Memory.write]
    split
    · exact h
    · rename_i hb
      exact ⟨List.pairwise_singleton .., fun c hc => by rw [List.mem_singleton.1 hc]; exact hb⟩
  | cons d t ih =>
    obtain ⟨k, v⟩ := d
    obtain ⟨hp, hz⟩ := h
    rw [List.pairwise_cons] at hp
    have ht : Memory.wf t := ⟨hp.2, fun c hc => hz c (List.mem_cons_of_mem _ hc)⟩
    simp only [Memory.write]
    split
    · split
      · exact ⟨List.pairwise_cons.2 hp, hz⟩
      · rename_i hak hb
        refine ⟨List.pairwise_cons.2 ⟨fun c hc => ?_, List.pairwise_cons.2 hp⟩, fun c hc => ?_⟩
        · rcases List.mem_cons.1 hc with rfl | hc
          · exact hak
          · exact Nat.lt_trans hak (hp.1 c hc)
        · rcases List.mem_cons.1 hc with rfl | hc
          · exact hb
          · exact hz c hc
    · split
      · rename_i hak
        subst hak
        split
        · exact ht
        · rename_i hb
          refine ⟨List.pairwise_cons.2 ⟨hp.1, hp.2⟩, fun c hc => ?_⟩
          rcases List.mem_cons.1 hc with rfl | hc
          · exact hb
          · exact ht.2 c hc
      · rename_i h1 h2
        have iht := ih ht
        refine ⟨List.pairwise_cons.2 ⟨fun c hc => ?_, iht.1⟩, fun c hc => ?_⟩
        · rcases Memory.mem_write t a b c hc with hc | ⟨rfl, -⟩
          · exact hp.1 c hc
          · show k < a
            omega
        · rcases List.mem_cons.1 hc with rfl | hc
          · exact hz _ (List.mem_cons_self ..)
          · exact iht.2 c hc

/-- A read after a write. -/
theorem Memory.read_write (m : Memory) (a : Nat) (b : Byte) (x : Nat) (h : m.wf) :
    (m.write a b).read x = if x = a then b else m.read x := by
  induction m with
  | nil =>
    simp only [Memory.write]
    split
    · rename_i hb
      by_cases hx : x = a
      · simp only [hx, if_true, Memory.read, hb]
      · simp only [hx, if_false]
    · by_cases hx : x = a
      · simp only [hx, if_true, Memory.read]
      · simp only [hx, if_false, Memory.read, show ¬ a = x from fun h => hx h.symm]
  | cons d t ih =>
    obtain ⟨k, v⟩ := d
    obtain ⟨hp, hz⟩ := h
    rw [List.pairwise_cons] at hp
    have ht : Memory.wf t := ⟨hp.2, fun c hc => hz c (List.mem_cons_of_mem _ hc)⟩
    have below : Memory.read t k = 0 := Memory.read_of_below t k hp.1
    simp only [Memory.write]
    split
    · rename_i hak
      have hr : Memory.read ((k, v) :: t) a = 0 := by
        refine Memory.read_of_below _ a fun c hc => ?_
        rcases List.mem_cons.1 hc with rfl | hc
        · exact hak
        · exact Nat.lt_trans hak (hp.1 c hc)
      split
      · rename_i hb
        by_cases hx : x = a
        · simp [hx, hr, hb]
        · simp [hx]
      · by_cases hx : x = a
        · simp [hx, Memory.read]
        · simp [hx, Memory.read, show ¬ a = x by omega]
    · split
      · rename_i hak
        subst hak
        split
        · rename_i hb
          by_cases hx : x = a
          · simp [hx, below, hb]
          · simp [hx, Memory.read, show ¬ a = x by omega]
        · by_cases hx : x = a
          · simp [hx, Memory.read]
          · simp [hx, Memory.read, show ¬ a = x by omega]
      · rename_i h1 h2
        simp only [Memory.read]
        by_cases hk : k = x
        · simp [hk, show ¬ x = a by omega]
        · simp [hk, ih ht]

/-- Writing several bytes keeps the canonical form. -/
theorem Memory.wf_writeBytes (bs : List Byte) :
    ∀ (m : Memory) (a : Nat), m.wf → (m.writeBytes a bs).wf := by
  induction bs with
  | nil => exact fun _ _ h => h
  | cons b bs ih => exact fun m a h => ih _ _ (Memory.wf_write m a b h)

/-- A space made of bytes is canonical. -/
theorem Memory.wf_ofBytes (bs : List Byte) : (Memory.ofBytes bs).wf :=
  Memory.wf_writeBytes bs [] 0 ⟨List.Pairwise.nil, by simp⟩

/-- A read after writing several bytes. -/
theorem Memory.read_writeBytes (bs : List Byte) :
    ∀ (m : Memory) (a x : Nat), m.wf →
      (m.writeBytes a bs).read x =
        if a ≤ x ∧ x < a + bs.length then bs.getD (x - a) 0 else m.read x := by
  induction bs with
  | nil =>
    intro m a x _
    simp [Memory.writeBytes, show ¬ (a ≤ x ∧ x < a) by omega]
  | cons b bs ih =>
    intro m a x h
    rw [Memory.writeBytes, ih _ _ _ (Memory.wf_write m a b h), Memory.read_write m a b x h]
    rcases Nat.lt_trichotomy x a with hx | rfl | hx
    · simp [show ¬ (a + 1 ≤ x) by omega, show ¬ (a ≤ x) by omega, show ¬ x = a by omega]
    · simp
    · obtain ⟨j, rfl⟩ : ∃ j, x = a + 1 + j := ⟨x - (a + 1), by omega⟩
      rw [show a + 1 + j - a = j + 1 by omega]
      by_cases hj : j < bs.length
      · simp [hj, show a ≤ a + 1 + j by omega, show a + 1 + j < a + (bs.length + 1) by omega]
      · simp [hj, show ¬ a + 1 + j < a + (bs.length + 1) by omega, show ¬ a + 1 + j = a by omega]

/-- The bytes read back from a stretch of a space. -/
theorem Memory.length_readBytes (m : Memory) (c : Nat) :
    ∀ a, (Memory.readBytes m a c).length = c := by
  induction c with
  | zero => exact fun _ => rfl
  | succ c ih => exact fun a => by simp [Memory.readBytes, ih]

/-- The `k`-th byte of a stretch. -/
theorem Memory.getD_readBytes (m : Memory) (c : Nat) :
    ∀ a k, k < c → (Memory.readBytes m a c).getD k 0 = m.read (a + k) := by
  induction c with
  | zero => intro a k h; omega
  | succ c ih =>
    intro a k h
    cases k with
    | zero => simp [Memory.readBytes]
    | succ k =>
      have := ih (a + 1) k (by omega)
      simp only [Memory.readBytes, List.getD_cons_succ]
      rw [this, show a + 1 + k = a + (k + 1) by omega]

/-- A source gives the byte of its space exactly below its length. -/
theorem Memory.source_eq (m : Memory) (len a : Nat) :
    m.source len a = if a < len then some (m.read a) else none := rfl

/-! ### MF's tables -/

@[simp] theorem Table.get_nil (k : Nat) : Table.get [] k = none := rfl

/-- Below every listed entry a table holds NIL. -/
theorem Table.get_of_below (t : Table) (k : Nat) (h : ∀ c ∈ t, k < c.1) : t.get k = none := by
  induction t with
  | nil => rfl
  | cons c r ih =>
    have hc := h c (List.mem_cons_self ..)
    simp only [Table.get, show ¬ c.1 = k by omega, if_false]
    exact ih fun d hd => h d (List.mem_cons_of_mem _ hd)

theorem Table.mem_set (t : Table) (k p : Nat) (c : Nat × Nat) (h : c ∈ t.set k p) :
    c ∈ t ∨ c = (k, p) := by
  induction t with
  | nil => simp_all [Table.set]
  | cons d r ih =>
    obtain ⟨j, q⟩ := d
    simp only [Table.set] at h
    split at h
    · rcases List.mem_cons.1 h with rfl | h
      · exact .inr rfl
      · exact .inl h
    · split at h
      · rcases List.mem_cons.1 h with rfl | h
        · exact .inr rfl
        · exact .inl (List.mem_cons_of_mem _ h)
      · rcases List.mem_cons.1 h with rfl | h
        · exact .inl (List.mem_cons_self ..)
        · exact (ih h).imp (List.mem_cons_of_mem _) id

theorem Table.mem_clear (t : Table) (k : Nat) (c : Nat × Nat) (h : c ∈ t.clear k) : c ∈ t := by
  induction t with
  | nil => simp [Table.clear] at h
  | cons d r ih =>
    obtain ⟨j, q⟩ := d
    simp only [Table.clear] at h
    split at h
    · exact List.mem_cons_of_mem _ h
    · rcases List.mem_cons.1 h with rfl | h
      · exact List.mem_cons_self ..
      · exact List.mem_cons_of_mem _ (ih h)

/-- Setting an entry keeps the canonical form. -/
theorem Table.wf_set (t : Table) (k p : Nat) (h : t.wf) : (t.set k p).wf := by
  induction t with
  | nil => simp [Table.set, Table.wf]
  | cons d r ih =>
    obtain ⟨j, q⟩ := d
    have hp := List.pairwise_cons.1 h
    simp only [Table.set]
    split
    · rename_i hkj
      refine List.pairwise_cons.2 ⟨fun c hc => ?_, h⟩
      rcases List.mem_cons.1 hc with rfl | hc
      · exact hkj
      · exact Nat.lt_trans hkj (hp.1 c hc)
    · split
      · rename_i hkj
        subst hkj
        exact List.pairwise_cons.2 ⟨hp.1, hp.2⟩
      · refine List.pairwise_cons.2 ⟨fun c hc => ?_, ih hp.2⟩
        rcases Table.mem_set r k p c hc with hc | rfl
        · exact hp.1 c hc
        · show j < k
          omega

/-- Clearing an entry keeps the canonical form. -/
theorem Table.wf_clear (t : Table) (k : Nat) (h : t.wf) : (t.clear k).wf := by
  induction t with
  | nil => exact h
  | cons d r ih =>
    obtain ⟨j, q⟩ := d
    have hp := List.pairwise_cons.1 h
    simp only [Table.clear]
    split
    · exact hp.2
    · exact List.pairwise_cons.2 ⟨fun c hc => hp.1 c (Table.mem_clear r k c hc), ih hp.2⟩

/-- An entry after one was set. -/
theorem Table.get_set (t : Table) (k p x : Nat) (h : t.wf) :
    (t.set k p).get x = if x = k then some p else t.get x := by
  induction t with
  | nil =>
    by_cases hx : x = k
    · simp [Table.set, Table.get, hx]
    · simp [Table.set, Table.get, hx, show ¬ k = x from fun h => hx h.symm]
  | cons d r ih =>
    obtain ⟨j, q⟩ := d
    have hp := List.pairwise_cons.1 h
    simp only [Table.set]
    split
    · by_cases hx : x = k
      · simp [hx, Table.get]
      · simp [hx, Table.get, show ¬ k = x by omega]
    · split
      · rename_i hkj
        subst hkj
        by_cases hx : x = k
        · simp [hx, Table.get]
        · simp [hx, Table.get, show ¬ k = x by omega]
      · simp only [Table.get]
        by_cases hj : j = x
        · simp [hj, show ¬ x = k by omega]
        · simp [hj, ih hp.2]

/-- An entry after one was cleared. -/
theorem Table.get_clear (t : Table) (k x : Nat) (h : t.wf) :
    (t.clear k).get x = if x = k then none else t.get x := by
  induction t with
  | nil => simp [Table.clear]
  | cons d r ih =>
    obtain ⟨j, q⟩ := d
    have hp := List.pairwise_cons.1 h
    simp only [Table.clear]
    split
    · rename_i hjk
      subst hjk
      by_cases hx : x = j
      · subst hx
        simp [Table.get_of_below r x hp.1]
      · simp [hx, Table.get, show ¬ j = x by omega]
    · simp only [Table.get]
      by_cases hj : j = x
      · simp [hj, show ¬ x = k by omega]
      · simp [hj, ih hp.2]

end Sys2Proof.Machine
end

