-- ==== Sys2Proof/Laws/State.lean ====
section
/-! SUPPORT. One lemma per field for each plain update of State, true by rfl, so that no proof unfolds a record
update. -/

namespace Sys2Proof.Machine

/-! ### `setCursor` -/

@[simp] theorem setCursor_cfg (s : State) (c : Cursor) : (s.setCursor c).cfg = s.cfg := rfl
@[simp] theorem setCursor_n (s : State) (c : Cursor) : (s.setCursor c).n = s.n := rfl
@[simp] theorem setCursor_sinkMode (s : State) (c : Cursor) : (s.setCursor c).sinkMode = s.sinkMode := rfl
@[simp] theorem setCursor_inp (s : State) (c : Cursor) : (s.setCursor c).inp = s.inp := rfl
@[simp] theorem setCursor_st (s : State) (c : Cursor) : (s.setCursor c).st = s.st := rfl
@[simp] theorem setCursor_ip (s : State) (c : Cursor) : (s.setCursor c).ip = c.ip := rfl
@[simp] theorem setCursor_cw (s : State) (c : Cursor) : (s.setCursor c).cw = c.cw := rfl
@[simp] theorem setCursor_cb (s : State) (c : Cursor) : (s.setCursor c).cb = c.cb := rfl
@[simp] theorem setCursor_olen (s : State) (c : Cursor) : (s.setCursor c).olen = s.olen := rfl
@[simp] theorem setCursor_out (s : State) (c : Cursor) : (s.setCursor c).out = s.out := rfl
@[simp] theorem setCursor_lastOff (s : State) (c : Cursor) : (s.setCursor c).lastOff = s.lastOff := rfl
@[simp] theorem setCursor_err (s : State) (c : Cursor) : (s.setCursor c).err = s.err := rfl
@[simp] theorem setCursor_errCount (s : State) (c : Cursor) : (s.setCursor c).errCount = s.errCount := rfl
@[simp] theorem setCursor_errOffset (s : State) (c : Cursor) : (s.setCursor c).errOffset = s.errOffset := rfl
@[simp] theorem setCursor_errProduced (s : State) (c : Cursor) : (s.setCursor c).errProduced = s.errProduced := rfl
@[simp] theorem setCursor_count (s : State) (c : Cursor) : (s.setCursor c).count = s.count := rfl
@[simp] theorem setCursor_fs (s : State) (c : Cursor) : (s.setCursor c).fs = s.fs := rfl
@[simp] theorem setCursor_fn (s : State) (c : Cursor) : (s.setCursor c).fn = s.fn := rfl
@[simp] theorem setCursor_fp (s : State) (c : Cursor) : (s.setCursor c).fp = s.fp := rfl
@[simp] theorem setCursor_fst (s : State) (c : Cursor) : (s.setCursor c).fst = s.fst := rfl
@[simp] theorem setCursor_sout (s : State) (c : Cursor) : (s.setCursor c).sout = s.sout := rfl
@[simp] theorem setCursor_stotal (s : State) (c : Cursor) : (s.setCursor c).stotal = s.stotal := rfl
@[simp] theorem setCursor_chunks (s : State) (c : Cursor) : (s.setCursor c).chunks = s.chunks := rfl
@[simp] theorem setCursor_plen (s : State) (c : Cursor) : (s.setCursor c).plen = s.plen := rfl
@[simp] theorem setCursor_outMode (s : State) (c : Cursor) : (s.setCursor c).outMode = s.outMode := rfl
@[simp] theorem setCursor_soutMode (s : State) (c : Cursor) : (s.setCursor c).soutMode = s.soutMode := rfl
@[simp] theorem setCursor_src (s : State) (c : Cursor) : (s.setCursor c).src = s.src := rfl
@[simp] theorem setCursor_m (s : State) (c : Cursor) : (s.setCursor c).m = s.m := rfl
@[simp] theorem setCursor_mfMatchMin (s : State) (c : Cursor) : (s.setCursor c).mfMatchMin = s.mfMatchMin := rfl
@[simp] theorem setCursor_mfMatchMax (s : State) (c : Cursor) : (s.setCursor c).mfMatchMax = s.mfMatchMax := rfl
@[simp] theorem setCursor_mfFillMin (s : State) (c : Cursor) : (s.setCursor c).mfFillMin = s.mfFillMin := rfl
@[simp] theorem setCursor_mfFillMax (s : State) (c : Cursor) : (s.setCursor c).mfFillMax = s.mfFillMax := rfl
@[simp] theorem setCursor_pos (s : State) (c : Cursor) : (s.setCursor c).pos = s.pos := rfl
@[simp] theorem setCursor_idx (s : State) (c : Cursor) : (s.setCursor c).idx = s.idx := rfl
@[simp] theorem setCursor_headT (s : State) (c : Cursor) : (s.setCursor c).headT = s.headT := rfl
@[simp] theorem setCursor_tailT (s : State) (c : Cursor) : (s.setCursor c).tailT = s.tailT := rfl
@[simp] theorem setCursor_nextT (s : State) (c : Cursor) : (s.setCursor c).nextT = s.nextT := rfl
@[simp] theorem setCursor_cmdq (s : State) (c : Cursor) : (s.setCursor c).cmdq = s.cmdq := rfl
@[simp] theorem setCursor_mst (s : State) (c : Cursor) : (s.setCursor c).mst = s.mst := rfl
@[simp] theorem setCursor_agenda (s : State) (c : Cursor) : (s.setCursor c).agenda = s.agenda := rfl
@[simp] theorem setCursor_hostData (s : State) (c : Cursor) : (s.setCursor c).hostData = s.hostData := rfl
@[simp] theorem setCursor_freeCtr (s : State) (c : Cursor) : (s.setCursor c).freeCtr = s.freeCtr := rfl

/-! ### `deliverCount` -/

@[simp] theorem deliverCount_cfg (s : State) (c : Nat) : (s.deliverCount c).cfg = s.cfg := rfl
@[simp] theorem deliverCount_n (s : State) (c : Nat) : (s.deliverCount c).n = s.n := rfl
@[simp] theorem deliverCount_sinkMode (s : State) (c : Nat) : (s.deliverCount c).sinkMode = s.sinkMode := rfl
@[simp] theorem deliverCount_inp (s : State) (c : Nat) : (s.deliverCount c).inp = s.inp := rfl
@[simp] theorem deliverCount_st (s : State) (c : Nat) : (s.deliverCount c).st = s.st := rfl
@[simp] theorem deliverCount_ip (s : State) (c : Nat) : (s.deliverCount c).ip = s.ip := rfl
@[simp] theorem deliverCount_cw (s : State) (c : Nat) : (s.deliverCount c).cw = s.cw := rfl
@[simp] theorem deliverCount_cb (s : State) (c : Nat) : (s.deliverCount c).cb = s.cb := rfl
@[simp] theorem deliverCount_olen (s : State) (c : Nat) : (s.deliverCount c).olen = s.olen := rfl
@[simp] theorem deliverCount_out (s : State) (c : Nat) : (s.deliverCount c).out = s.out := rfl
@[simp] theorem deliverCount_lastOff (s : State) (c : Nat) : (s.deliverCount c).lastOff = s.lastOff := rfl
@[simp] theorem deliverCount_err (s : State) (c : Nat) : (s.deliverCount c).err = s.err := rfl
@[simp] theorem deliverCount_errCount (s : State) (c : Nat) : (s.deliverCount c).errCount = s.errCount := rfl
@[simp] theorem deliverCount_errOffset (s : State) (c : Nat) : (s.deliverCount c).errOffset = s.errOffset := rfl
@[simp] theorem deliverCount_errProduced (s : State) (c : Nat) : (s.deliverCount c).errProduced = s.errProduced := rfl
@[simp] theorem deliverCount_count (s : State) (c : Nat) : (s.deliverCount c).count = c := rfl
@[simp] theorem deliverCount_fs (s : State) (c : Nat) : (s.deliverCount c).fs = s.fs := rfl
@[simp] theorem deliverCount_fn (s : State) (c : Nat) : (s.deliverCount c).fn = s.fn := rfl
@[simp] theorem deliverCount_fp (s : State) (c : Nat) : (s.deliverCount c).fp = s.fp := rfl
@[simp] theorem deliverCount_fst (s : State) (c : Nat) : (s.deliverCount c).fst = s.fst := rfl
@[simp] theorem deliverCount_sout (s : State) (c : Nat) : (s.deliverCount c).sout = s.sout := rfl
@[simp] theorem deliverCount_stotal (s : State) (c : Nat) : (s.deliverCount c).stotal = s.stotal := rfl
@[simp] theorem deliverCount_chunks (s : State) (c : Nat) : (s.deliverCount c).chunks = s.chunks := rfl
@[simp] theorem deliverCount_plen (s : State) (c : Nat) : (s.deliverCount c).plen = s.plen := rfl
@[simp] theorem deliverCount_outMode (s : State) (c : Nat) : (s.deliverCount c).outMode = s.outMode := rfl
@[simp] theorem deliverCount_soutMode (s : State) (c : Nat) : (s.deliverCount c).soutMode = s.soutMode := rfl
@[simp] theorem deliverCount_src (s : State) (c : Nat) : (s.deliverCount c).src = s.src := rfl
@[simp] theorem deliverCount_m (s : State) (c : Nat) : (s.deliverCount c).m = s.m := rfl
@[simp] theorem deliverCount_mfMatchMin (s : State) (c : Nat) : (s.deliverCount c).mfMatchMin = s.mfMatchMin := rfl
@[simp] theorem deliverCount_mfMatchMax (s : State) (c : Nat) : (s.deliverCount c).mfMatchMax = s.mfMatchMax := rfl
@[simp] theorem deliverCount_mfFillMin (s : State) (c : Nat) : (s.deliverCount c).mfFillMin = s.mfFillMin := rfl
@[simp] theorem deliverCount_mfFillMax (s : State) (c : Nat) : (s.deliverCount c).mfFillMax = s.mfFillMax := rfl
@[simp] theorem deliverCount_pos (s : State) (c : Nat) : (s.deliverCount c).pos = s.pos := rfl
@[simp] theorem deliverCount_idx (s : State) (c : Nat) : (s.deliverCount c).idx = s.idx := rfl
@[simp] theorem deliverCount_headT (s : State) (c : Nat) : (s.deliverCount c).headT = s.headT := rfl
@[simp] theorem deliverCount_tailT (s : State) (c : Nat) : (s.deliverCount c).tailT = s.tailT := rfl
@[simp] theorem deliverCount_nextT (s : State) (c : Nat) : (s.deliverCount c).nextT = s.nextT := rfl
@[simp] theorem deliverCount_cmdq (s : State) (c : Nat) : (s.deliverCount c).cmdq = s.cmdq := rfl
@[simp] theorem deliverCount_mst (s : State) (c : Nat) : (s.deliverCount c).mst = s.mst := rfl
@[simp] theorem deliverCount_agenda (s : State) (c : Nat) : (s.deliverCount c).agenda = s.agenda := rfl
@[simp] theorem deliverCount_hostData (s : State) (c : Nat) : (s.deliverCount c).hostData = s.hostData := rfl
@[simp] theorem deliverCount_freeCtr (s : State) (c : Nat) : (s.deliverCount c).freeCtr = s.freeCtr := rfl

/-! ### `putByte` -/

@[simp] theorem putByte_cfg (s : State) (b : Byte) : (s.putByte b).cfg = s.cfg := rfl
@[simp] theorem putByte_n (s : State) (b : Byte) : (s.putByte b).n = s.n := rfl
@[simp] theorem putByte_sinkMode (s : State) (b : Byte) : (s.putByte b).sinkMode = s.sinkMode := rfl
@[simp] theorem putByte_inp (s : State) (b : Byte) : (s.putByte b).inp = s.inp := rfl
@[simp] theorem putByte_st (s : State) (b : Byte) : (s.putByte b).st = s.st := rfl
@[simp] theorem putByte_ip (s : State) (b : Byte) : (s.putByte b).ip = s.ip := rfl
@[simp] theorem putByte_cw (s : State) (b : Byte) : (s.putByte b).cw = s.cw := rfl
@[simp] theorem putByte_cb (s : State) (b : Byte) : (s.putByte b).cb = s.cb := rfl
@[simp] theorem putByte_olen (s : State) (b : Byte) : (s.putByte b).olen = s.olen + 1 := rfl
@[simp] theorem putByte_out (s : State) (b : Byte) : (s.putByte b).out = match s.sinkMode with
    | .materialize => s.out.write s.olen b
    | .sizeOnly => s.out := rfl
@[simp] theorem putByte_lastOff (s : State) (b : Byte) : (s.putByte b).lastOff = s.lastOff := rfl
@[simp] theorem putByte_err (s : State) (b : Byte) : (s.putByte b).err = s.err := rfl
@[simp] theorem putByte_errCount (s : State) (b : Byte) : (s.putByte b).errCount = s.errCount := rfl
@[simp] theorem putByte_errOffset (s : State) (b : Byte) : (s.putByte b).errOffset = s.errOffset := rfl
@[simp] theorem putByte_errProduced (s : State) (b : Byte) : (s.putByte b).errProduced = s.errProduced := rfl
@[simp] theorem putByte_count (s : State) (b : Byte) : (s.putByte b).count = s.count := rfl
@[simp] theorem putByte_fs (s : State) (b : Byte) : (s.putByte b).fs = s.fs := rfl
@[simp] theorem putByte_fn (s : State) (b : Byte) : (s.putByte b).fn = s.fn := rfl
@[simp] theorem putByte_fp (s : State) (b : Byte) : (s.putByte b).fp = s.fp := rfl
@[simp] theorem putByte_fst (s : State) (b : Byte) : (s.putByte b).fst = s.fst := rfl
@[simp] theorem putByte_sout (s : State) (b : Byte) : (s.putByte b).sout = s.sout := rfl
@[simp] theorem putByte_stotal (s : State) (b : Byte) : (s.putByte b).stotal = s.stotal := rfl
@[simp] theorem putByte_chunks (s : State) (b : Byte) : (s.putByte b).chunks = s.chunks := rfl
@[simp] theorem putByte_plen (s : State) (b : Byte) : (s.putByte b).plen = s.plen := rfl
@[simp] theorem putByte_outMode (s : State) (b : Byte) : (s.putByte b).outMode = s.outMode := rfl
@[simp] theorem putByte_soutMode (s : State) (b : Byte) : (s.putByte b).soutMode = s.soutMode := rfl
@[simp] theorem putByte_src (s : State) (b : Byte) : (s.putByte b).src = s.src := rfl
@[simp] theorem putByte_m (s : State) (b : Byte) : (s.putByte b).m = s.m := rfl
@[simp] theorem putByte_mfMatchMin (s : State) (b : Byte) : (s.putByte b).mfMatchMin = s.mfMatchMin := rfl
@[simp] theorem putByte_mfMatchMax (s : State) (b : Byte) : (s.putByte b).mfMatchMax = s.mfMatchMax := rfl
@[simp] theorem putByte_mfFillMin (s : State) (b : Byte) : (s.putByte b).mfFillMin = s.mfFillMin := rfl
@[simp] theorem putByte_mfFillMax (s : State) (b : Byte) : (s.putByte b).mfFillMax = s.mfFillMax := rfl
@[simp] theorem putByte_pos (s : State) (b : Byte) : (s.putByte b).pos = s.pos := rfl
@[simp] theorem putByte_idx (s : State) (b : Byte) : (s.putByte b).idx = s.idx := rfl
@[simp] theorem putByte_headT (s : State) (b : Byte) : (s.putByte b).headT = s.headT := rfl
@[simp] theorem putByte_tailT (s : State) (b : Byte) : (s.putByte b).tailT = s.tailT := rfl
@[simp] theorem putByte_nextT (s : State) (b : Byte) : (s.putByte b).nextT = s.nextT := rfl
@[simp] theorem putByte_cmdq (s : State) (b : Byte) : (s.putByte b).cmdq = s.cmdq := rfl
@[simp] theorem putByte_mst (s : State) (b : Byte) : (s.putByte b).mst = s.mst := rfl
@[simp] theorem putByte_agenda (s : State) (b : Byte) : (s.putByte b).agenda = s.agenda := rfl
@[simp] theorem putByte_hostData (s : State) (b : Byte) : (s.putByte b).hostData = s.hostData := rfl
@[simp] theorem putByte_freeCtr (s : State) (b : Byte) : (s.putByte b).freeCtr = s.freeCtr := rfl

/-! ### `freeReport` -/

@[simp] theorem freeReport_cfg (s : State) : (s.freeReport).cfg = s.cfg := rfl
@[simp] theorem freeReport_n (s : State) : (s.freeReport).n = s.n := rfl
@[simp] theorem freeReport_sinkMode (s : State) : (s.freeReport).sinkMode = s.sinkMode := rfl
@[simp] theorem freeReport_inp (s : State) : (s.freeReport).inp = s.inp := rfl
@[simp] theorem freeReport_st (s : State) : (s.freeReport).st = s.st := rfl
@[simp] theorem freeReport_ip (s : State) : (s.freeReport).ip = s.ip := rfl
@[simp] theorem freeReport_cw (s : State) : (s.freeReport).cw = s.cw := rfl
@[simp] theorem freeReport_cb (s : State) : (s.freeReport).cb = s.cb := rfl
@[simp] theorem freeReport_olen (s : State) : (s.freeReport).olen = s.olen := rfl
@[simp] theorem freeReport_out (s : State) : (s.freeReport).out = s.out := rfl
@[simp] theorem freeReport_lastOff (s : State) : (s.freeReport).lastOff = s.lastOff := rfl
@[simp] theorem freeReport_err (s : State) : (s.freeReport).err = s.err := rfl
@[simp] theorem freeReport_errCount (s : State) : (s.freeReport).errCount = (Config.freeErrCount s.freeCtr).val := rfl
@[simp] theorem freeReport_errOffset (s : State) : (s.freeReport).errOffset = (Config.freeErrOffset s.freeCtr).val := rfl
@[simp] theorem freeReport_errProduced (s : State) : (s.freeReport).errProduced = Config.freeErrProduced s.freeCtr := rfl
@[simp] theorem freeReport_count (s : State) : (s.freeReport).count = s.count := rfl
@[simp] theorem freeReport_fs (s : State) : (s.freeReport).fs = s.fs := rfl
@[simp] theorem freeReport_fn (s : State) : (s.freeReport).fn = s.fn := rfl
@[simp] theorem freeReport_fp (s : State) : (s.freeReport).fp = s.fp := rfl
@[simp] theorem freeReport_fst (s : State) : (s.freeReport).fst = s.fst := rfl
@[simp] theorem freeReport_sout (s : State) : (s.freeReport).sout = s.sout := rfl
@[simp] theorem freeReport_stotal (s : State) : (s.freeReport).stotal = s.stotal := rfl
@[simp] theorem freeReport_chunks (s : State) : (s.freeReport).chunks = s.chunks := rfl
@[simp] theorem freeReport_plen (s : State) : (s.freeReport).plen = s.plen := rfl
@[simp] theorem freeReport_outMode (s : State) : (s.freeReport).outMode = s.outMode := rfl
@[simp] theorem freeReport_soutMode (s : State) : (s.freeReport).soutMode = s.soutMode := rfl
@[simp] theorem freeReport_src (s : State) : (s.freeReport).src = s.src := rfl
@[simp] theorem freeReport_m (s : State) : (s.freeReport).m = s.m := rfl
@[simp] theorem freeReport_mfMatchMin (s : State) : (s.freeReport).mfMatchMin = s.mfMatchMin := rfl
@[simp] theorem freeReport_mfMatchMax (s : State) : (s.freeReport).mfMatchMax = s.mfMatchMax := rfl
@[simp] theorem freeReport_mfFillMin (s : State) : (s.freeReport).mfFillMin = s.mfFillMin := rfl
@[simp] theorem freeReport_mfFillMax (s : State) : (s.freeReport).mfFillMax = s.mfFillMax := rfl
@[simp] theorem freeReport_pos (s : State) : (s.freeReport).pos = s.pos := rfl
@[simp] theorem freeReport_idx (s : State) : (s.freeReport).idx = s.idx := rfl
@[simp] theorem freeReport_headT (s : State) : (s.freeReport).headT = s.headT := rfl
@[simp] theorem freeReport_tailT (s : State) : (s.freeReport).tailT = s.tailT := rfl
@[simp] theorem freeReport_nextT (s : State) : (s.freeReport).nextT = s.nextT := rfl
@[simp] theorem freeReport_cmdq (s : State) : (s.freeReport).cmdq = s.cmdq := rfl
@[simp] theorem freeReport_mst (s : State) : (s.freeReport).mst = s.mst := rfl
@[simp] theorem freeReport_agenda (s : State) : (s.freeReport).agenda = s.agenda := rfl
@[simp] theorem freeReport_hostData (s : State) : (s.freeReport).hostData = s.hostData := rfl
@[simp] theorem freeReport_freeCtr (s : State) : (s.freeReport).freeCtr = s.freeCtr := rfl

/-! ### `withoutOutput` -/

@[simp] theorem withoutOutput_cfg (s : State) : (s.withoutOutput).cfg = s.cfg := rfl
@[simp] theorem withoutOutput_n (s : State) : (s.withoutOutput).n = s.n := rfl
@[simp] theorem withoutOutput_sinkMode (s : State) : (s.withoutOutput).sinkMode = .sizeOnly := rfl
@[simp] theorem withoutOutput_inp (s : State) : (s.withoutOutput).inp = s.inp := rfl
@[simp] theorem withoutOutput_st (s : State) : (s.withoutOutput).st = s.st := rfl
@[simp] theorem withoutOutput_ip (s : State) : (s.withoutOutput).ip = s.ip := rfl
@[simp] theorem withoutOutput_cw (s : State) : (s.withoutOutput).cw = s.cw := rfl
@[simp] theorem withoutOutput_cb (s : State) : (s.withoutOutput).cb = s.cb := rfl
@[simp] theorem withoutOutput_olen (s : State) : (s.withoutOutput).olen = s.olen := rfl
@[simp] theorem withoutOutput_out (s : State) : (s.withoutOutput).out = [] := rfl
@[simp] theorem withoutOutput_lastOff (s : State) : (s.withoutOutput).lastOff = s.lastOff := rfl
@[simp] theorem withoutOutput_err (s : State) : (s.withoutOutput).err = s.err := rfl
@[simp] theorem withoutOutput_errCount (s : State) : (s.withoutOutput).errCount = s.errCount := rfl
@[simp] theorem withoutOutput_errOffset (s : State) : (s.withoutOutput).errOffset = s.errOffset := rfl
@[simp] theorem withoutOutput_errProduced (s : State) : (s.withoutOutput).errProduced = s.errProduced := rfl
@[simp] theorem withoutOutput_count (s : State) : (s.withoutOutput).count = s.count := rfl
@[simp] theorem withoutOutput_fs (s : State) : (s.withoutOutput).fs = s.fs := rfl
@[simp] theorem withoutOutput_fn (s : State) : (s.withoutOutput).fn = s.fn := rfl
@[simp] theorem withoutOutput_fp (s : State) : (s.withoutOutput).fp = s.fp := rfl
@[simp] theorem withoutOutput_fst (s : State) : (s.withoutOutput).fst = s.fst := rfl
@[simp] theorem withoutOutput_sout (s : State) : (s.withoutOutput).sout = [] := rfl
@[simp] theorem withoutOutput_stotal (s : State) : (s.withoutOutput).stotal = s.stotal := rfl
@[simp] theorem withoutOutput_chunks (s : State) : (s.withoutOutput).chunks = s.chunks := rfl
@[simp] theorem withoutOutput_plen (s : State) : (s.withoutOutput).plen = s.plen := rfl
@[simp] theorem withoutOutput_outMode (s : State) : (s.withoutOutput).outMode = .sizeOnly := rfl
@[simp] theorem withoutOutput_soutMode (s : State) : (s.withoutOutput).soutMode = .sizeOnly := rfl
@[simp] theorem withoutOutput_src (s : State) : (s.withoutOutput).src = s.src := rfl
@[simp] theorem withoutOutput_m (s : State) : (s.withoutOutput).m = s.m := rfl
@[simp] theorem withoutOutput_mfMatchMin (s : State) : (s.withoutOutput).mfMatchMin = s.mfMatchMin := rfl
@[simp] theorem withoutOutput_mfMatchMax (s : State) : (s.withoutOutput).mfMatchMax = s.mfMatchMax := rfl
@[simp] theorem withoutOutput_mfFillMin (s : State) : (s.withoutOutput).mfFillMin = s.mfFillMin := rfl
@[simp] theorem withoutOutput_mfFillMax (s : State) : (s.withoutOutput).mfFillMax = s.mfFillMax := rfl
@[simp] theorem withoutOutput_pos (s : State) : (s.withoutOutput).pos = s.pos := rfl
@[simp] theorem withoutOutput_idx (s : State) : (s.withoutOutput).idx = s.idx := rfl
@[simp] theorem withoutOutput_headT (s : State) : (s.withoutOutput).headT = s.headT := rfl
@[simp] theorem withoutOutput_tailT (s : State) : (s.withoutOutput).tailT = s.tailT := rfl
@[simp] theorem withoutOutput_nextT (s : State) : (s.withoutOutput).nextT = s.nextT := rfl
@[simp] theorem withoutOutput_cmdq (s : State) : (s.withoutOutput).cmdq = s.cmdq := rfl
@[simp] theorem withoutOutput_mst (s : State) : (s.withoutOutput).mst = s.mst := rfl
@[simp] theorem withoutOutput_agenda (s : State) : (s.withoutOutput).agenda = s.agenda := rfl
@[simp] theorem withoutOutput_hostData (s : State) : (s.withoutOutput).hostData = s.hostData := rfl
@[simp] theorem withoutOutput_freeCtr (s : State) : (s.withoutOutput).freeCtr = s.freeCtr := rfl

/-! ### The cursor of a state -/

@[simp] theorem cursor_ip (s : State) : s.cursor.ip = s.ip := rfl
@[simp] theorem cursor_cw (s : State) : s.cursor.cw = s.cw := rfl
@[simp] theorem cursor_cb (s : State) : s.cursor.cb = s.cb := rfl
@[simp] theorem cursor_setCursor (s : State) (c : Cursor) : (s.setCursor c).cursor = c := rfl
@[simp] theorem setCursor_cursor (s : State) : s.setCursor s.cursor = s := rfl
@[simp] theorem inSource_setCursor (s : State) (c : Cursor) : (s.setCursor c).inSource = s.inSource := rfl
@[simp] theorem room_setCursor (s : State) (c : Cursor) (k : Nat) : (s.setCursor c).room k = s.room k := rfl
@[simp] theorem room_deliverCount (s : State) (c k : Nat) : (s.deliverCount c).room k = s.room k := rfl
@[simp] theorem framed_setCursor (s : State) (c : Cursor) : (s.setCursor c).framed = s.framed := rfl
@[simp] theorem framed_putByte (s : State) (b : Byte) : (s.putByte b).framed = s.framed := rfl

end Sys2Proof.Machine
end

