-- ==== Sys2Proof/Laws/Ops.lean ====
section
/-! SUPPORT. What each shared operation can do, said once: the sink operations, raising an error, START, the cursor's
primitives and MF's advance. Later proofs cite these lemmas and do not unfold the operations. -/

namespace Sys2Proof.Machine

/-! ### The sink -/

/-- Appending bytes touches OUT and `olen` only. -/
theorem putBytes_frame (bs : List Byte) :
    ∀ s : State, putBytes bs s = { s with out := (putBytes bs s).out, olen := s.olen + bs.length } := by
  induction bs with
  | nil => exact fun _ => rfl
  | cons b bs ih =>
    intro s
    rw [putBytes, ih (s.putByte b)]
    simp only [State.putByte, List.length_cons, Nat.add_assoc, Nat.add_comm 1]

/-- Filling touches OUT and `olen` only. -/
theorem fillBytes_frame (b : Byte) (c : Nat) :
    ∀ s : State, fillBytes b c s = { s with out := (fillBytes b c s).out, olen := s.olen + c } := by
  induction c with
  | zero => exact fun _ => rfl
  | succ c ih =>
    intro s
    rw [fillBytes, ih (s.putByte b)]
    simp only [State.putByte, Nat.add_assoc, Nat.add_comm 1]

/-- Copying touches OUT and `olen` only. -/
theorem copyBytes_frame (o c : Nat) :
    ∀ s : State, copyBytes o c s = { s with out := (copyBytes o c s).out, olen := s.olen + c } := by
  induction c with
  | zero => exact fun _ => rfl
  | succ c ih =>
    intro s
    rw [copyBytes, ih (s.putByte _)]
    simp only [State.putByte, Nat.add_assoc, Nat.add_comm 1]

/-- A fill is the same bytes written one after the other. -/
theorem fillBytes_eq_putBytes (b : Byte) (c : Nat) :
    ∀ s : State, fillBytes b c s = putBytes (List.replicate c b) s := by
  induction c with
  | zero => exact fun _ => rfl
  | succ c ih => exact fun s => ih _

/-- In SIZE_ONLY mode appending leaves OUT alone (R150). -/
theorem putBytes_out_sizeOnly (bs : List Byte) :
    ∀ s : State, s.sinkMode = .sizeOnly → (putBytes bs s).out = s.out := by
  induction bs with
  | nil => exact fun _ _ => rfl
  | cons b bs ih =>
    intro s h
    rw [putBytes, ih _ (by simpa using h)]
    simp [h]

/-- In MATERIALIZE mode the bytes appended are written at `olen` in order (R151). -/
theorem putBytes_out_materialize (bs : List Byte) :
    ∀ s : State, s.sinkMode = .materialize →
      (putBytes bs s).out = Memory.writeBytes s.out s.olen bs := by
  induction bs with
  | nil => exact fun _ _ => rfl
  | cons b bs ih =>
    intro s h
    rw [putBytes, ih _ (by simpa using h), Memory.writeBytes]
    simp [h]

/-- What `emitLiterals` answers. -/
theorem emitLiterals_cases (bs : List Byte) (s : State) :
    (s.room bs.length = true ∧ emitLiterals bs s = .next (putBytes bs s)) ∨
    (s.room bs.length = false ∧ emitLiterals bs s = .refused .outCapExceeded) := by
  unfold emitLiterals
  cases h : s.room bs.length <;> simp

/-- What `emitFill` answers. -/
theorem emitFill_cases (b : Byte) (c : Nat) (s : State) :
    (s.room c = true ∧ emitFill b c s = .next (fillBytes b c s)) ∨
    (s.room c = false ∧ emitFill b c s = .refused .outCapExceeded) := by
  unfold emitFill
  cases h : s.room c <;> simp

/-- What `emitBackreference` answers (R153): the error, the copy, or a refusal. -/
theorem emitBackreference_cases (o c : Nat) (s : State) :
    ((o = 0 ∨ s.olen < o) ∧
      emitBackreference o c s = .next (raise (.invalidBackreference c o s.olen) s)) ∨
    (1 ≤ o ∧ o ≤ s.olen ∧ s.room c = true ∧
      emitBackreference o c s = .next (copyBytes o c s)) ∨
    (1 ≤ o ∧ o ≤ s.olen ∧ s.room c = false ∧
      emitBackreference o c s = .refused .outCapExceeded) := by
  unfold emitBackreference
  by_cases h : o = 0 ∨ s.olen < o
  · exact .inl ⟨h, by simp [h]⟩
  · have h1 : 1 ≤ o ∧ o ≤ s.olen := by omega
    cases hr : s.room c <;> simp [h1]
    all_goals omega

/-! ### Errors -/

/-- What raising an error sets (R221). -/
theorem raise_sets (e : Error) (s : State) :
    (raise e s).err = e.errCode ∧ (raise e s).st = .error ∧
    (raise e s).freeCtr = s.freeCtr + 1 ∧
    (raise e s).fst = (if s.framed then .error else s.fst) := by
  cases e <;> cases h : s.framed <;>
    simp [raise, State.recordError, State.scrubDec, State.scrubFr, h, Error.errCode]

/-- The report registers after InvalidBackreference (R221). -/
theorem raise_report (c o p : Nat) (s : State) :
    (raise (.invalidBackreference c o p) s).errCount = c ∧
    (raise (.invalidBackreference c o p) s).errOffset = o ∧
    (raise (.invalidBackreference c o p) s).errProduced = p := by
  cases h : s.framed <;> simp [raise, State.recordError, State.scrubDec, State.scrubFr, h]

/-- Outside a framed run raising an error leaves FR alone. -/
theorem raise_unframed (e : Error) (s : State) (h : s.framed = false) :
    (raise e s).fst = s.fst ∧ (raise e s).fp = s.fp ∧ (raise e s).stotal = s.stotal ∧
    (raise e s).chunks = s.chunks ∧ (raise e s).sout = s.sout := by
  cases e <;> simp [raise, State.recordError, State.scrubDec, h]

/-- Raising an error writes nothing but what R221 and R222 name. -/
theorem raise_frame (e : Error) (s : State) :
    raise e s = { s with
      st := (raise e s).st, err := (raise e s).err, errCount := (raise e s).errCount,
      errOffset := (raise e s).errOffset, errProduced := (raise e s).errProduced,
      ip := (raise e s).ip, cw := (raise e s).cw, cb := (raise e s).cb, olen := (raise e s).olen,
      out := (raise e s).out, lastOff := (raise e s).lastOff, fst := (raise e s).fst,
      fp := (raise e s).fp, stotal := (raise e s).stotal, chunks := (raise e s).chunks,
      sout := (raise e s).sout, freeCtr := (raise e s).freeCtr } := by
  cases e <;> cases h : s.framed <;>
    simp [raise, State.recordError, State.scrubDec, State.scrubFr, State.freeReport, h]

/-- `cb` stays in its range over an error (R14). -/
theorem raise_cb_le (e : Error) (s : State) : (raise e s).cb ≤ 16 := by
  have h := (Config.freeCb s.freeCtr).isLt
  cases e <;> cases hf : s.framed <;>
    simp [raise, State.recordError, State.scrubDec, State.scrubFr, State.freeReport, hf] <;> omega

/-! ### START -/

/-- What DEC's START answers (R30, U5). -/
theorem startDec_cases (s : State) :
    (s.inputFits = true ∧ startDec s = .next s.decStarted) ∨
    (s.inputFits = false ∧ startDec s = .refused .inCapExceeded) := by
  unfold startDec
  cases h : s.inputFits <;> simp

/-! ### The cursor's primitives -/

/-- What `ByteRead()` delivers (R90). -/
theorem byteRead_eq_some {rd : Source} {c c' : Cursor} {b : Byte} :
    byteRead rd c = some (b, c') ↔ rd c.ip = some b ∧ c' = { c with ip := c.ip + 1 } := by
  unfold byteRead
  cases h : rd c.ip with
  | none => simp
  | some x => simp [eq_comm]

/-- What a refill leaves (R91): the cursor itself while bits are cached, else the next word. -/
theorem refill_cases {rd : Source} {c c' : Cursor} (h : refill rd c = some c') :
    (c.cb ≠ 0 ∧ c' = c) ∨
    (c.cb = 0 ∧ ∃ lo hi, rd c.ip = some lo ∧ rd (c.ip + 1) = some hi ∧
      c' = { ip := c.ip + 2, cw := wordOf lo hi, cb := 16 }) := by
  unfold refill at h
  split at h
  · rename_i hcb
    cases h1 : byteRead rd c with
    | none => simp [h1] at h
    | some p =>
      obtain ⟨lo, c1⟩ := p
      obtain ⟨r1, rfl⟩ := byteRead_eq_some.1 h1
      simp only [h1] at h
      cases h2 : byteRead rd { c with ip := c.ip + 1 } with
      | none => simp [h2] at h
      | some q =>
        obtain ⟨hi, c2⟩ := q
        obtain ⟨r2, rfl⟩ := byteRead_eq_some.1 h2
        simp only [h2, Option.some.injEq] at h
        exact .inr ⟨hcb, lo, hi, r1, r2, h.symm⟩
  · exact .inl ⟨‹_›, (Option.some.inj h).symm⟩

/-- What `Bit()` delivers (R91): the lowest bit of the cursor after the refill, which is shifted. -/
theorem readBit_eq_some {rd : Source} {c c' : Cursor} {b : Bool} :
    readBit rd c = some (b, c') ↔ ∃ c1, refill rd c = some c1 ∧ b = c1.cw.getLsbD 0 ∧
      c' = { c1 with cw := c1.cw >>> 1, cb := c1.cb - 1 } := by
  unfold readBit
  cases h : refill rd c with
  | none => simp
  | some c1 => simp [eq_comm]

/-- Delivering a control bit takes one bit, and two bytes for each refill (R97). -/
theorem readBit_cost {rd : Source} {c c' : Cursor} {b : Bool} (h : readBit rd c = some (b, c')) :
    (c'.ip = c.ip ∧ c'.cb + 1 = c.cb) ∨ (c.cb = 0 ∧ c'.ip = c.ip + 2 ∧ c'.cb = 15) := by
  obtain ⟨c1, h1, -, rfl⟩ := readBit_eq_some.1 h
  rcases refill_cases h1 with ⟨hn, rfl⟩ | ⟨h0, lo, hi, -, -, rfl⟩
  · exact .inl ⟨rfl, by simp; omega⟩
  · exact .inr ⟨h0, rfl, rfl⟩

/-- What `Bits(n)` delivers (R94): the value of its control bits and its raw bytes. -/
theorem readBits_eq_some {fo : FieldOrder} {rd : Source} {n v : Nat} {c c' : Cursor} :
    readBits fo rd n c = some (v, c') ↔ ∃ bits c1 bytes,
      readBitList rd (n % 8) c = some (bits, c1) ∧ readByteList rd (n / 8) c1 = some (bytes, c') ∧
      v = assembleField fo bits bytes := by
  unfold readBits
  cases h : readBitList rd (n % 8) c with
  | none => simp
  | some p =>
    obtain ⟨bits, c1⟩ := p
    cases h2 : readByteList rd (n / 8) c1 with
    | none => simp [h2]
    | some q =>
      obtain ⟨bytes, c2⟩ := q
      constructor
      · rintro h3
        simp only [h2, Option.some.injEq, Prod.mk.injEq] at h3
        exact ⟨bits, c1, bytes, rfl, by rw [h2, h3.2], h3.1.symm⟩
      · rintro ⟨b, d, y, e1, e2, rfl⟩
        simp only [Option.some.injEq, Prod.mk.injEq] at e1
        obtain ⟨rfl, rfl⟩ := e1
        rw [h2] at e2
        simp only [Option.some.injEq, Prod.mk.injEq] at e2
        obtain ⟨rfl, rfl⟩ := e2
        simp only [h2]

/-! ### Matches, host writes, reset -/

/-- A match is the delivery of its count and then the backreference with it (R113, R115). -/
theorem emitMatch_eq (o : Nat) (cc : CountCode) (s : State) :
    emitMatch o cc s = emitBackreference o (countOf cc) (s.deliverCount (countOf cc)) := rfl

/-- The five byte spaces are in their canonical form right after reset. -/
theorem reset_spaces_wf : State.reset.inp.wf ∧ State.reset.out.wf ∧ State.reset.fs.wf ∧
    State.reset.sout.wf ∧ State.reset.src.wf := by decide

/-- The host's reset keeps the parameters, the agenda, what the host read and the counter, and nothing else
(R250, log 16). -/
theorem hostReset_eq (s : State) :
    hostReset s = { State.reset with
      cfg := s.cfg, agenda := s.agenda, hostData := s.hostData, freeCtr := s.freeCtr } := rfl

/-! ### MF -/

/-- Inserting a position touches the index and the tables only. -/
theorem insert_frame (s : State) (p : Nat) :
    s.insert p = { s with
      idx := (s.insert p).idx, headT := (s.insert p).headT, tailT := (s.insert p).tailT,
      nextT := (s.insert p).nextT } := by
  unfold State.insert
  by_cases h : s.m ≤ p + 1
  · simp only [h, if_true]
  · cases hd : s.tailT.get (s.digraph p) <;> simp only [h, if_false, hd]

/-- Evicting a position touches the index, `head` and `tail` only. -/
theorem evict_frame (s : State) (q : Nat) :
    s.evict q = { s with
      idx := (s.evict q).idx, headT := (s.evict q).headT, tailT := (s.evict q).tailT } := by
  unfold State.evict
  split <;> rfl

/-- `Advance()` moves `pos` by one and touches the index and the tables only (R184). -/
theorem advance_frame (s : State) :
    s.advance = { s with
      pos := s.pos + 1, idx := s.advance.idx, headT := s.advance.headT, tailT := s.advance.tailT,
      nextT := s.advance.nextT } := by
  have key : ∃ i h t n, s.advance =
      { s with pos := s.pos + 1, idx := i, headT := h, tailT := t, nextT := n } := by
    unfold State.advance
    rw [insert_frame]
    by_cases hc : s.pos + 1 < Config.chainCap
    · simp only [hc, if_true]
      exact ⟨_, _, _, _, rfl⟩
    · simp only [hc, if_false]
      rw [evict_frame]
      exact ⟨_, _, _, _, rfl⟩
  obtain ⟨i, h, t, n, e⟩ := key
  rw [e]

end Sys2Proof.Machine
end

