-- ==== Sys2Proof/Laws/PerInstr.lean ====
section
/-! SUPPORT. The family EncodedLength: how many control bits and raw bytes the encoding of each instruction takes, the
table of 30_encoding.md R77 (for the count codes R65, for a frame R201). -/

namespace Sys2Proof.Laws

/-- The control bits and the raw bytes among some elements. -/
def countElems : List Elem → Nat × Nat
  | [] => (0, 0)
  | .bit _ :: es => ((countElems es).1 + 1, (countElems es).2)
  | .byte _ :: es => ((countElems es).1, (countElems es).2 + 1)

/-- The cost of a count code (R65). -/
def countCodeCost : CountCode → Nat × Nat
  | .two => (1, 0)
  | .three => (2, 0)
  | .four => (3, 0)
  | .five => (4, 0)
  | .six _ => (8, 0)
  | .fourteen _ => (5, 1)

/-- The cost of an instruction in control bits and raw bytes (R77). -/
def instrCost : Instr → Nat × Nat
  | .lit _ => (1, 1)
  | .smatch _ c => (2 + (countCodeCost c).1, 1 + (countCodeCost c).2)
  | .lmatch _ c => (7 + (countCodeCost c).1, 1 + (countCodeCost c).2)
  | .fill _ _ => (12, 2)
  | .fill12 _ _ => (12, 3)
  | .endMark => (7, 1)
  | .cc2 => (1, 0)
  | .cc3 => (2, 0)
  | .cc4 => (3, 0)
  | .cc5 => (4, 0)
  | .cc6 _ => (8, 0)
  | .cc14 _ => (5, 1)
  | .verb data => (0, 1 + data.length)
  | .verbx data => (0, 2 + data.length)
  | .lfill _ _ => (0, 2)
  | .lfillx _ _ => (0, 3)
  | .reuse _ => (0, 1)
  | .newoff _ _ => (0, 2)
  | .advHeader _ => (0, 2)
  | .chunk (.length _) => (0, 2)
  | .chunk (.payload p) => (0, p.length)
  | .chunk (.cont _) => (0, 1)

/-- The encoding of an instruction costs what R77's table says, in either FIELD_ORDER. -/
def EncodedLength.Statement (i : Instr) : Prop :=
  ∀ fo : FieldOrder, countElems (encode fo i) = instrCost i

theorem countElems_append (xs ys : List Elem) :
    countElems (xs ++ ys) =
      ((countElems xs).1 + (countElems ys).1, (countElems xs).2 + (countElems ys).2) := by
  induction xs with
  | nil => simp [countElems]
  | cons x xs ih => cases x <;> simp [countElems, ih] <;> omega

theorem countElems_bits (bs : List Bool) : countElems (bs.map .bit) = (bs.length, 0) := by
  induction bs with
  | nil => rfl
  | cons b bs ih => simp [countElems, ih]

theorem countElems_bytes (bs : List Byte) : countElems (bs.map .byte) = (0, bs.length) := by
  induction bs with
  | nil => rfl
  | cons b bs ih => simp [countElems, ih]

/-- `Bits(n)` costs `n mod 8` control bits and `n div 8` raw bytes (R66). -/
theorem countElems_encodeField (fo : FieldOrder) (n v : Nat) :
    countElems (encodeField fo n v) = (n % 8, n / 8) := by
  simp only [encodeField, countElems_append, countElems_bits, countElems_bytes, Nat.zero_add,
    Nat.add_zero]
  cases fo <;> simp [fieldBits, fieldBytes]

theorem countElems_countCode (fo : FieldOrder) (c : CountCode) :
    countElems (c.encode fo) = countCodeCost c := by
  cases c <;>
    simp [CountCode.encode, countElems, countElems_encodeField, countCodeCost]

theorem EncodedLength.lit (b : Byte) : EncodedLength.Statement (.lit b) := fun _ => rfl

theorem EncodedLength.smatch (o : BitVec 8) (c : CountCode) :
    EncodedLength.Statement (.smatch o c) := fun fo => by
  simp [encode, countElems, countElems_append, countElems_encodeField, countElems_countCode, instrCost]
  omega

theorem EncodedLength.lmatch (v : BitVec 13) (c : CountCode) :
    EncodedLength.Statement (.lmatch v c) := fun fo => by
  simp [encode, countElems, countElems_append, countElems_encodeField, countElems_countCode, instrCost]
  omega

theorem EncodedLength.fill (s : BitVec 4) (b : Byte) : EncodedLength.Statement (.fill s b) :=
  fun fo => by
    simp [encode, countElems, countElems_append, countElems_encodeField, instrCost]

theorem EncodedLength.fill12 (s : BitVec 12) (b : Byte) : EncodedLength.Statement (.fill12 s b) :=
  fun fo => by
    simp [encode, countElems, countElems_append, countElems_encodeField, instrCost]

theorem EncodedLength.endMark : EncodedLength.Statement .endMark := fun fo => by
  simp [encode, countElems, countElems_encodeField, instrCost]

theorem EncodedLength.cc2 : EncodedLength.Statement .cc2 := fun _ => rfl

theorem EncodedLength.cc3 : EncodedLength.Statement .cc3 := fun _ => rfl

theorem EncodedLength.cc4 : EncodedLength.Statement .cc4 := fun _ => rfl

theorem EncodedLength.cc5 : EncodedLength.Statement .cc5 := fun _ => rfl

theorem EncodedLength.cc6 (k : BitVec 3) : EncodedLength.Statement (.cc6 k) := fun fo =>
  countElems_countCode fo (.six k)

theorem EncodedLength.cc14 (m : BitVec 8) : EncodedLength.Statement (.cc14 m) := fun fo =>
  countElems_countCode fo (.fourteen m)

theorem EncodedLength.verb (data : List Byte) : EncodedLength.Statement (.verb data) := fun fo => by
  simp [encode, rawByte, countElems, countElems_bytes, instrCost]
  omega

theorem EncodedLength.verbx (data : List Byte) : EncodedLength.Statement (.verbx data) := fun fo => by
  simp [encode, rawByte, countElems, countElems_bytes, instrCost]
  omega

theorem EncodedLength.lfill (n : BitVec 4) (b : Byte) : EncodedLength.Statement (.lfill n b) :=
  fun _ => rfl

theorem EncodedLength.lfillx (n : BitVec 12) (b : Byte) : EncodedLength.Statement (.lfillx n b) :=
  fun _ => rfl

theorem EncodedLength.reuse (n : BitVec 5) : EncodedLength.Statement (.reuse n) := fun _ => rfl

theorem EncodedLength.newoff (n : BitVec 2) (o : BitVec 13) :
    EncodedLength.Statement (.newoff n o) := fun _ => rfl

theorem EncodedLength.advHeader (w0 : Byte) : EncodedLength.Statement (.advHeader w0) :=
  fun _ => rfl

theorem EncodedLength.chunk (part : ChunkPart) : EncodedLength.Statement (.chunk part) :=
  fun fo => by cases part <;> simp [encode, rawByte, countElems, countElems_bytes, instrCost]

end Sys2Proof.Laws
end

