-- ==== Sys2Proof/Tests/Slice0.lean ====
section
/-! SUPPORT. The model's own tests: WellFormed's smoke, one word per instruction written out from 30_encoding.md and
45_chunk_framing.md, one or two small runs of each instruction, single steps of the agents, and for every statement
with hypotheses a concrete state and operands that meet them. Expected values come from the rules named. -/

namespace Sys2Proof.Tests

open Sys2Proof Sys2Proof.Machine

/-! ## WellFormed: each check refuses an ill-formed term and lets its boundary pass -/

/-- R114: the selectors 0 and 1 are END and FILL. -/
theorem test_wf_lmatch : (Instr.lmatch 1 .two).wf = false ∧ (Instr.lmatch 2 .two).wf = true := by
  decide

/-- R68: VERB's length has 5 bits. -/
theorem test_wf_verb : (Instr.verb (List.replicate 32 0)).wf = false ∧
    (Instr.verb (List.replicate 31 0)).wf = true := by decide

/-- R68: VERBX's length has 13 bits. -/
theorem test_wf_verbx : (Instr.verbx (List.replicate 8192 0)).wf = false ∧
    (Instr.verbx (List.replicate 8191 0)).wf = true := by
  simp only [Instr.wf, List.length_replicate]
  decide

/-- R201: `L` has 16 bits, so a payload is at most 65533 bytes. -/
theorem test_wf_payload : (Instr.chunk (.payload (List.replicate 65534 0))).wf = false ∧
    (Instr.chunk (.payload (List.replicate 65533 0))).wf = true := by
  simp only [Instr.wf, List.length_replicate]
  decide

/-! ## Decoding: words written out from the encodings -/

/-- R63: `0 [B:b]`; R92: bit 0 of the cached word is read first. -/
theorem test_decode_lit : decodeAdv .msbFirst (listSource [0x00, 0x04, 0x61]) ⟨2, 0x04, 8⟩ =
    some (.lit 0x61, ⟨3, 0x02, 7⟩) := by decide

/-- R63: `1 0 [B:o]`, then CC6; the control word is exhausted in between. -/
theorem test_decode_smatch :
    decodeAdv .msbFirst (listSource [0x00, 0x04, 0x61, 0x62, 0x02, 0x31, 0x00]) ⟨4, 0x01, 6⟩ =
      some (.smatch 2 (.six 0), ⟨7, 0x03, 12⟩) := by decide

/-- R63: `1 1`, five bits and a byte of `v` = 301, then CC2. -/
theorem test_decode_lmatch : decodeAdv .msbFirst (listSource [0x2D]) ⟨0, 0x3C3, 11⟩ =
    some (.lmatch 301 .two, ⟨1, 0x03, 3⟩) := by decide

/-- R63: `v` = 1, selector 0, four size bits, fill byte. -/
theorem test_decode_fill :
    decodeAdv .msbFirst (listSource [0x00, 0x03, 0x01, 0x30, 0x00, 0x2A]) ⟨2, 0x03, 8⟩ =
      some (.fill 0 0x2A, ⟨6, 0x03, 12⟩) := by decide

/-- R63: `v` = 1, selector 1, four bits and a byte of the size, fill byte. -/
theorem test_decode_fill12 :
    decodeAdv .msbFirst (listSource [0x00, 0x83, 0x01, 0x30, 0x00, 0x10, 0x2A]) ⟨2, 0x83, 8⟩ =
      some (.fill12 16 0x2A, ⟨7, 0x03, 12⟩) := by decide

/-- R63: `v` = 0. -/
theorem test_decode_end : decodeAdv .msbFirst (listSource [0x00, 0x03, 0x00]) ⟨2, 0x03, 8⟩ =
    some (.endMark, ⟨3, 0, 1⟩) := by decide

/-- R65: `1`. -/
theorem test_decode_cc2 : decodeCountCode .msbFirst (listSource []) ⟨0, 0x01, 8⟩ =
    some (.cc2, ⟨0, 0, 7⟩) := by decide

/-- R65: `0 1`. -/
theorem test_decode_cc3 : decodeCountCode .msbFirst (listSource []) ⟨0, 0x02, 8⟩ =
    some (.cc3, ⟨0, 0, 6⟩) := by decide

/-- R65: `0 0 1`. -/
theorem test_decode_cc4 : decodeCountCode .msbFirst (listSource []) ⟨0, 0x04, 8⟩ =
    some (.cc4, ⟨0, 0, 5⟩) := by decide

/-- R65: `0 0 0 1`. -/
theorem test_decode_cc5 : decodeCountCode .msbFirst (listSource []) ⟨0, 0x08, 8⟩ =
    some (.cc5, ⟨0, 0, 4⟩) := by decide

/-- R65: `0 0 0 0 1` and the suffix bits 1, 1, 0: 6 with the first bit read highest, 3 with it lowest (D3). -/
theorem test_decode_cc6 :
    decodeCountCode .msbFirst (listSource []) ⟨0, 0x70, 8⟩ = some (.cc6 6, ⟨0, 0, 0⟩) ∧
    decodeCountCode .lsbFirst (listSource []) ⟨0, 0x70, 8⟩ = some (.cc6 3, ⟨0, 0, 0⟩) := by decide

/-- R65: `0 0 0 0 0 [B:m]`. -/
theorem test_decode_cc14 : decodeCountCode .msbFirst (listSource [0xAB]) ⟨0, 0, 8⟩ =
    some (.cc14 0xAB, ⟨1, 0, 3⟩) := by decide

/-- R68: `000nnnnn` and the data. -/
theorem test_decode_verb : decodeLeg (listSource [0x02, 0x61, 0x62]) ⟨0, 0, 0⟩ =
    .ok (.verb [0x61, 0x62]) ⟨3, 0, 0⟩ := by decide

/-- R68: `001nnnnn`, the low part of the length, the data. -/
theorem test_decode_verbx : decodeLeg (listSource [0x20, 0x01, 0x21]) ⟨0, 0, 0⟩ =
    .ok (.verbx [0x21]) ⟨3, 0, 0⟩ := by decide

/-- R68: `0100nnnn` and the byte. -/
theorem test_decode_lfill : decodeLeg (listSource [0x4F, 0x2A]) ⟨0, 0, 0⟩ =
    .ok (.lfill 15 0x2A) ⟨2, 0, 0⟩ := by decide

/-- R68: `0101nnnn`, the low part of the size, the byte. -/
theorem test_decode_lfillx : decodeLeg (listSource [0x51, 0x10, 0x2A]) ⟨0, 0, 0⟩ =
    .ok (.lfillx 272 0x2A) ⟨3, 0, 0⟩ := by decide

/-- R68: `011nnnnn`. -/
theorem test_decode_reuse : decodeLeg (listSource [0x65]) ⟨0, 0, 0⟩ = .ok (.reuse 5) ⟨1, 0, 0⟩ := by
  decide

/-- R68: `1nnooooo` and the low part of the offset. -/
theorem test_decode_newoff : decodeLeg (listSource [0xC1, 0x02]) ⟨0, 0, 0⟩ =
    .ok (.newoff 2 258) ⟨2, 0, 0⟩ := by decide

/-- R93: the discriminator and the high byte of the first control word. -/
theorem test_decode_header : decodeSelect (listSource [0x00, 0x83]) ⟨0, 0, 0⟩ =
    some (some (.advHeader 0x83), ⟨2, 0, 0⟩) := by decide

/-- R201: the length is little-endian; then the payload; then the continuation byte. -/
theorem test_decode_chunk :
    decodeLength (listSource [0x34, 0x12]) 0 = some (.chunk (.length 0x1234), 2) ∧
    decodePayload (listSource [0x02, 0x00, 0x65, 0x66]) 2 2 =
      some (.chunk (.payload [0x65, 0x66]), 4) ∧
    decodeCont (listSource [0x01]) 0 = some (.chunk (.cont 1), 1) := by decide

/-- Bit 0 of the table's word is bit 0 of the first byte. -/
theorem test_decodeTableWord : decodeTableWord 8 0x65 = some (.reuse 5) ∧
    decodeTableWord 16 0x10C1 = some (.newoff 2 272) := by decide

/-! ## Lines of assembly: the last operand on each side of a bound (R79, R84, R85) -/

theorem test_asm_match : asmMatch 0 2 = none ∧ asmMatch 255 2 = some (.smatch 255 .two) ∧
    asmMatch 256 269 = some (.lmatch 256 (.fourteen 255)) ∧
    asmMatch 8191 13 = some (.lmatch 8191 (.six 7)) ∧ asmMatch 8192 2 = none ∧
    asmMatch 1 1 = none ∧ asmMatch 1 270 = none := by decide

theorem test_asm_fill : asmFill 7 13 = none ∧ asmFill 7 29 = some (.fill 15 7) ∧
    asmFill 7 30 = some (.fill12 16 7) ∧ asmFill 7 4109 = some (.fill12 4095 7) ∧
    asmFill 7 4110 = none := by decide

theorem test_asm_lfill : asmLfill 7 3 = none ∧ asmLfill 7 19 = some (.lfill 15 7) ∧
    asmLfill 7 20 = some (.lfillx 16 7) ∧ asmLfill 7 4099 = some (.lfillx 4095 7) ∧
    asmLfill 7 4100 = none := by decide

theorem test_asm_verb : asmVerb [1, 2] = some (.verb [1, 2]) ∧
    asmVerb (List.replicate 31 0) = some (.verb (List.replicate 31 0)) ∧
    asmVerb (List.replicate 32 0) = some (.verbx (List.replicate 32 0)) := by decide

/-- A VERB of 8192 bytes has no line. -/
theorem test_asm_verb_long (data : List Byte) (h : data.length = 8192) : asmVerb data = none := by
  simp [asmVerb, asmVerbx, h]

/-! ## The instructions -/

/-- What a field holds in the next state. -/
def after {α : Type} (r : Result) (f : State → α) : Option α :=
  match r with
  | .next t => some (f t)
  | .fault _ => none
  | .refused _ => none

/-- The first bytes of OUT. -/
def outBytes (n : Nat) (s : State) : List Byte := Memory.readBytes s.out 0 n

/-- DEC in an ADV run with the output `61 62 63`. -/
def abc : State :=
  { State.reset with
    st := .advReadControl
    olen := 3
    out := [(0, 0x61), (1, 0x62), (2, 0x63)]
    lastOff := 3 }

theorem test_lit : after (exec (.lit 0x64) abc) (fun t => (outBytes 4 t, t.olen)) =
    some ([0x61, 0x62, 0x63, 0x64], 4) := by decide

/-- R154: offset 2, count 5 repeats with period 2. -/
theorem test_smatch_overlap : after (exec (.smatch 2 .five) abc) (fun t => (outBytes 8 t, t.olen)) =
    some ([0x61, 0x62, 0x63, 0x62, 0x63, 0x62, 0x63, 0x62], 8) := by decide

/-- R153: offset 4 with 3 bytes of output. -/
theorem test_smatch_bad : after (exec (.smatch 4 (.six 1)) abc)
    (fun t => (t.st, t.err, t.errCount, t.errOffset, t.errProduced)) =
    some (.error, .invalidBackreference, 7, 4, 3) := by decide

theorem test_lmatch : after (exec (.lmatch 3 .four) abc) (fun t => (outBytes 7 t, t.olen)) =
    some ([0x61, 0x62, 0x63, 0x61, 0x62, 0x63, 0x61], 7) := by decide

theorem test_lmatch_bad : after (exec (.lmatch 300 .two) abc)
    (fun t => (t.st, t.errCount, t.errOffset, t.errProduced)) = some (.error, 2, 300, 3) := by decide

/-- R116: 14 plus the size. -/
theorem test_fill : after (exec (.fill 1 0x2A) abc) (fun t => (outBytes 19 t, t.olen)) =
    some ([0x61, 0x62, 0x63] ++ List.replicate 15 0x2A ++ [0], 18) := by decide

theorem test_fill12 : after (exec (.fill12 2 0x2A) abc) (fun t => (outBytes 20 t, t.olen)) =
    some ([0x61, 0x62, 0x63] ++ List.replicate 16 0x2A ++ [0], 19) := by decide

/-- R118: END leaves the rest of the chunk and the cached bits alone. -/
theorem test_end : exec .endMark abc = .next { abc with st := .done } := by rfl

theorem test_cc2 : after (exec .cc2 abc) State.count = some 2 := by decide
theorem test_cc3 : after (exec .cc3 abc) State.count = some 3 := by decide
theorem test_cc4 : after (exec .cc4 abc) State.count = some 4 := by decide
theorem test_cc5 : after (exec .cc5 abc) State.count = some 5 := by decide
theorem test_cc6 : after (exec (.cc6 7) abc) State.count = some 13 := by decide
theorem test_cc14 : after (exec (.cc14 255) abc) State.count = some 269 := by decide

theorem test_verb : after (exec (.verb [0x64, 0x65]) abc) (fun t => (outBytes 5 t, t.olen)) =
    some ([0x61, 0x62, 0x63, 0x64, 0x65], 5) := by decide

theorem test_verbx : after (exec (.verbx [0x64]) abc) (fun t => (outBytes 4 t, t.olen)) =
    some ([0x61, 0x62, 0x63, 0x64], 4) := by decide

/-- R135: 4 plus the size. -/
theorem test_lfill : after (exec (.lfill 1 0x2A) abc) (fun t => (outBytes 9 t, t.olen)) =
    some ([0x61, 0x62, 0x63] ++ List.replicate 5 0x2A ++ [0], 8) := by decide

theorem test_lfillx : after (exec (.lfillx 16 0x2A) abc) (fun t => (outBytes 24 t, t.olen)) =
    some ([0x61, 0x62, 0x63] ++ List.replicate 20 0x2A ++ [0], 23) := by decide

/-- R137: the count is the field itself. -/
theorem test_reuse : after (exec (.reuse 2) abc) (fun t => (outBytes 5 t, t.olen, t.lastOff)) =
    some ([0x61, 0x62, 0x63, 0x61, 0x62], 5, 3) := by decide

/-- R137, D9: the check is made for count 0 too. -/
theorem test_reuse_zero : after (exec (.reuse 0) { abc with lastOff := 0 })
    (fun t => (t.st, t.errCount, t.errOffset, t.errProduced)) = some (.error, 0, 0, 3) := by decide

/-- R139: the offset is kept; the count is 4 plus the field. -/
theorem test_newoff : after (exec (.newoff 1 1) abc) (fun t => (outBytes 8 t, t.olen, t.lastOff)) =
    some ([0x61, 0x62, 0x63, 0x63, 0x63, 0x63, 0x63, 0x63], 8, 1) := by decide

theorem test_newoff_bad : after (exec (.newoff 0 4) abc)
    (fun t => (t.st, t.errCount, t.errOffset, t.errProduced)) = some (.error, 4, 4, 3) := by decide

/-- R93: eight control bits are left of the first word. -/
theorem test_header : after (exec (.advHeader 0x83) State.reset) (fun t => (t.cw, t.cb, t.st)) =
    some (0x83, 8, .advReadControl) := by decide

/-- R202: below 2 is UnrecognizedChunkHeader. -/
theorem test_chunk_length : after (exec (.chunk (.length 1)) abc) (fun t => (t.err, t.st)) =
    some (.unrecognizedChunkHeader, .error) ∧
    after (exec (.chunk (.length 5)) abc) (fun t => (t.plen, t.fst)) = some (3, .payload) := by decide

/-- R203: one FR step holds DEC's whole run. The payload `01 65`, VERB 65, on a stream that has given 3 bytes. -/
theorem test_chunk_payload :
    after (exec (.chunk (.payload [1, 0x65]))
      { abc with fst := .payload, stotal := 1, sout := [(0, 9)], chunks := 1 })
      (fun t => (t.olen, t.fst, Memory.readBytes t.sout 0 3, t.stotal, t.chunks)) =
        some (1, .cont, [9, 0x65, 0], 2, 2) := by decide

/-- R203: DEC's error ends the framed run. -/
theorem test_chunk_payload_bad : after (exec (.chunk (.payload [0x65])) { abc with fst := .payload })
    (fun t => (t.st, t.fst, t.err, t.errCount, t.errOffset, t.errProduced)) =
      some (.error, .error, .invalidBackreference, 5, 0, 0) := by decide

/-! ## Single steps -/

/-- The chunk `02 61 62` in IN, in a LEG run. -/
def legRun : State :=
  { State.reset with st := .legOpcode, inp := [(0, 2), (1, 0x61), (2, 0x62)], n := 3 }

theorem test_step_leg : after (step legRun) (fun t => (t.ip, outBytes 2 t, t.st)) =
    some (3, [0x61, 0x62], .legOpcode) := by decide

/-- The first seven bytes of vector A5's chunk in IN, in an ADV run after the header. -/
def advRun : State :=
  { State.reset with
    st := .advReadControl
    inp := [(1, 0x04), (2, 0x61), (3, 0x62), (4, 2), (5, 0x31)]
    n := 7
    ip := 2
    cw := 0x04
    cb := 8 }

theorem test_step_adv : after (step advRun) (fun t => (t.ip, t.cb, outBytes 1 t)) =
    some (3, 7, [0x61]) := by decide

/-- A table word runs as the first instruction after reset. -/
theorem test_withFetchWord : after (step (State.reset.withFetchWord 24 0x626102)) (outBytes 3) =
    some [0x61, 0x62, 0] := by decide

/-- R200: FR before the frame of the chunk `00 03 00`, END alone: prefix, payload and continuation are one step
each. -/
def endFrame : State :=
  { State.reset with fs := [(0, 5), (3, 3)], fn := 6, fst := .pfx }

theorem test_steps_fr :
    after (Host.Core.run Sys2Proof.core 2 endFrame) (fun t => (t.fst, t.st, t.fp, t.chunks)) =
      some (.cont, .done, 5, 1) ∧
    after (Host.Core.run Sys2Proof.core 3 endFrame) (fun t => (t.fst, t.fp)) = some (.done, 6) := by
  decide

/-- R17: an OUT made in SIZE_ONLY mode is never shown, whatever `sink_mode` says at DONE (log 21). -/
theorem test_out_not_shown : ({ abc with st := .done, outMode := .sizeOnly } : State).readReg (.outByte 0) =
    .refused .readNotAllowed := by rfl

/-- MF at the start of a run over `61 61 61`. -/
def aaa : State :=
  { State.reset with src := [(0, 0x61), (1, 0x61), (2, 0x61)], m := 3, mst := .scan }

/-- MF's next state: `61` has been emitted and its position is in the index and the tables. -/
def aaa1 : State :=
  { aaa with
    pos := 1, cmdq := [.literal 0x61], idx := [0], headT := [(0x6161, 0)], tailT := [(0x6161, 0)] }

theorem test_step_mf : step aaa = .next aaa1 := by rfl

/-- R176, R179: offset 1, and the run of 2 is below MF_FILL_MIN. -/
theorem test_step_mf_match : after (step aaa1) (fun t => (t.cmdq, t.pos)) =
    some ([.literal 0x61, .backreference 1 2], 3) := by decide

/-! ## Witnesses: for every statement with hypotheses, what meets them -/

/-- AdvDecodeInvertsEncode: LIT, LMATCH with the least selector, and END. -/
theorem witness_AdvDecodeInvertsEncode :
    ((Instr.lit 0x61).isAdvCommand = true ∧ (Instr.lit 0x61).wf = true ∧
      spells (listSource [0x00, 0x04, 0x61]) (encode .msbFirst (.lit 0x61)) ⟨2, 0x04, 8⟩ =
        some ⟨3, 0x02, 7⟩) ∧
    ((Instr.lmatch 2 .two).isAdvCommand = true ∧ (Instr.lmatch 2 .two).wf = true ∧
      spells (listSource [2]) (encode .msbFirst (.lmatch 2 .two)) ⟨0, 0x83, 11⟩ =
        some ⟨1, 0, 3⟩) ∧
    (Instr.endMark.wf = true ∧
      spells (listSource [0x03, 0x00, 0x00]) (encode .msbFirst .endMark) ⟨0, 0, 0⟩ =
        some ⟨3, 0, 9⟩) := by decide

/-- AdvDecodingIsTheEncoding and CountCodeReadIsItsSpelling rest on what the decoders read. -/
theorem witness_AdvDecodingIsTheEncoding :
    decodeAdv .lsbFirst (listSource [0x61]) ⟨0, 0, 1⟩ = some (.lit 0x61, ⟨1, 0, 0⟩) := by decide

/-- LegDecodeInvertsEncode: the shortest VERB and a NEWOFF. -/
theorem witness_LegDecodeInvertsEncode :
    ((Instr.verb []).isLegCommand = true ∧ (Instr.verb []).wf = true ∧
      ∀ k < (encodeLeg (.verb [])).length, listSource [0] (0 + k) = (encodeLeg (.verb []))[k]?) ∧
    ((Instr.newoff 3 8191).isLegCommand = true ∧ (Instr.newoff 3 8191).wf = true ∧
      ∀ k < (encodeLeg (.newoff 3 8191)).length,
        listSource [0xFF, 0xFF] (0 + k) = (encodeLeg (.newoff 3 8191))[k]?) := by decide

/-- LegDecodingIsTheEncoding. -/
theorem witness_LegDecodingIsTheEncoding :
    decodeLeg (listSource [0xFF, 0xFF]) ⟨0, 0, 0⟩ = .ok (.newoff 3 8191) ⟨2, 0, 0⟩ := by decide

/-- CountCodeIsTotalAndUnique, LegOpcodeRangesAreTotal: a stream with no byte missing; the bounds of the counts and
of the opcode ranges. -/
theorem witness_streams : (∀ a : Nat, ((fun _ => some 0 : Source) a).isSome = true) ∧
    (2 ≤ 2 ∧ 2 ≤ 269 ∧ 269 ≤ 269) ∧
    ((0x1F : Byte).toNat ≤ 0x1F ∧ 0x20 ≤ (0x20 : Byte).toNat ∧ (0x3F : Byte).toNat ≤ 0x3F ∧
      0x40 ≤ (0x40 : Byte).toNat ∧ (0x4F : Byte).toNat ≤ 0x4F ∧ 0x50 ≤ (0x50 : Byte).toNat ∧
      (0x5F : Byte).toNat ≤ 0x5F ∧ 0x60 ≤ (0x60 : Byte).toNat ∧ (0x7F : Byte).toNat ≤ 0x7F ∧
      0x80 ≤ (0x80 : Byte).toNat) := by
  refine ⟨fun _ => rfl, ?_, ?_⟩ <;> decide

/-- HeaderAndFramePartsDecode, clause by clause; the payload may be empty. -/
theorem witness_HeaderAndFramePartsDecode :
    (listSource [0, 0x83] 0 = some 0 ∧ listSource [0, 0x83] 1 = some 0x83) ∧
    (listSource [0xFF, 0xFF] 0 = some (BitVec.ofNat 8 ((0xFFFF : BitVec 16).toNat % 256)) ∧
      listSource [0xFF, 0xFF] (0 + 1) = some (BitVec.ofNat 8 ((0xFFFF : BitVec 16).toNat / 256))) ∧
    (∀ k < ([] : List Byte).length, listSource [] (0 + k) = ([] : List Byte)[k]?) ∧
    (∀ k < [(0x65 : Byte)].length, listSource [0, 0x65] (1 + k) = [(0x65 : Byte)][k]?) ∧
    listSource [0] 0 = some 0 := by decide

/-- AdvCommandCutShortIsTruncated: cut just before the last byte, and just after it. -/
theorem witness_AdvCommandCutShortIsTruncated :
    decodeAdv .msbFirst (Memory.source advRun.inp 7) ⟨2, 0x04, 8⟩ = some (.lit 0x61, ⟨3, 0x02, 7⟩) ∧
    2 < 3 ∧ 3 ≤ 3 := by decide

/-- ControlBitsComeLowestFirst: one bit, and all sixteen. -/
theorem witness_ControlBitsComeLowestFirst :
    (⟨0, 0, 0⟩ : Cursor).cb = 0 ∧ listSource [0x31, 0x80] 0 = some 0x31 ∧
    listSource [0x31, 0x80] (0 + 1) = some 0x80 ∧ 1 ≤ 1 ∧ 1 ≤ 16 ∧ 16 ≤ 16 := by decide

/-- FieldsAreBitsThenBytes: a field of bits and one raw byte. -/
theorem witness_FieldsAreBitsThenBytes :
    readBits .msbFirst (listSource [0x2D]) 13 ⟨0, 0x10, 5⟩ = some (301, ⟨1, 0, 0⟩) ∧
    readByteList (listSource [0x2D]) (13 / 8) ⟨0, 0, 0⟩ = some ([0x2D], ⟨1, 0, 0⟩) := by decide

/-- A machine with a finite OUT_CAP of 20. -/
def capped : State := { abc with cfg := { Config.standard with outCap := some 20 } }

/-- LiteralsAppendTheirBytes, FillsAppendTheirByte: with and without a capacity, up to its last byte. -/
theorem witness_appends : abc.out.wf ∧ abc.room 1 = true ∧ abc.room 8191 = true ∧
    abc.room (14 + (4095#12).toNat) = true ∧ abc.room (4 + (4095#12).toNat) = true ∧
    capped.out.wf ∧ capped.room 17 = true ∧ capped.room (14 + (3#4).toNat) = true ∧
    capped.room (4 + (13#4).toNat) = true := by decide

/-- AdvMatchesCopyTheirBytes, LegMatchesCopyTheirBytes, AcceptedBackreferenceClosedForm: the least and the greatest
offset the output reaches, with the greatest counts, and REUSE's count 0. -/
theorem witness_matches : abc.out.wf ∧ abc.sinkMode = .materialize ∧
    abc.room (countOf (.fourteen 255)) = true ∧ abc.room (0#5).toNat = true ∧
    abc.room (4 + (3#2).toNat) = true ∧
    abc.reaches (1#8).toNat ∧ abc.reaches (3#8).toNat ∧ abc.reaches (3#13).toNat ∧
    abc.reaches abc.lastOff.toNat := by
  refine ⟨by decide, rfl, rfl, rfl, rfl, ?_, ?_, ?_, ?_⟩ <;> exact ⟨by decide, by decide⟩

/-- BadOffsetsRaiseInvalidBackreference: offset 0, and one more than the output. -/
theorem witness_BadOffsetsRaiseInvalidBackreference :
    ¬ abc.reaches (0#8).toNat ∧ ¬ abc.reaches (4#8).toNat ∧ ¬ abc.reaches (4#13).toNat ∧
    ¬ ({ abc with lastOff := 0 } : State).reaches (0#13).toNat := by
  refine ⟨?_, ?_, ?_, ?_⟩ <;> exact fun h => absurd h (by unfold State.reaches; decide)

/-- OutputBeyondCapacityIsRefused: one byte too many for each operation; and a machine without OUT_CAP. -/
theorem witness_OutputBeyondCapacityIsRefused :
    capped.cfg.outCap = some 20 ∧ 20 < capped.olen + 18 ∧
    20 < ({ capped with olen := 20 } : State).olen + ([0] : List Byte).length ∧
    (1 ≤ 3 ∧ 3 ≤ capped.olen) ∧ abc.cfg.outCap = none ∧ (Instr.reuse 0).isLegCommand = true := by
  decide

/-- CountCodesDeliverTheirCount, CommandsRaiseOnlyTheirErrors, OnlyNewoffWritesLastOff: the instruction completes. -/
theorem witness_completes :
    exec (CountCode.two).toInstr abc = .next { abc with count := 2 } ∧
    after (exec (.newoff 0 1) abc) State.freeCtr = some abc.freeCtr ∧
    (0x60 ≤ (0x60 : Byte).toNat ∧ (0x7F : Byte).toNat ≤ 0x7F) := by
  refine ⟨rfl, by decide, by decide⟩

/-- StepRunsTheDecodedInstruction, clause by clause. -/
theorem witness_StepRunsTheDecodedInstruction :
    (advRun.agenda = [] ∧ advRun.st = .advReadControl ∧
      decodeAdv advRun.cfg.fieldOrder advRun.inSource advRun.cursor =
        some (.lit 0x61, ⟨3, 0x02, 7⟩)) ∧
    (legRun.agenda = [] ∧ legRun.st = .legOpcode ∧ legRun.ip < legRun.n ∧
      decodeLeg legRun.inSource legRun.cursor = .ok (.verb [0x61, 0x62]) ⟨3, 0, 0⟩) ∧
    decodeSelect (State.inSource { advRun with st := .select, ip := 0, cw := 0, cb := 0 })
      ⟨0, 0, 0⟩ = some (some (.advHeader 0x04), ⟨2, 0, 0⟩) := by decide

/-- FR before the frame `03 00 65 01`: a payload of one byte, and a frame to come. -/
def frRun : State :=
  { State.reset with fs := [(0, 3), (2, 0x65), (3, 1)], fn := 4, fst := .pfx }

/-- StepRunsTheChunkPart, clause by clause. -/
theorem witness_StepRunsTheChunkPart :
    (frRun.agenda = [] ∧ frRun.st.running = false ∧ frRun.fst = .pfx ∧
      frRun.fn - frRun.fp ≠ 0 ∧ frRun.chunks = 0 ∧
      decodeLength frRun.fsSource frRun.fp = some (.chunk (.length 3), 2)) ∧
    decodePayload (State.fsSource { frRun with fst := .payload, fp := 2, plen := 1 }) 2 1 =
      some (.chunk (.payload [0x65]), 3) ∧
    decodeCont (State.fsSource { frRun with fst := .cont, fp := 3 }) 3 =
      some (.chunk (.cont 1), 4) := by decide

/-- AgendaTurnsAreTakenInOrder: the third clause is reset itself. -/
theorem witness_AgendaTurnsAreTakenInOrder :
    ({ abc with agenda := [.agent .mf] } : State).agenda = [.agent .mf] ∧
    ({ abc with agenda := [.host .reset] } : State).agenda = [.host .reset] ∧
    State.reset.agenda = [] ∧ State.reset.st.running = false ∧ State.reset.framed = false ∧
    State.reset.mst ≠ .scan := by decide

/-- DEC in SELECT with the given chunk. -/
def selecting (chunk : List Byte) : State :=
  { State.reset with st := .select, inp := Memory.ofBytes chunk, n := chunk.length }

/-- FirstByteSelectsTheFormat: each clause at its shortest chunk. -/
theorem witness_FirstByteSelectsTheFormat :
    (∀ chunk, (selecting chunk).agenda = [] ∧ (selecting chunk).st = .select ∧
      (selecting chunk).ip = 0) ∧
    (1 ≤ (selecting [1]).n ∧ (selecting [1]).inp.read 0 ≠ 0) ∧
    (2 ≤ (selecting [0, 4]).n ∧ (selecting [0, 4]).inp.read 0 = 0) ∧
    (selecting []).n = 0 ∧ ((selecting [0]).n = 1 ∧ (selecting [0]).inp.read 0 = 0) := by
  refine ⟨fun _ => ⟨rfl, rfl, rfl⟩, ?_, ?_, ?_, ?_⟩ <;> decide

/-- EndOfInputIsTruncatedOrDone: a LIT without its byte, a VERB without its last byte, and the end of a LEG run. -/
theorem witness_EndOfInputIsTruncatedOrDone :
    decodeAdv .msbFirst (State.inSource { advRun with n := 2 }) ⟨2, 0x04, 8⟩ = none ∧
    (decodeLeg (State.inSource { legRun with n := 2 }) ⟨0, 0, 0⟩ = .truncated 1 ∧
      legRun.room 1 = true ∧ 0 < 2) ∧
    ({ legRun with ip := 3 } : State).n ≤ ({ legRun with ip := 3 } : State).ip := by decide

/-- CutShortBadMatchIsTruncated: `1 0`, the offset 5 with no output, and a count code cut short. -/
def badMatch : State :=
  { State.reset with st := .advReadControl, inp := [(0, 5)], n := 1, cw := 1, cb := 2 }

theorem witness_CutShortBadMatchIsTruncated :
    (badMatch.agenda = [] ∧ badMatch.st = .advReadControl) ∧
    readBit badMatch.inSource badMatch.cursor = some (true, ⟨0, 0, 1⟩) ∧
    readBit badMatch.inSource ⟨0, 0, 1⟩ = some (false, ⟨0, 0, 0⟩) ∧
    readBits badMatch.cfg.fieldOrder badMatch.inSource 8 ⟨0, 0, 0⟩ = some (5, ⟨1, 0, 0⟩) ∧
    ¬ (1 ≤ 5 ∧ 5 ≤ badMatch.olen) ∧
    readCountCode badMatch.cfg.fieldOrder badMatch.inSource ⟨1, 0, 0⟩ = none := by decide

/-- LengthFieldOfAFrame: the least length and the one below it; nothing left after a chunk, nothing at all, and one
byte. -/
theorem witness_LengthFieldOfAFrame :
    (2 ≤ (2#16).toNat ∧ (1#16).toNat < 2) ∧
    (frRun.agenda = [] ∧ frRun.st.running = false ∧ frRun.fst = .pfx) ∧
    (({ frRun with fp := 4, chunks := 1 } : State).fn ≤ 4 ∧ 0 < 1) ∧
    (({ frRun with fn := 0 } : State).fn ≤ frRun.fp ∧ frRun.chunks = 0) ∧
    ({ frRun with fn := 1 } : State).fn = frRun.fp + 1 := by decide

/-- PayloadIsOneWholeDecRun: IN_CAP unbounded, reached exactly, and passed. -/
theorem witness_PayloadIsOneWholeDecRun :
    (∀ cap, State.reset.cfg.inCap = some cap → [(0x65 : Byte)].length ≤ cap) ∧
    State.reset.cfg.outCap = none ∧
    (({ State.reset with cfg := { Config.standard with inCap := some 1 } } : State).cfg.inCap =
      some 1 ∧ [(0x65 : Byte)].length ≤ 1 ∧ 1 < [(0x65 : Byte), 0x66].length) :=
  ⟨fun cap h => by simp [State.reset, Config.standard] at h, rfl, by decide⟩

/-- PayloadOutputIsCollected: a run that ends in DONE, in either mode. -/
theorem witness_PayloadOutputIsCollected : abc.sout.wf ∧
    after (exec (.chunk (.payload [1, 0x65])) abc) State.st = some .done ∧
    after (exec (.chunk (.payload [1, 0x65])) { abc with sinkMode := .sizeOnly }) State.st =
      some .done := by decide

/-- ContinuationByteOfAFrame: no byte left, and a payload one byte short. -/
theorem witness_ContinuationByteOfAFrame :
    (let s := { frRun with fst := .cont, fp := 4 }
     s.agenda = [] ∧ s.st.running = false ∧ s.fst = .cont ∧ s.fn ≤ s.fp) ∧
    (let s := { frRun with fst := .payload, fp := 2, plen := 3 }
     s.agenda = [] ∧ s.st.running = false ∧ s.fst = .payload ∧ s.fp ≤ s.fn ∧
       s.fn < s.fp + s.plen) := by decide

/-- CommonRunIsTheLargest, RunLengthIsTheLargest, FindIsTheNewestLongest. -/
theorem witness_searches :
    (0 < 1 ∧ 1 + 2 ≤ aaa1.m ∧ aaa1.digraph 0 = aaa1.digraph 1 ∧
      aaa1.commonRun 0 1 1 < 2 ∧ aaa1.commonRun 0 1 2 = 2) ∧
    (∀ a < aaa1.m, Memory.read aaa1.src a = aaa1.src.read a) ∧
    (2 < aaa1.m ∧ 1 ≤ aaa1.mfFillMax) ∧
    (aaa1.idx.Pairwise (· < ·) ∧ ∀ q ∈ aaa1.idx, q < 1) := by decide

/-- Following a list from NIL visits nothing. -/
theorem follow_none (s : State) (fuel : Nat) : s.follow fuel none = [] := by
  cases fuel <;> rfl

/-- FinderInv, TablesAgree: MF after its first step, with one position in the index. -/
theorem witness_FinderInv : FinderInv aaa1 ∧ aaa1.mst = .scan ∧ aaa1.pos < aaa1.m := by
  refine ⟨fun _ => ⟨by decide, by decide, ⟨by decide, fun d => ?_⟩, ?_, by decide, by decide,
    by decide⟩, rfl, by decide⟩
  · have hi : aaa1.idx = [0] := rfl
    have hd : aaa1.digraph 0 = 0x6161 := by decide
    have hh : aaa1.headT = [(0x6161, 0)] := rfl
    have ht : aaa1.tailT = [(0x6161, 0)] := rfl
    have hn : aaa1.nextT = [] := rfl
    by_cases h : 0x6161 = d
    · simp [hi, hh, ht, hn, hd, h, Table.get, State.follow, follow_none]
    · simp [hi, hh, ht, hd, h, Table.get, follow_none]
  · exact ⟨by decide, by decide, by decide⟩

/-- EmittedCommandsAreEncodable: R5's parameters, and a Select on each side of each threshold. -/
theorem witness_EmittedCommandsAreEncodable :
    (aaa1.mfMatchMin = 2 ∧ aaa1.mfMatchMax = 269 ∧ aaa1.mfFillMin = 14 ∧ aaa1.mfFillMax = 4109) ∧
    (aaa1.mfFillMin ≤ 14 ∧ 14 ≤ 14) ∧ (¬ (aaa1.mfFillMin ≤ 14 ∧ 15 ≤ 14) ∧ aaa1.mfMatchMin ≤ 15) ∧
    (¬ (aaa1.mfFillMin ≤ 13 ∧ 1 ≤ 13) ∧ 1 < aaa1.mfMatchMin) := by decide

/-- FinderStepCoversItsCommand, FinderRunReplaysToItsSource: a run to come, a run under way, and one at its end. -/
theorem witness_runs_of_mf :
    (aaa.agenda = [] ∧ aaa.st.running = false ∧ aaa.framed = false ∧ aaa.mst = .scan ∧
      aaa.pos = 0 ∧ aaa.idx = [] ∧ aaa.headT = [] ∧ aaa.tailT = [] ∧ aaa.nextT = [] ∧
      aaa.cmdq = []) ∧
    aaa1.pos < aaa1.m ∧ aaa1.m ≤ ({ aaa1 with pos := 3 } : State).pos ∧
    EmptySink State.reset := by
  refine ⟨by decide, by decide, by decide, rfl, rfl, rfl, rfl⟩

/-- A state whose next turn is the host's. -/
def hosted (s : State) (a : HostAction) : State := { s with agenda := [.host a] }

/-- StartGivesTheInitialState, clause by clause; IN_CAP reached exactly. -/
theorem witness_StartGivesTheInitialState :
    ((hosted State.reset .startDec).agenda = .host .startDec :: [] ∧
      (hosted State.reset .startDec).decBusy = false) ∧
    (∀ cap, State.reset.cfg.inCap = some cap → State.reset.n ≤ cap) ∧
    (({ State.reset with n := 1, cfg := { Config.standard with inCap := some 1 } } : State).n ≤ 1) ∧
    ((hosted State.reset .startFr).agenda = .host .startFr :: [] ∧
      (hosted State.reset .startFr).decBusy = false) ∧
    ((hosted State.reset .startMf).agenda = .host .startMf :: [] ∧
      (hosted State.reset .startMf).mst ≠ .scan) :=
  ⟨by decide, fun cap h => by simp [State.reset, Config.standard] at h, by decide, by decide,
    by decide⟩

/-- ForbiddenHostActionsAreRefused: DEC busy alone, FR busy, MF busy, and an input one byte too long. -/
theorem witness_ForbiddenHostActionsAreRefused :
    (hosted legRun .startDec).decBusy = true ∧ (hosted frRun .startFr).decBusy = true ∧
    (hosted aaa .startMf).mst = .scan ∧ (hosted legRun (.writeN 0)).decBusy = true ∧
    (hosted frRun (.writeFn 0)).framed = true ∧
    (let s := { State.reset with n := 2, cfg := { Config.standard with inCap := some 1 } }
     s.decBusy = false ∧ s.cfg.inCap = some 1 ∧ 1 < s.n) := by decide

/-- HostWritesLandWhereTheyName: no agent in a run, and each kind of turn. -/
theorem witness_HostWritesLandWhereTheyName : SpacesCanonical abc ∧ SpacesCanonical aaa1 ∧
    State.reset.decBusy = false ∧ State.reset.framed = false ∧ State.reset.mst ≠ .scan ∧
    ∀ a, (hosted State.reset a).agenda = .host a :: [] ∧
      (hosted State.reset a).decBusy = false ∧ (hosted State.reset a).framed = false ∧
      (hosted State.reset a).mst ≠ .scan := by
  refine ⟨⟨?_, ?_, ?_, ?_, ?_⟩, ⟨?_, ?_, ?_, ?_, ?_⟩, ?_, ?_, ?_, fun a => ⟨rfl, rfl, rfl, ?_⟩⟩
  case refine_14 =>
    show MfState.idle ≠ .scan
    decide
  all_goals decide

/-- HostReadsOnlyWhatIsAllowed: a run under way, a run that is DONE, one that failed, an output of each mode, framed
runs and MF runs that are over, and a read that is answered; the output has a byte and an end. -/
theorem witness_HostReadsOnlyWhatIsAllowed :
    (abc.st ≠ .done ∧ abc.st ≠ .error ∧ abc.fst ≠ .done ∧ abc.mst ≠ .done) ∧
    (let s := { abc with st := .done, fst := .done, mst := .done, stotal := 1 }
     s.st = .done ∧ s.fst = .done ∧ s.mst = .done ∧ s.outMode = .materialize ∧
       s.soutMode = .materialize ∧ s.sinkMode = .materialize ∧ 2 < s.olen ∧ s.olen ≤ 3 ∧
       0 < s.stotal ∧ s.stotal ≤ 1) ∧
    ({ abc with st := .error } : State).st = .error ∧ (legRun.n ≤ 3 ∧ 2 < legRun.n) ∧
    ¬ (({ abc with st := .done, outMode := .sizeOnly } : State).outMode = .materialize) ∧
    step (hosted { abc with st := .done } (.read .olen)) =
      .next { abc with st := .done, hostData := some (.nat 3) } := by
  refine ⟨by decide, by decide, by decide, by decide, by decide, rfl⟩

/-- ResetIdlesEveryAgent. -/
theorem witness_ResetIdlesEveryAgent : (hosted aaa1 .reset).agenda = .host .reset :: [] := rfl

/-- StepKeepsCursorInvariant, StepKeepsOutputInvariant, StepKeepsFrameInvariant, StepKeepsSpacesCanonical: states in
a run that meet each, with a step that answers a next state. -/
theorem witness_invariants :
    (CursorInv advRun ∧ CursorInv legRun ∧ CursorInv (selecting [0, 4])) ∧
    OutputInv capped ∧ FrameInv frRun ∧ SpacesCanonical advRun ∧
    after (step advRun) State.ip = some 3 ∧ after (step frRun) State.fst = some .payload := by
  refine ⟨⟨⟨?_, ?_, ?_, ?_, ?_⟩, ⟨?_, ?_, ?_, ?_, ?_⟩, ⟨?_, ?_, ?_, ?_, ?_⟩⟩,
    ⟨?_, fun _ cap h => ?_, ?_, ?_⟩, ⟨?_, ?_, ?_, ?_⟩, ⟨?_, ?_, ?_, ?_, ?_⟩, ?_, ?_⟩
  case refine_17 =>
    have : cap = 20 := by
      have e : capped.cfg.outCap = some 20 := rfl
      rw [e] at h
      exact (Option.some.inj h).symm
    subst this
    decide
  all_goals decide

/-- AgentsKeepToTheirOwnState, OutputIsAppendOnly: a DEC step that is no error. -/
theorem witness_OutputIsAppendOnly :
    advRun.st.running = true ∧ advRun.sinkMode = .materialize ∧ advRun.out.wf ∧
    after (agentStep .dec advRun) State.st = some .advReadControl ∧
    advRun.framed = false ∧ after (agentStep .fr frRun) State.fst = some .payload ∧
    after (agentStep .mf aaa) State.mst = some .scan := by decide

/-- SizeOnlyRunsAgree, EveryDecRunEnds: a run at its start, on a machine without OUT_CAP. -/
theorem witness_EveryDecRunEnds :
    (selecting [0, 4]).agenda = [] ∧ (selecting [0, 4]).st = .select ∧
    (selecting [0, 4]).framed = false ∧ (selecting [0, 4]).cfg.outCap = none := by decide

/-- EveryFramedRunEnds. -/
theorem witness_EveryFramedRunEnds :
    frRun.agenda = [] ∧ frRun.fst = .pfx ∧ frRun.st.running = false ∧ frRun.fp ≤ frRun.fn ∧
    frRun.cfg.inCap = none ∧ frRun.cfg.outCap = none := by decide

/-- The program LIT 61, LIT 62, SMATCH 2, 6 of vector A5. -/
def advProgram : List Instr := [.lit 0x61, .lit 0x62, .smatch 2 (.six 0)]

/-- AssembledAdvProgramRuns: the program and END assemble to A5's chunk, and the program runs without error. -/
theorem witness_AssembledAdvProgramRuns :
    assembleAdv .msbFirst (advProgram ++ [.endMark]) =
      [0x00, 0x04, 0x61, 0x62, 0x02, 0x31, 0x00, 0x00] ∧
    (∀ i ∈ advProgram, i.isAdvCommand = true ∧ i.wf = true) ∧
    (let s := selecting (assembleAdv .msbFirst (advProgram ++ [.endMark]))
     s.agenda = [] ∧ s.st = .select ∧ s.ip = 0 ∧ s.cfg.fieldOrder = .msbFirst ∧
       after (execAll advProgram s) (fun u => (u.st, outBytes 8 u)) =
         some (.select, [0x61, 0x62, 0x61, 0x62, 0x61, 0x62, 0x61, 0x62])) := by decide

/-- A LEG program: VERB 61 62, then NEWOFF with offset 2 and count 4. -/
def legProgram : List Instr := [.verb [0x61, 0x62], .newoff 0 2]

/-- AssembledLegProgramRuns. -/
theorem witness_AssembledLegProgramRuns :
    assembleLeg legProgram = [0x02, 0x61, 0x62, 0x80, 0x02] ∧
    (∀ i ∈ legProgram, i.isLegCommand = true ∧ i.wf = true) ∧
    (let s := selecting (assembleLeg legProgram)
     s.agenda = [] ∧ s.st = .select ∧ s.ip = 0 ∧
       after (execAll legProgram s) (fun u => (u.st, outBytes 6 u)) =
         some (.select, [0x61, 0x62, 0x61, 0x62, 0x61, 0x62])) := by decide

end Sys2Proof.Tests
end

/-! ## What a move of each agent can be

One inversion per agent: `DecMove`, `FrMove`, `HostMove` list all that a step of DEC, a step of FR and an action of the
host can do, and `step_preserves` turns a case analysis of the three into an invariant of `step`. -/

namespace Sys2Proof.Machine

/-! ### Reads of the cursor -/

/-- One raw byte is read (R90). -/
def ReadsByte (rd : Source) (c c' : Cursor) : Prop := ∃ b, byteRead rd c = some (b, c')

/-- One control bit or one raw byte is read (R60). -/
def ReadsElem (rd : Source) (c c' : Cursor) : Prop :=
  ReadsByte rd c c' ∨ ∃ b, readBit rd c = some (b, c')

/-- Some elements are read, one after the other. -/
def Reads (rd : Source) : Cursor → Cursor → Prop := Relation.ReflTransGen (ReadsElem rd)

/-- Some raw bytes are read, one after the other: all that a LEG command reads (R68). -/
def ReadsBytes (rd : Source) : Cursor → Cursor → Prop := Relation.ReflTransGen (ReadsByte rd)

theorem reads_of_byteRead {rd : Source} {c c' : Cursor} {b : Byte}
    (h : byteRead rd c = some (b, c')) : Reads rd c c' := Relation.ReflTransGen.single (.inl ⟨b, h⟩)

theorem reads_of_readBit {rd : Source} {c c' : Cursor} {b : Bool}
    (h : readBit rd c = some (b, c')) : Reads rd c c' := Relation.ReflTransGen.single (.inr ⟨b, h⟩)

theorem reads_trans {rd : Source} {a b c : Cursor} (h : Reads rd a b) (k : Reads rd b c) :
    Reads rd a c := Relation.ReflTransGen.trans h k

@[simp] theorem reads_refl {rd : Source} (c : Cursor) : Reads rd c c := Relation.ReflTransGen.refl

theorem readBitList_reads {rd : Source} (n : Nat) :
    ∀ {c c' : Cursor} {bs : List Bool}, readBitList rd n c = some (bs, c') → Reads rd c c' := by
  induction n with
  | zero => grind [readBitList, reads_refl]
  | succ n ih => grind [readBitList, → reads_of_readBit, → reads_trans]

theorem readByteList_reads {rd : Source} (n : Nat) :
    ∀ {c c' : Cursor} {bs : List Byte}, readByteList rd n c = some (bs, c') → Reads rd c c' := by
  induction n with
  | zero => grind [readByteList, reads_refl]
  | succ n ih => grind [readByteList, → reads_of_byteRead, → reads_trans]

theorem readBits_reads {fo : FieldOrder} {rd : Source} {n v : Nat} {c c' : Cursor}
    (h : readBits fo rd n c = some (v, c')) : Reads rd c c' := by
  obtain ⟨bits, c1, bytes, hbits, hbytes, -⟩ := readBits_eq_some.1 h
  exact reads_trans (readBitList_reads _ hbits) (readByteList_reads _ hbytes)

theorem readLongCount_reads {fo : FieldOrder} {rd : Source} {cc : CountCode} {c c' : Cursor}
    (h : readLongCount fo rd c = some (cc, c')) : Reads rd c c' := by
  grind [readLongCount, → reads_of_readBit, → readBits_reads, → reads_trans]

theorem readCountCode_reads {fo : FieldOrder} {rd : Source} {cc : CountCode} {c c' : Cursor}
    (h : readCountCode fo rd c = some (cc, c')) : Reads rd c c' := by
  unfold readCountCode at h
  repeat' split at h
  all_goals grind [→ reads_of_readBit, → readLongCount_reads, → reads_trans]

theorem decodeFill_reads {fo : FieldOrder} {rd : Source} {i : Instr} {c c' : Cursor}
    (h : decodeFill fo rd c = some (i, c')) : i.isAdvCommand = true ∧ Reads rd c c' := by
  grind [decodeFill, → reads_of_readBit, → reads_of_byteRead, → readBits_reads, → reads_trans,
    Instr.isAdvCommand]

theorem decodeExtended_reads {fo : FieldOrder} {rd : Source} {i : Instr} {c c' : Cursor}
    (h : decodeExtended fo rd c = some (i, c')) :
    (i.isAdvCommand = true ∨ i = .endMark) ∧ Reads rd c c' := by
  grind [decodeExtended, → readCountCode_reads, → decodeFill_reads, → readBits_reads, → reads_trans,
    Instr.isAdvCommand]

theorem decodeSmatch_reads {fo : FieldOrder} {rd : Source} {i : Instr} {c c' : Cursor}
    (h : decodeSmatch fo rd c = some (i, c')) : i.isAdvCommand = true ∧ Reads rd c c' := by
  grind [decodeSmatch, → readBits_reads, → readCountCode_reads, → reads_trans, Instr.isAdvCommand]

theorem decodeLit_reads {rd : Source} {i : Instr} {c c' : Cursor}
    (h : decodeLit rd c = some (i, c')) : i.isAdvCommand = true ∧ Reads rd c c' := by
  grind [decodeLit, → reads_of_byteRead, Instr.isAdvCommand]

/-- An ADV fetch reads at least one control bit and gives an ADV command or END (R111). -/
theorem decodeAdv_reads {fo : FieldOrder} {rd : Source} {i : Instr} {c c' : Cursor}
    (h : decodeAdv fo rd c = some (i, c')) :
    (i.isAdvCommand = true ∨ i = .endMark) ∧
      ∃ b c1, readBit rd c = some (b, c1) ∧ Reads rd c1 c' := by
  unfold decodeAdv at h
  split at h
  · cases h
  next c1 h1 => exact ⟨.inl (decodeLit_reads h).1, _, c1, h1, (decodeLit_reads h).2⟩
  next c1 h1 =>
    split at h
    · cases h
    next c2 h2 =>
      exact ⟨.inl (decodeSmatch_reads h).1, _, c1, h1,
        reads_trans (reads_of_readBit h2) (decodeSmatch_reads h).2⟩
    next c2 h2 =>
      exact ⟨(decodeExtended_reads h).1, _, c1, h1,
        reads_trans (reads_of_readBit h2) (decodeExtended_reads h).2⟩

/-! ### What the LEG decoder reads -/

theorem readsBytes_of_byteRead {rd : Source} {c c' : Cursor} {b : Byte}
    (h : byteRead rd c = some (b, c')) : ReadsBytes rd c c' := Relation.ReflTransGen.single ⟨b, h⟩

@[simp] theorem readsBytes_refl {rd : Source} (c : Cursor) : ReadsBytes rd c c :=
  Relation.ReflTransGen.refl

theorem readsBytes_trans {rd : Source} {a b c : Cursor} (h : ReadsBytes rd a b)
    (k : ReadsBytes rd b c) : ReadsBytes rd a c := Relation.ReflTransGen.trans h k

/-- Bytes that are all there can be read one by one (R133). -/
theorem readsBytes_of_available {rd : Source} (n : Nat) : ∀ c : Cursor,
    (availableBytes rd n c.ip).length = n → ReadsBytes rd c { c with ip := c.ip + n } := by
  induction n with
  | zero => exact fun c _ => readsBytes_refl c
  | succ n ih =>
    intro c h
    unfold availableBytes at h
    split at h
    · cases h
    next b hb =>
      have hfirst : ReadsBytes rd c { c with ip := c.ip + 1 } :=
        readsBytes_of_byteRead (byteRead_eq_some.2 ⟨hb, rfl⟩)
      have hrest := ih { c with ip := c.ip + 1 } (by simpa using h)
      rw [show c.ip + (n + 1) = c.ip + 1 + n by omega]
      exact readsBytes_trans hfirst hrest

theorem decodeData_reads {form : List Byte → Instr} {rd : Source} {n : Nat} {i : Instr}
    {c c' : Cursor} (h : decodeData form rd n c = .ok i c') :
    (∃ data, i = form data) ∧ ReadsBytes rd c c' := by
  unfold decodeData at h
  dsimp only at h
  split at h
  next hlen =>
    cases h
    exact ⟨⟨_, rfl⟩, readsBytes_of_available n c hlen⟩
  · cases h

theorem decodeVerb_reads {rd : Source} {op : Byte} {i : Instr} {c c' : Cursor}
    (h : decodeVerb rd op c = .ok i c') : i.isLegCommand = true ∧ ReadsBytes rd c c' := by
  grind [decodeVerb, → readsBytes_of_byteRead, → decodeData_reads, → readsBytes_trans,
    Instr.isLegCommand]

theorem decodeLfill_reads {rd : Source} {op : Byte} {i : Instr} {c c' : Cursor}
    (h : decodeLfill rd op c = .ok i c') : i.isLegCommand = true ∧ ReadsBytes rd c c' := by
  grind [decodeLfill, → readsBytes_of_byteRead, → readsBytes_trans, Instr.isLegCommand]

theorem decodeNewoff_reads {rd : Source} {op : Byte} {i : Instr} {c c' : Cursor}
    (h : decodeNewoff rd op c = .ok i c') : i.isLegCommand = true ∧ ReadsBytes rd c c' := by
  grind [decodeNewoff, → readsBytes_of_byteRead, Instr.isLegCommand]

/-- A LEG fetch reads its opcode and then raw bytes only, and gives a LEG command (R130). -/
theorem decodeLeg_reads {rd : Source} {i : Instr} {c c' : Cursor}
    (h : decodeLeg rd c = .ok i c') :
    i.isLegCommand = true ∧ ∃ b c1, byteRead rd c = some (b, c1) ∧ ReadsBytes rd c1 c' := by
  unfold decodeLeg at h
  split at h
  · cases h
  next op c1 h1 =>
    have key : i.isLegCommand = true ∧ ReadsBytes rd c1 c' := by
      unfold decodeOpcode at h
      split_ifs at h
      · exact decodeVerb_reads h
      · exact decodeLfill_reads h
      · cases h
        exact ⟨rfl, readsBytes_refl _⟩
      · exact decodeNewoff_reads h
    exact ⟨key.1, op, c1, h1, key.2⟩

/-! ### What reads do to a cursor -/

/-- A byte a space gives stands below its length. -/
theorem lt_of_source {m : Memory} {len a : Nat} {b : Byte} (h : m.source len a = some b) :
    a < len := by
  by_contra hlt
  simp [Memory.source, hlt] at h

/-- A control bit is read inside the space: `ip` moves past a word there, or not at all. -/
theorem readBit_source {m : Memory} {len : Nat} {c c' : Cursor} {b : Bool}
    (h : readBit (m.source len) c = some (b, c')) :
    (c'.ip = c.ip ∧ c'.cb + 1 = c.cb ∧ c'.cw >>> c'.cb = c.cw >>> c.cb) ∨
    (c.cb = 0 ∧ c'.ip = c.ip + 2 ∧ c'.ip ≤ len ∧ c'.cb = 15 ∧ c'.cw >>> c'.cb = 0) := by
  obtain ⟨c1, hrefill, -, rfl⟩ := readBit_eq_some.1 h
  rcases refill_cases hrefill with ⟨hn, rfl⟩ | ⟨h0, lo, hi, -, hhi, rfl⟩
  · refine .inl ⟨rfl, Nat.sub_add_cancel (by omega), ?_⟩
    rw [← BitVec.shiftRight_add, Nat.add_sub_cancel' (by omega)]
  · refine .inr ⟨h0, rfl, lt_of_source hhi, rfl, ?_⟩
    rw [← BitVec.shiftRight_add]
    exact BitVec.ushiftRight_eq_zero (by simp)

/-- A raw byte is read inside the space, and the cached bits stay (R90, R263). -/
theorem readsByte_source {m : Memory} {len : Nat} {c c' : Cursor}
    (h : ReadsByte (m.source len) c c') :
    c'.ip = c.ip + 1 ∧ c'.ip ≤ len ∧ c'.cb = c.cb ∧ c'.cw = c.cw := by
  obtain ⟨b, hb⟩ := h
  obtain ⟨hrd, rfl⟩ := byteRead_eq_some.1 hb
  exact ⟨rfl, lt_of_source hrd, rfl, rfl⟩

/-- What is left to read of `len` bytes, in control bits: a byte counts as 8 (R97). -/
def readBudget (len : Nat) (c : Cursor) : Nat := 8 * (len - c.ip) + c.cb

/-- R13, R14, R96 for a cursor in an ADV run: inside the space, no bit set at or above `cb`. -/
def CursorSound (len : Nat) (c : Cursor) : Prop := c.ip ≤ len ∧ c.cb ≤ 16 ∧ c.cw >>> c.cb = 0

theorem readBit_budget {m : Memory} {len : Nat} {c c' : Cursor} {b : Bool}
    (h : readBit (m.source len) c = some (b, c')) : readBudget len c' < readBudget len c := by
  unfold readBudget
  rcases readBit_source h with ⟨hip, hcb, -⟩ | ⟨h0, hip, hle, hcb, -⟩ <;> omega

theorem readBit_sound {m : Memory} {len : Nat} {c c' : Cursor} {b : Bool}
    (h : readBit (m.source len) c = some (b, c')) (hc : CursorSound len c) : CursorSound len c' := by
  obtain ⟨hip, hcb, hcw⟩ := hc
  rcases readBit_source h with ⟨hip', hcb', hcw'⟩ | ⟨h0, -, hle, hcb', hcw'⟩
  · exact ⟨by omega, by omega, hcw'.trans hcw⟩
  · exact ⟨hle, by omega, hcw'⟩

theorem readsElem_budget {m : Memory} {len : Nat} {c c' : Cursor}
    (h : ReadsElem (m.source len) c c') : readBudget len c' ≤ readBudget len c := by
  rcases h with hbyte | ⟨b, hbit⟩
  · obtain ⟨hip, -, hcb, -⟩ := readsByte_source hbyte
    unfold readBudget
    omega
  · exact (readBit_budget hbit).le

theorem readsElem_sound {m : Memory} {len : Nat} {c c' : Cursor}
    (h : ReadsElem (m.source len) c c') (hc : CursorSound len c) : CursorSound len c' := by
  rcases h with hbyte | ⟨b, hbit⟩
  · obtain ⟨-, hle, hcb, hcw⟩ := readsByte_source hbyte
    exact ⟨hle, hcb ▸ hc.2.1, by rw [hcb, hcw]; exact hc.2.2⟩
  · exact readBit_sound hbit hc

theorem reads_budget {m : Memory} {len : Nat} {c c' : Cursor} (h : Reads (m.source len) c c') :
    readBudget len c' ≤ readBudget len c := by
  induction h with
  | refl => exact le_rfl
  | tail _ hlast ih => exact (readsElem_budget hlast).trans ih

theorem reads_sound {m : Memory} {len : Nat} {c c' : Cursor} (h : Reads (m.source len) c c')
    (hc : CursorSound len c) : CursorSound len c' := by
  induction h with
  | refl => exact hc
  | tail _ hlast ih => exact readsElem_sound hlast ih

/-- Raw bytes move `ip` forward inside the space and leave the cached bits. -/
theorem readsBytes_source {m : Memory} {len : Nat} {c c' : Cursor}
    (h : ReadsBytes (m.source len) c c') (hc : c.ip ≤ len) :
    c.ip ≤ c'.ip ∧ c'.ip ≤ len ∧ c'.cb = c.cb := by
  induction h with
  | refl => exact ⟨le_rfl, hc, rfl⟩
  | tail _ hlast ih =>
    obtain ⟨hfrom, -, hcb⟩ := ih
    obtain ⟨hip, hle, hcb', -⟩ := readsByte_source hlast
    exact ⟨by omega, hle, hcb'.trans hcb⟩

/-- A LEG fetch moves `ip` forward inside the space and leaves the cached bits. -/
theorem decodeLeg_source {m : Memory} {len : Nat} {i : Instr} {c c' : Cursor}
    (h : decodeLeg (m.source len) c = .ok i c') :
    c.ip < c'.ip ∧ c'.ip ≤ len ∧ c'.cb = c.cb := by
  obtain ⟨-, b, c1, hop, hrest⟩ := decodeLeg_reads h
  obtain ⟨hip, hle, hcb, -⟩ := readsByte_source ⟨b, hop⟩
  obtain ⟨hfrom, hle', hcb'⟩ := readsBytes_source hrest hle
  exact ⟨by omega, hle', hcb'.trans hcb⟩

/-- The SELECT step's reads (R110): an ADV chunk has two bytes, and its header leaves `ip` at 2; a LEG chunk has one,
and `ip` is back at 0. -/
theorem decodeSelect_source {m : Memory} {len : Nat} {o : Option Instr} {c c' : Cursor}
    (h : decodeSelect (m.source len) c = some (o, c')) :
    (∃ w0, o = some (.advHeader w0) ∧ c' = { c with ip := 2 } ∧ 2 ≤ len) ∨
    (o = none ∧ c' = { c with ip := 0 }) := by
  unfold decodeSelect at h
  split at h
  · cases h
  next d c1 h1 =>
    obtain ⟨-, rfl⟩ := byteRead_eq_some.1 h1
    dsimp only at h
    split_ifs at h
    · split at h
      · cases h
      next lo c2 h2 =>
        obtain ⟨-, rfl⟩ := byteRead_eq_some.1 h2
        split at h
        · cases h
        next hi c3 h3 =>
          obtain ⟨hhi, rfl⟩ := byteRead_eq_some.1 h3
          cases h
          exact .inl ⟨hi, rfl, rfl, lt_of_source hhi⟩
    · cases h
      exact .inr ⟨rfl, rfl⟩

end Sys2Proof.Machine

namespace Sys2Proof.Machine

/-! ### What a command of DEC can do -/

/-- A sink operation that answers has appended bytes there was room for, or raised an error. -/
inductive Emitted (s : State) : State → Prop
  | appended (bs : List Byte) (hroom : s.room bs.length = true) : Emitted s (putBytes bs s)
  | raised (e : Error) : Emitted s (raise e s)

/-- A copy appends as many bytes as it is asked for. -/
theorem copyBytes_eq_putBytes (o c : Nat) :
    ∀ s : State, ∃ bs, bs.length = c ∧ copyBytes o c s = putBytes bs s := by
  induction c with
  | zero => exact fun s => ⟨[], rfl, rfl⟩
  | succ c ih =>
    intro s
    obtain ⟨bs, hlen, hcopy⟩ := ih (s.putByte (s.out.read (s.olen - o)))
    exact ⟨s.out.read (s.olen - o) :: bs, by simp [hlen], hcopy⟩

theorem emitLiterals_emitted {bs : List Byte} {s t : State} (h : emitLiterals bs s = .next t) :
    Emitted s t := by
  rcases emitLiterals_cases bs s with ⟨hroom, he⟩ | ⟨-, he⟩ <;> rw [he] at h <;> cases h
  exact .appended bs hroom

theorem emitFill_emitted {b : Byte} {c : Nat} {s t : State} (h : emitFill b c s = .next t) :
    Emitted s t := by
  rcases emitFill_cases b c s with ⟨hroom, he⟩ | ⟨-, he⟩ <;> rw [he] at h <;> cases h
  rw [fillBytes_eq_putBytes]
  exact .appended _ (by rwa [List.length_replicate])

theorem emitBackreference_emitted {o c : Nat} {s t : State}
    (h : emitBackreference o c s = .next t) : Emitted s t := by
  rcases emitBackreference_cases o c s with ⟨-, he⟩ | ⟨-, -, hroom, he⟩ | ⟨-, -, -, he⟩ <;>
    rw [he] at h <;> cases h
  · exact .raised _
  · obtain ⟨bs, rfl, hcopy⟩ := copyBytes_eq_putBytes o c s
    rw [hcopy]
    exact .appended bs hroom

/-- An ADV or LEG command sets at most `count` (log 5) and, if it is NEWOFF, `last_off`, and then makes one sink
operation. -/
theorem exec_command {i : Instr} {s t : State}
    (hi : i.isAdvCommand = true ∨ i.isLegCommand = true) (h : exec i s = .next t) :
    ∃ k o, (o = s.lastOff ∨ ∃ n, i = .newoff n o) ∧
      Emitted { s with count := k, lastOff := o } t := by
  have same : Emitted s t → ∃ k o, (o = s.lastOff ∨ ∃ n, i = .newoff n o) ∧
      Emitted { s with count := k, lastOff := o } t := fun he => ⟨s.count, s.lastOff, .inl rfl, he⟩
  cases i with
  | lit b => exact same (emitLiterals_emitted h)
  | smatch o c => exact ⟨countOf c, s.lastOff, .inl rfl, emitBackreference_emitted h⟩
  | lmatch v c => exact ⟨countOf c, s.lastOff, .inl rfl, emitBackreference_emitted h⟩
  | fill sz b => exact same (emitFill_emitted h)
  | fill12 sz b => exact same (emitFill_emitted h)
  | verb data => exact same (emitLiterals_emitted h)
  | verbx data => exact same (emitLiterals_emitted h)
  | lfill n b => exact same (emitFill_emitted h)
  | lfillx n b => exact same (emitFill_emitted h)
  | reuse n => exact same (emitBackreference_emitted h)
  | newoff n o => exact ⟨s.count, o, .inr ⟨n, rfl⟩, emitBackreference_emitted h⟩
  | _ => simp [Instr.isAdvCommand, Instr.isLegCommand] at hi

/-! ### DEC's moves -/

/-- The cursor `c` is where DEC stands after it fetched a command. -/
def State.fetches (s : State) (c : Cursor) : Prop :=
  (s.st = .advReadControl ∧ ∃ i, decodeAdv s.cfg.fieldOrder s.inSource s.cursor = some (i, c)) ∨
  (s.st = .legOpcode ∧ ∃ i, decodeLeg s.inSource s.cursor = .ok i c)

/-- The state a command of DEC makes its sink operation on: the cursor past the command, the count code delivered,
NEWOFF's offset kept. -/
def State.prepared (s : State) (c : Cursor) (k : Nat) (o : BitVec 13) : State :=
  { s.setCursor c with count := k, lastOff := o }

/-- All that a step of DEC can do (R110, R111, R130, R221, R223). -/
inductive DecMove (s : State) : State → Prop
  | waits (hst : s.st.running = false) : DecMove s s
  | raised (hst : s.st.running = true) (c : Cursor) (k : Nat) (o : BitVec 13) (e : Error) :
    DecMove s (raise e (s.prepared c k o))
  | header (hst : s.st = .select) (hn : 2 ≤ s.n) (w0 : Byte) :
    DecMove s { s with ip := 2, cw := w0.setWidth 16, cb := 8, st := .advReadControl }
  | legSelected (hst : s.st = .select) : DecMove s { s with ip := 0, st := .legOpcode }
  | appended (c : Cursor) (hc : s.fetches c) (k : Nat) (o : BitVec 13) (bs : List Byte)
    (hroom : s.room bs.length = true) : DecMove s (putBytes bs (s.prepared c k o))
  | ended (hst : s.st = .advReadControl) (c : Cursor) (hc : s.fetches c) :
    DecMove s { s.setCursor c with st := .done }
  | exhausted (hst : s.st = .legOpcode) : DecMove s { s with st := .done }

/-- Raising an error on the spot is a move of a running DEC. -/
theorem DecMove.raisedHere {s : State} (hst : s.st.running = true) (e : Error) :
    DecMove s (raise e s) := .raised hst s.cursor s.count s.lastOff e

/-- Only a running DEC fetches a command. -/
theorem running_of_fetches {s : State} {c : Cursor} (h : s.fetches c) : s.st.running = true := by
  rcases h with ⟨hst, -⟩ | ⟨hst, -⟩ <;> rw [hst] <;> rfl

/-- Executing a fetched command is a move of DEC. -/
theorem decMove_of_command {s t : State} {c : Cursor} {i : Instr} (hc : s.fetches c)
    (hi : i.isAdvCommand = true ∨ i.isLegCommand = true)
    (h : exec i (s.setCursor c) = .next t) : DecMove s t := by
  obtain ⟨k, o, -, he⟩ := exec_command hi h
  have hst : s.st.running = true := running_of_fetches hc
  cases he with
  | appended bs hroom => exact .appended c hc k o bs hroom
  | raised e => exact .raised hst c k o e

theorem decSelect_move {s t : State} (hst : s.st = .select) (h : decSelect exec s = .next t) :
    DecMove s t := by
  unfold decSelect at h
  split at h
  · cases h
    exact .raisedHere (by rw [hst]; rfl) _
  next i c hd =>
    rcases decodeSelect_source hd with ⟨w0, hi, rfl, hn⟩ | ⟨hi, -⟩ <;> cases hi
    cases h
    exact .header hst hn w0
  next c hd =>
    rcases decodeSelect_source hd with ⟨w0, hi, -⟩ | ⟨-, rfl⟩
    · cases hi
    · cases h
      exact .legSelected hst

theorem decAdv_move {s t : State} (hst : s.st = .advReadControl) (h : decAdv exec s = .next t) :
    DecMove s t := by
  unfold decAdv at h
  split at h
  · cases h
    exact .raisedHere (by rw [hst]; rfl) _
  next i c hd =>
    have hc : s.fetches c := .inl ⟨hst, i, hd⟩
    rcases (decodeAdv_reads hd).1 with hi | rfl
    · exact decMove_of_command hc (.inl hi) h
    · cases h
      exact .ended hst c hc

theorem decLeg_move {s t : State} (hst : s.st = .legOpcode) (h : decLeg exec s = .next t) :
    DecMove s t := by
  unfold decLeg at h
  split_ifs at h
  · cases h
    exact .exhausted hst
  · split at h
    next i c hd => exact decMove_of_command (.inr ⟨hst, i, hd⟩) (.inr (decodeLeg_reads hd).1) h
    · split_ifs at h
      cases h
      exact .raisedHere (by rw [hst]; rfl) _

/-- A step of DEC is one of its moves. -/
theorem decStep_move {s t : State} (h : decStep exec s = .next t) : DecMove s t := by
  cases hst : s.st with
  | select => exact decSelect_move hst (by simpa [decStep, hst] using h)
  | advReadControl => exact decAdv_move hst (by simpa [decStep, hst] using h)
  | legOpcode => exact decLeg_move hst (by simpa [decStep, hst] using h)
  | idle | done | error =>
    have hrun : s.st.running = false := by rw [hst]; rfl
    rw [decStep_of_not_running exec s hrun] at h
    cases h
    exact .waits hrun

/-- What every step of DEC keeps, DEC's run inside FrPayload keeps. -/
theorem decSteps_preserves {P : State → Prop} (hstep : ∀ s t, P s → DecMove s t → P t) (k : Nat) :
    ∀ {s t : State}, P s → decSteps k s = .next t → P t := by
  induction k with
  | zero =>
    intro s t hs h
    cases h
    exact hs
  | succ k ih =>
    intro s t hs h
    unfold decSteps at h
    split at h
    next u hu => exact ih (hstep s u hs (decStep_move hu)) h
    · cases h
    · cases h

/-! ### FR's moves -/

/-- All that a step of FR can do (R200 to R205). -/
inductive FrMove (s : State) : State → Prop
  | waits (hfr : s.framed = false) : FrMove s s
  | raised (hfr : s.framed = true) (fp : Nat) (e : Error) : FrMove s (raise e { s with fp := fp })
  | lengthRead (hfst : s.fst = .pfx) (hfp : s.fp + 2 ≤ s.fn) (l : Nat) (hl : l ≤ 65533) :
    FrMove s { s with fp := s.fp + 2, plen := l, fst := .payload }
  | payloadRun (hfst : s.fst = .payload) (p : List Byte) (hfp : s.fp ≤ s.fn → s.fp + s.plen ≤ s.fn)
    (u : State)
    (hrun : decSteps (decRunBound p.length)
      (frLoad p { s with fp := s.fp + s.plen }).decStarted = .next u) :
    FrMove s (frEndPayload u)
  | contRead (hfst : s.fst = .cont) (hfp : s.fp + 1 ≤ s.fn) (f : FrState)
    (hf : f = .done ∨ f = .pfx) : FrMove s { s with fp := s.fp + 1, fst := f }

/-- Bytes of a space that are all there stand below its length. -/
theorem availableBytes_source {m : Memory} {len : Nat} (n : Nat) : ∀ a : Nat, a ≤ len →
    (availableBytes (m.source len) n a).length = n → a + n ≤ len := by
  induction n with
  | zero => exact fun a ha _ => ha
  | succ n ih =>
    intro a _ h
    unfold availableBytes at h
    split at h
    · cases h
    next b hb =>
      have hlt : a < len := lt_of_source hb
      have := ih (a + 1) hlt (by simpa using h)
      omega

theorem frPrefix_move {s t : State} (hfst : s.fst = .pfx) (h : frPrefix s = .next t) :
    FrMove s t := by
  have hfr : s.framed = true := by unfold State.framed; rw [hfst]; rfl
  unfold frPrefix decodeLength at h
  split_ifs at h
  · cases h
    exact .raised hfr s.fp _
  · split at h
    · cases h
      exact .raised hfr s.fp _
    next i fp hd =>
      split at hd
      · cases hd
      next lo _ =>
        split at hd
        · cases hd
        next hi hhi =>
          cases hd
          have hfp : s.fp + 1 < s.fn := lt_of_source hhi
          have hl := (wordOf lo hi).isLt
          change frLength (wordOf lo hi) { s with fp := s.fp + 2 } = .next t at h
          unfold frLength at h
          split_ifs at h <;> cases h
          · exact .raised hfr (s.fp + 2) _
          · exact .lengthRead hfst hfp _ (by omega)

theorem frPayloadStep_move {s t : State} (hfst : s.fst = .payload)
    (h : frPayloadStep s = .next t) : FrMove s t := by
  have hfr : s.framed = true := by unfold State.framed; rw [hfst]; rfl
  unfold frPayloadStep decodePayload at h
  dsimp only at h
  split at h
  · cases h
    exact .raised hfr s.fp _
  next i fp hd =>
    split_ifs at hd with hlen
    cases hd
    obtain ⟨u, -, hrun, rfl⟩ := frPayload_next h
    exact .payloadRun hfst _ (fun hle => availableBytes_source s.plen s.fp hle hlen) u hrun

theorem frContStep_move {s t : State} (hfst : s.fst = .cont) (h : frContStep s = .next t) :
    FrMove s t := by
  have hfr : s.framed = true := by unfold State.framed; rw [hfst]; rfl
  unfold frContStep decodeCont at h
  split at h
  · cases h
    exact .raised hfr s.fp _
  next i fp hd =>
    split at hd
    · cases hd
    next k hk =>
      cases hd
      have hfp : s.fp < s.fn := lt_of_source hk
      change frCont k { s with fp := s.fp + 1 } = .next t at h
      unfold frCont at h
      split_ifs at h <;> cases h
      · exact .contRead hfst hfp _ (.inl rfl)
      · exact .contRead hfst hfp _ (.inr rfl)

/-- A step of FR is one of its moves. -/
theorem frStep_move {s t : State} (h : frStep s = .next t) : FrMove s t := by
  cases hfst : s.fst with
  | pfx => exact frPrefix_move hfst (by simpa [frStep, hfst] using h)
  | payload => exact frPayloadStep_move hfst (by simpa [frStep, hfst] using h)
  | cont => exact frContStep_move hfst (by simpa [frStep, hfst] using h)
  | idle | done | error =>
    simp only [frStep, hfst, Host.Outcome.next.injEq] at h
    subst h
    exact .waits (by unfold State.framed; rw [hfst]; rfl)

/-! ### The host's moves -/

/-- All that an action of the host can do when it is answered (R227, R250, R251, R262). -/
inductive HostMove (s : State) : State → Prop
  | reset : HostMove s (hostReset s)
  | startedDec (hbusy : s.decBusy = false) : HostMove s s.decStarted
  | startedFr (hbusy : s.decBusy = false) : HostMove s (startFr s)
  | startedMf (hmf : s.mst.running = false) : HostMove s (startMf s)
  | wroteDec (hbusy : s.decBusy = false) (inp : Memory) (n : Nat) (mode : SinkMode) :
    HostMove s { s with inp := inp, n := n, sinkMode := mode }
  | wroteFr (hfr : s.framed = false) (fs : Memory) (fn : Nat) :
    HostMove s { s with fs := fs, fn := fn }
  | wroteMf (hmf : s.mst.running = false) (src : Memory) (m lo hi fillLo fillHi : Nat) :
    HostMove s { s with
      src := src, m := m, mfMatchMin := lo, mfMatchMax := hi, mfFillMin := fillLo,
      mfFillMax := fillHi }
  | wasRead (d : Datum) : HostMove s { s with hostData := some d }

/-- A guarded write that is answered was made while the agent was not running. -/
theorem writeUnless_next {busy : Bool} {s t : State} (h : writeUnless busy s = .next t) :
    busy = false ∧ t = s := by
  rcases writeUnless_cases busy s with ⟨hbusy, he⟩ | ⟨-, he⟩ <;> rw [he] at h <;> cases h
  exact ⟨hbusy, rfl⟩

theorem setMfParam_eq (s : State) (p : MfParam) (v : Nat) : ∃ lo hi fillLo fillHi,
    s.setMfParam p v = { s with
      mfMatchMin := lo, mfMatchMax := hi, mfFillMin := fillLo, mfFillMax := fillHi } := by
  cases p <;> exact ⟨_, _, _, _, rfl⟩

theorem hostStartDec_move {s t : State} (h : hostStartDec s = .next t) : HostMove s t := by
  rcases hostStartDec_cases s with ⟨hbusy, he⟩ | ⟨-, he⟩ <;> rw [he] at h
  · rcases startDec_cases s with ⟨-, he'⟩ | ⟨-, he'⟩ <;> rw [he'] at h <;> cases h
    exact .startedDec hbusy
  · cases h

theorem hostStartFr_move {s t : State} (h : hostStartFr s = .next t) : HostMove s t := by
  rcases hostStartFr_cases s with ⟨hbusy, he⟩ | ⟨-, he⟩ <;> rw [he] at h <;> cases h
  exact .startedFr hbusy

theorem hostStartMf_move {s t : State} (h : hostStartMf s = .next t) : HostMove s t := by
  rcases hostStartMf_cases s with ⟨hmf, he⟩ | ⟨-, he⟩ <;> rw [he] at h <;> cases h
  exact .startedMf hmf

/-- An action of the host is one of its moves. -/
theorem hostAct_move {a : HostAction} {s t : State} (h : hostAct a s = .next t) :
    HostMove s t := by
  cases a with
  | reset => cases h; exact .reset
  | startDec => exact hostStartDec_move h
  | startFr => exact hostStartFr_move h
  | startMf => exact hostStartMf_move h
  | writeIn | writeN | writeSinkMode =>
    obtain ⟨hbusy, rfl⟩ := writeUnless_next h
    exact .wroteDec hbusy _ _ _
  | writeFs | writeFn =>
    obtain ⟨hfr, rfl⟩ := writeUnless_next h
    exact .wroteFr hfr _ _
  | writeSrc | writeM =>
    obtain ⟨hmf, rfl⟩ := writeUnless_next h
    exact .wroteMf hmf _ _ _ _ _ _
  | writeMfParam p v =>
    obtain ⟨hmf, rfl⟩ := writeUnless_next h
    obtain ⟨lo, hi, fillLo, fillHi, he⟩ := setMfParam_eq s p v
    rw [he]
    exact .wroteMf hmf s.src s.m lo hi fillLo fillHi
  | read r =>
    obtain ⟨d, rfl⟩ := hostRead_frame h
    exact .wasRead d

/-! ### The machine's step -/

/-- A property holds after every step that it survives: a turn taken off the agenda, an action of the host, and a step
of each agent. -/
theorem step_preserves {P : State → Prop}
    (hagenda : ∀ s rest, P s → P { s with agenda := rest })
    (hhost : ∀ s t, P s → HostMove s t → P t) (hdec : ∀ s t, P s → DecMove s t → P t)
    (hfr : ∀ s t, P s → FrMove s t → P t) (hmf : ∀ s t, P s → mfStep s = .next t → P t)
    {s t : State} (hs : P s) (h : step s = .next t) : P t := by
  have hagent : ∀ g s, P s → agentStep g s = .next t → P t := by
    intro g s hs h
    cases g with
    | dec => exact hdec s t hs (decStep_move h)
    | fr => exact hfr s t hs (frStep_move h)
    | mf => exact hmf s t hs h
  change moveOf s = .next t at h
  unfold moveOf at h
  split at h
  · exact hagent _ s hs h
  next a rest _ => exact hhost _ t (hagenda s rest hs) (hostAct_move h)
  next g rest _ => exact hagent g _ (hagenda s rest hs) h

end Sys2Proof.Machine

namespace Sys2Proof.Machine

/-! ### What a move leaves alone -/

/-- `t` differs from `s` in what DEC may write only: its own run and, through an error, FR's (R33, R221, R222). -/
def DecFrame (s t : State) : Prop :=
  t = { s with
    st := t.st, ip := t.ip, cw := t.cw, cb := t.cb, olen := t.olen, out := t.out,
    lastOff := t.lastOff, err := t.err, errCount := t.errCount, errOffset := t.errOffset,
    errProduced := t.errProduced, count := t.count, fp := t.fp, fst := t.fst, sout := t.sout,
    stotal := t.stotal, chunks := t.chunks, freeCtr := t.freeCtr }

/-- `t` differs from `s` in what FR may write only: FR's run, IN and `N`, and all of DEC's run (R203). -/
def FrFrame (s t : State) : Prop :=
  t = { s with
    inp := t.inp, n := t.n,
    st := t.st, ip := t.ip, cw := t.cw, cb := t.cb, olen := t.olen, out := t.out,
    lastOff := t.lastOff, err := t.err, errCount := t.errCount, errOffset := t.errOffset,
    errProduced := t.errProduced, count := t.count, outMode := t.outMode, fp := t.fp,
    fst := t.fst, sout := t.sout, stotal := t.stotal, chunks := t.chunks, plen := t.plen,
    freeCtr := t.freeCtr }

/-- FR's own registers and SOUT are as before. -/
def FrKept (s t : State) : Prop :=
  t.fp = s.fp ∧ t.fst = s.fst ∧ t.sout = s.sout ∧ t.stotal = s.stotal ∧ t.chunks = s.chunks

theorem DecFrame.refl (s : State) : DecFrame s s := rfl

theorem DecFrame.trans {s u t : State} (h : DecFrame s u) (k : DecFrame u t) : DecFrame s t := by
  unfold DecFrame at *
  rw [k, h]

theorem FrFrame.trans {s u t : State} (h : FrFrame s u) (k : FrFrame u t) : FrFrame s t := by
  unfold FrFrame at *
  rw [k, h]

theorem FrFrame.ofDecFrame {s t : State} (h : DecFrame s t) : FrFrame s t := by
  unfold DecFrame at h
  unfold FrFrame
  rw [h]

/-- FR's configuration, the payload length and both modes are none of DEC's. -/
theorem DecFrame.framing {s t : State} (h : DecFrame s t) :
    t.fn = s.fn ∧ t.plen = s.plen ∧ t.soutMode = s.soutMode ∧ t.sinkMode = s.sinkMode := by
  unfold DecFrame at h
  refine ⟨?_, ?_, ?_, ?_⟩ <;> rw [h]

theorem raise_decFrame (e : Error) (s : State) : DecFrame s (raise e s) := by
  unfold DecFrame
  rw [raise_frame]

theorem putBytes_decFrame (bs : List Byte) (s : State) : DecFrame s (putBytes bs s) := by
  unfold DecFrame
  rw [putBytes_frame]

theorem prepared_decFrame (s : State) (c : Cursor) (k : Nat) (o : BitVec 13) :
    DecFrame s (s.prepared c k o) := rfl

/-- A step of DEC writes what DEC may write. -/
theorem DecMove.frame {s t : State} (h : DecMove s t) : DecFrame s t := by
  cases h with
  | waits => exact .refl s
  | raised _ c k o e => exact (prepared_decFrame s c k o).trans (raise_decFrame e _)
  | header | legSelected | ended | exhausted => exact rfl
  | appended c _ k o bs => exact (prepared_decFrame s c k o).trans (putBytes_decFrame bs _)

@[simp] theorem putBytes_st (bs : List Byte) (s : State) : (putBytes bs s).st = s.st := by
  rw [putBytes_frame]

@[simp] theorem putBytes_cursor (bs : List Byte) (s : State) :
    (putBytes bs s).cursor = s.cursor := by
  rw [putBytes_frame]
  rfl

@[simp] theorem putBytes_n (bs : List Byte) (s : State) : (putBytes bs s).n = s.n := by
  rw [putBytes_frame]

@[simp] theorem putBytes_olen (bs : List Byte) (s : State) :
    (putBytes bs s).olen = s.olen + bs.length := by
  rw [putBytes_frame]

@[simp] theorem putBytes_lastOff (bs : List Byte) (s : State) :
    (putBytes bs s).lastOff = s.lastOff := by
  rw [putBytes_frame]

@[simp] theorem putBytes_freeCtr (bs : List Byte) (s : State) :
    (putBytes bs s).freeCtr = s.freeCtr := by
  rw [putBytes_frame]

theorem putBytes_frKept (bs : List Byte) (s : State) : FrKept s (putBytes bs s) := by
  rw [putBytes_frame]
  exact ⟨rfl, rfl, rfl, rfl, rfl⟩

@[simp] theorem raise_st (e : Error) (s : State) : (raise e s).st = .error := (raise_sets e s).2.1

@[simp] theorem raise_freeCtr (e : Error) (s : State) : (raise e s).freeCtr = s.freeCtr + 1 :=
  (raise_sets e s).2.2.1

/-- A step of DEC writes nothing of FR but by an error in a framed run (R221). -/
theorem DecMove.frKept {s t : State} (h : DecMove s t)
    (hsafe : s.framed = false ∨ s.st = .error ∨ t.st ≠ .error) : FrKept s t := by
  cases h with
  | waits | header | legSelected | ended | exhausted => exact ⟨rfl, rfl, rfl, rfl, rfl⟩
  | raised hst c k o e =>
    rcases hsafe with hfr | herr | hne
    · obtain ⟨hfst, hfp, hstotal, hchunks, hsout⟩ := raise_unframed e (s.prepared c k o) hfr
      exact ⟨hfp, hfst, hsout, hstotal, hchunks⟩
    · rw [herr] at hst
      cases hst
    · exact absurd (raise_st e _) hne
  | appended c _ k o bs => exact putBytes_frKept bs (s.prepared c k o)

/-- A DEC in no run stays as it is (R223). -/
theorem DecMove.eq_of_not_running {s t : State} (h : DecMove s t) (hs : s.st.running = false) :
    t = s := by
  cases h with
  | waits => rfl
  | raised hst => exact absurd (hst.symm.trans hs) nofun
  | header hst | legSelected hst | ended hst | exhausted hst => rw [hst] at hs; cases hs
  | appended c hc => exact absurd ((running_of_fetches hc).symm.trans hs) nofun

/-- A DEC run leaves all but DEC's and FR's registers alone, and FR's too if it raises no error. -/
theorem decSteps_frame {k : Nat} {s t : State} (h : decSteps k s = .next t) :
    DecFrame s t ∧ (t.st ≠ .error → FrKept s t) := by
  refine decSteps_preserves (P := fun u => DecFrame s u ∧ (u.st ≠ .error → FrKept s u)) ?_ k
    ⟨.refl s, fun _ => ⟨rfl, rfl, rfl, rfl, rfl⟩⟩ h
  rintro u v ⟨hframe, hkept⟩ hmove
  refine ⟨hframe.trans hmove.frame, fun hv => ?_⟩
  obtain ⟨hfp, hfst, hsout, hstotal, hchunks⟩ :=
    hkept fun hu => hv (by rw [hmove.eq_of_not_running (by rw [hu]; rfl), hu])
  obtain ⟨hfp', hfst', hsout', hstotal', hchunks'⟩ := hmove.frKept (.inr (.inr hv))
  exact ⟨hfp'.trans hfp, hfst'.trans hfst, hsout'.trans hsout, hstotal'.trans hstotal,
    hchunks'.trans hchunks⟩

/-- The end of FrPayload writes SOUT, the totals and `fst` only (R203). -/
theorem frEndPayload_eq (u : State) : ∃ sout stotal chunks fst,
    frEndPayload u = { u with sout := sout, stotal := stotal, chunks := chunks, fst := fst } := by
  unfold frEndPayload
  split <;> exact ⟨_, _, _, _, rfl⟩

/-- A step of FR writes what FR may write. -/
theorem FrMove.frame {s t : State} (h : FrMove s t) : FrFrame s t := by
  cases h with
  | waits | lengthRead | contRead => exact rfl
  | raised _ fp e =>
    have hfp : FrFrame s { s with fp := fp } := rfl
    exact hfp.trans (.ofDecFrame (raise_decFrame e _))
  | payloadRun _ p _ u hrun =>
    have hstart : FrFrame s (frLoad p { s with fp := s.fp + s.plen }).decStarted := rfl
    have hu : FrFrame s u := hstart.trans (.ofDecFrame (decSteps_frame hrun).1)
    obtain ⟨sout, stotal, chunks, fst, he⟩ := frEndPayload_eq u
    rw [he]
    have hend : FrFrame u { u with sout := sout, stotal := stotal, chunks := chunks, fst := fst } :=
      rfl
    exact hu.trans hend

/-- `Advance()` any number of times touches MF's position, index and tables only (R184). -/
theorem advanceN_frame (k : Nat) : ∀ s : State, ∃ pos idx headT tailT nextT,
    s.advanceN k = { s with
      pos := pos, idx := idx, headT := headT, tailT := tailT, nextT := nextT } := by
  induction k with
  | zero => exact fun s => ⟨_, _, _, _, _, rfl⟩
  | succ k ih =>
    intro s
    obtain ⟨pos, idx, headT, tailT, nextT, he⟩ := ih s.advance
    rw [State.advanceN, he, advance_frame]
    exact ⟨_, _, _, _, _, rfl⟩

/-- All that a step of MF can do (R185). -/
theorem mfStep_cases {s t : State} (h : mfStep s = .next t) :
    (s.mst ≠ .scan ∧ t = s) ∨ (s.m ≤ s.pos ∧ t = { s with mst := .done }) ∨
    (s.mst = .scan ∧ s.pos < s.m ∧
      t = { s with cmdq := s.cmdq ++ [s.chosen] }.advanceN (commandLength s.chosen)) := by
  unfold mfStep at h
  split at h
  next hmst =>
    split_ifs at h with hm
    · cases h
      exact .inr (.inl ⟨hm, rfl⟩)
    · cases h
      exact .inr (.inr ⟨hmst, by omega, rfl⟩)
  all_goals
    rename_i hmst
    cases h
    exact .inl ⟨by rw [hmst]; decide, rfl⟩

/-- A step of MF writes MF's own state only (R270). -/
theorem mfStep_frame {s t : State} (h : mfStep s = .next t) : ∃ pos idx headT tailT nextT cmdq mst,
    t = { s with
      pos := pos, idx := idx, headT := headT, tailT := tailT, nextT := nextT, cmdq := cmdq,
      mst := mst } := by
  rcases mfStep_cases h with ⟨-, rfl⟩ | ⟨-, rfl⟩ | ⟨-, -, rfl⟩
  · exact ⟨_, _, _, _, _, _, _, rfl⟩
  · exact ⟨_, _, _, _, _, _, _, rfl⟩
  · obtain ⟨pos, idx, headT, tailT, nextT, he⟩ :=
      advanceN_frame (commandLength s.chosen) { s with cmdq := s.cmdq ++ [s.chosen] }
    rw [he]
    exact ⟨_, _, _, _, _, _, _, rfl⟩

/-- Settles O52: the three frames, one per agent. -/
theorem agentsKeepToTheirOwnState : Obligations.AgentsKeepToTheirOwnState := by
  intro s t
  refine ⟨fun h => (decStep_move h).frame, fun h => (decStep_move h).frKept,
    fun h => (frStep_move h).frame, fun h => ?_⟩
  obtain ⟨pos, idx, headT, tailT, nextT, cmdq, mst, rfl⟩ := mfStep_frame h
  rfl

end Sys2Proof.Machine

namespace Sys2Proof.Machine

/-! ### The cursor's invariant (R13, R14, R96) -/

/-- Out of a run only the range of `cb` is asked for. -/
theorem cursorInv_of_not_running {t : State} (hcb : t.cb ≤ 16) (hst : t.st.running = false) :
    CursorInv t := by
  refine ⟨hcb, ?_, ?_, ?_, ?_⟩ <;> intro h <;> rw [h] at hst <;> cases hst

/-- DEC and the framed run being idle, DEC is in no run. -/
theorem not_running_of_not_busy {s : State} (h : s.decBusy = false) : s.st.running = false :=
  (Bool.or_eq_false_iff.1 h).1

theorem not_framed_of_not_busy {s : State} (h : s.decBusy = false) : s.framed = false :=
  (Bool.or_eq_false_iff.1 h).2

theorem cursorInv_decStarted (s : State) : CursorInv s.decStarted :=
  ⟨Nat.zero_le _, fun _ => Nat.zero_le _, fun _ => ⟨rfl, rfl⟩, nofun, nofun⟩

theorem DecMove.cursorInv {s t : State} (hs : CursorInv s) (h : DecMove s t) : CursorInv t := by
  obtain ⟨hcb, hip, hsel, hadv, hleg⟩ := hs
  cases h with
  | waits => exact ⟨hcb, hip, hsel, hadv, hleg⟩
  | raised _ c k o e => exact cursorInv_of_not_running (raise_cb_le e _) (by rw [raise_st]; rfl)
  | header _ hn w0 =>
    refine ⟨by show 8 ≤ 16; omega, fun _ => hn, nofun, fun _ => ?_, nofun⟩
    show w0.setWidth 16 >>> 8 = 0
    bv_omega
  | legSelected hst =>
    exact ⟨hcb, fun _ => Nat.zero_le _, nofun, nofun, fun _ => (hsel hst).2⟩
  | exhausted => exact cursorInv_of_not_running hcb rfl
  | ended hst c hc =>
    rcases hc with ⟨-, i, hd⟩ | ⟨hst', -⟩
    · obtain ⟨-, b, c1, hbit, hrest⟩ := decodeAdv_reads hd
      have hsound : CursorSound s.n c :=
        reads_sound hrest (readBit_sound hbit ⟨hip (by rw [hst]; rfl), hcb, hadv hst⟩)
      exact cursorInv_of_not_running hsound.2.1 rfl
    · rw [hst] at hst'
      cases hst'
  | appended c hc k o bs =>
    rw [putBytes_frame]
    rcases hc with ⟨hst, i, hd⟩ | ⟨hst, i, hd⟩
    · obtain ⟨-, b, c1, hbit, hrest⟩ := decodeAdv_reads hd
      obtain ⟨hip', hcb', hcw'⟩ : CursorSound s.n c :=
        reads_sound hrest (readBit_sound hbit ⟨hip (by rw [hst]; rfl), hcb, hadv hst⟩)
      exact ⟨hcb', fun _ => hip', fun h => absurd (hst.symm.trans h) nofun, fun _ => hcw',
        fun h => absurd (hst.symm.trans h) nofun⟩
    · obtain ⟨-, hip', hcb'⟩ := decodeLeg_source hd
      have hzero : c.cb = 0 := hcb'.trans (hleg hst)
      exact ⟨by show c.cb ≤ 16; omega, fun _ => hip', fun h => absurd (hst.symm.trans h) nofun,
        fun h => absurd (hst.symm.trans h) nofun, fun _ => hzero⟩

theorem FrMove.cursorInv {s t : State} (hs : CursorInv s) (h : FrMove s t) : CursorInv t := by
  cases h with
  | waits | lengthRead | contRead => exact hs
  | raised _ fp e => exact cursorInv_of_not_running (raise_cb_le e _) (by rw [raise_st]; rfl)
  | payloadRun _ p _ u hrun =>
    have hu : CursorInv u :=
      decSteps_preserves (fun _ _ => DecMove.cursorInv) _ (cursorInv_decStarted _) hrun
    obtain ⟨sout, stotal, chunks, fst, he⟩ := frEndPayload_eq u
    rw [he]
    exact hu

theorem HostMove.cursorInv {s t : State} (hs : CursorInv s) (h : HostMove s t) : CursorInv t := by
  cases h with
  | reset => exact cursorInv_of_not_running (Nat.zero_le _) rfl
  | startedDec => exact cursorInv_decStarted s
  | wroteDec hbusy => exact cursorInv_of_not_running hs.1 (not_running_of_not_busy hbusy)
  | startedFr | startedMf | wroteFr | wroteMf | wasRead => exact hs

/-- Settles O47: every move of DEC, FR and the host keeps the invariant, and MF has no part in it. -/
theorem stepKeepsCursorInvariant : Obligations.StepKeepsCursorInvariant := by
  intro s t hs h
  refine step_preserves (fun _ _ hs => hs) (fun _ _ => HostMove.cursorInv)
    (fun _ _ => DecMove.cursorInv) (fun _ _ => FrMove.cursorInv) (fun s t hs h => ?_) hs h
  obtain ⟨pos, idx, headT, tailT, nextT, cmdq, mst, rfl⟩ := mfStep_frame h
  exact hs

/-! ### The output's invariant (R16, R17, R42, R157) -/

/-- After an error the invariant asks for nothing. -/
theorem outputInv_of_error {t : State} (h : t.st = .error) : OutputInv t :=
  ⟨fun hne => absurd h hne, fun hne => absurd h hne, fun hne => absurd h hne,
    fun hrun => by rw [h] at hrun; cases hrun⟩

theorem outputInv_decStarted (s : State) : OutputInv s.decStarted :=
  ⟨fun _ _ hc => absurd hc List.not_mem_nil, fun _ _ _ => Nat.zero_le _, fun _ _ => rfl,
    fun _ => rfl⟩

/-- Room for `c` bytes within OUT_CAP. -/
theorem le_cap_of_room {s : State} {c cap : Nat} (hroom : s.room c = true)
    (hcap : s.cfg.outCap = some cap) (hle : s.olen ≤ cap) : s.olen + c ≤ cap := by
  simp only [State.room, hcap, Bool.or_eq_true, beq_iff_eq, decide_eq_true_eq] at hroom
  omega

/-- Appending keeps OUT below `olen`. -/
theorem putBytes_out_lt (bs : List Byte) : ∀ s : State, (∀ c ∈ s.out, c.1 < s.olen) →
    ∀ c ∈ (putBytes bs s).out, c.1 < (putBytes bs s).olen := by
  induction bs with
  | nil => exact fun _ h => h
  | cons b bs ih =>
    refine fun s h => ih (s.putByte b) fun c hc => ?_
    have hold : ∀ c ∈ s.out, c.1 < s.olen + 1 := fun c hc => Nat.lt_succ_of_lt (h c hc)
    rw [putByte_out] at hc
    cases hmode : s.sinkMode <;> rw [hmode] at hc
    · rcases Memory.mem_write _ _ _ _ hc with hc | ⟨rfl, -⟩
      · exact hold c hc
      · exact Nat.lt_succ_self _
    · exact hold c hc

theorem DecMove.outputInv {s t : State} (hs : OutputInv s) (h : DecMove s t) : OutputInv t := by
  obtain ⟨hout, hcap, hsize, hmode⟩ := hs
  have running {st : RunState} (hst : s.st = st) (hne : st ≠ .error) : s.st ≠ .error := by
    rwa [hst]
  cases h with
  | waits => exact ⟨hout, hcap, hsize, hmode⟩
  | raised _ c k o e => exact outputInv_of_error (raise_st e _)
  | header hst | legSelected hst =>
    have hne := running hst nofun
    exact ⟨fun _ => hout hne, fun _ => hcap hne, fun _ => hsize hne, fun _ => hmode (by rw [hst]; rfl)⟩
  | ended hst | exhausted hst =>
    have hne := running hst nofun
    exact ⟨fun _ => hout hne, fun _ => hcap hne, fun _ => hsize hne, nofun⟩
  | appended c hc k o bs hroom =>
    have hrun : s.st.running = true := running_of_fetches hc
    have hne : s.st ≠ .error := fun herr => by rw [herr] at hrun; cases hrun
    have hbelow := putBytes_out_lt bs (s.prepared c k o) (hout hne)
    have hempty : s.outMode = .sizeOnly → (putBytes bs (s.prepared c k o)).out = [] := fun hm =>
      (putBytes_out_sizeOnly bs (s.prepared c k o) ((hmode hrun).symm.trans hm)).trans
        (hsize hne hm)
    rw [putBytes_frame] at hbelow hempty ⊢
    exact ⟨fun _ => hbelow, fun _ cap hc => le_cap_of_room hroom hc (hcap hne cap hc),
      fun _ => hempty, fun _ => hmode hrun⟩

theorem FrMove.outputInv {s t : State} (hs : OutputInv s) (h : FrMove s t) : OutputInv t := by
  cases h with
  | waits | lengthRead | contRead => exact hs
  | raised _ fp e => exact outputInv_of_error (raise_st e _)
  | payloadRun _ p _ u hrun =>
    have hu : OutputInv u :=
      decSteps_preserves (fun _ _ => DecMove.outputInv) _ (outputInv_decStarted _) hrun
    obtain ⟨sout, stotal, chunks, fst, he⟩ := frEndPayload_eq u
    rw [he]
    exact hu

theorem HostMove.outputInv {s t : State} (hs : OutputInv s) (h : HostMove s t) : OutputInv t := by
  cases h with
  | reset =>
    exact ⟨fun _ _ hc => absurd hc List.not_mem_nil, fun _ _ _ => Nat.zero_le _, fun _ _ => rfl,
      nofun⟩
  | startedDec => exact outputInv_decStarted s
  | wroteDec hbusy =>
    obtain ⟨hout, hcap, hsize, -⟩ := hs
    exact ⟨hout, hcap, hsize, fun hrun =>
      absurd (hrun.symm.trans (not_running_of_not_busy hbusy)) nofun⟩
  | startedFr | startedMf | wroteFr | wroteMf | wasRead => exact hs

/-- Settles O48: every move of DEC, FR and the host keeps the invariant, and MF has no part in it. -/
theorem stepKeepsOutputInvariant : Obligations.StepKeepsOutputInvariant := by
  intro s t hs h
  refine step_preserves (fun _ _ hs => hs) (fun _ _ => HostMove.outputInv)
    (fun _ _ => DecMove.outputInv) (fun _ _ => FrMove.outputInv) (fun s t hs h => ?_) hs h
  obtain ⟨pos, idx, headT, tailT, nextT, cmdq, mst, rfl⟩ := mfStep_frame h
  exact hs

/-- Settles O53: a move of DEC that is no error appends, or leaves the output alone. -/
theorem outputIsAppendOnly : Obligations.OutputIsAppendOnly := by
  intro s t hrun hmode hwf h hne
  cases decStep_move h with
  | waits | header | legSelected | ended | exhausted => exact ⟨le_rfl, fun _ _ => rfl⟩
  | raised => exact absurd (raise_st _ _) hne
  | appended c _ k o bs =>
    refine ⟨(putBytes_olen bs _).symm ▸ Nat.le_add_right s.olen _, fun a ha => ?_⟩
    rw [putBytes_out_materialize bs (s.prepared c k o) hmode]
    exact (Memory.read_writeBytes bs s.out s.olen a hwf).trans
      (if_neg fun hle => absurd hle.1 (by omega))

/-! ### `last_off` (R18) -/

/-- The free-value counter never goes back over a step of DEC. -/
theorem DecMove.freeCtr_le {s t : State} (h : DecMove s t) : s.freeCtr ≤ t.freeCtr := by
  cases h with
  | waits | header | legSelected | ended | exhausted => exact le_rfl
  | raised _ c k o e => exact (raise_freeCtr e (s.prepared c k o)).symm ▸ Nat.le_succ _
  | appended c _ k o bs => exact (putBytes_freeCtr bs (s.prepared c k o)).ge

/-- A payload draws free values, if only for its START (R30). -/
theorem frPayload_freeCtr_lt {p : List Byte} {s t : State} (h : frPayload p s = .next t) :
    s.freeCtr < t.freeCtr := by
  obtain ⟨u, -, hrun, rfl⟩ := frPayload_next h
  have hu : s.freeCtr + 1 ≤ u.freeCtr :=
    decSteps_preserves (P := fun v => s.freeCtr + 1 ≤ v.freeCtr)
      (fun _ _ hs hmove => hs.trans hmove.freeCtr_le) _ le_rfl hrun
  obtain ⟨sout, stotal, chunks, fst, he⟩ := frEndPayload_eq u
  rw [he]
  exact hu

/-- A part of a frame that draws no free values leaves `last_off` alone. -/
theorem execChunk_lastOff {part : ChunkPart} {s t : State} (h : execChunk part s = .next t)
    (hctr : t.freeCtr = s.freeCtr) : t.lastOff = s.lastOff := by
  cases part with
  | length l =>
    simp only [execChunk, frLength] at h
    split_ifs at h <;> cases h
    · rw [raise_freeCtr] at hctr
      omega
    · rfl
  | payload p => exact absurd hctr (frPayload_freeCtr_lt h).ne'
  | cont k =>
    simp only [execChunk, frCont] at h
    split_ifs at h <;> cases h <;> rfl

/-- Settles O23: a command sets `last_off` before its sink operation if it is NEWOFF, and what draws no free values
raised no error. -/
theorem onlyNewoffWritesLastOff : Obligations.OnlyNewoffWritesLastOff := by
  intro i s t h hctr
  have command (hi : i.isAdvCommand = true ∨ i.isLegCommand = true) :
      (∃ n o, i = .newoff n o ∧ t.lastOff = o) ∨ t.lastOff = s.lastOff := by
    obtain ⟨k, o, ho, he⟩ := exec_command hi h
    cases he with
    | raised e => exact absurd hctr (by rw [raise_freeCtr]; exact Nat.succ_ne_self _)
    | appended bs =>
      rw [putBytes_lastOff]
      rcases ho with rfl | ⟨n, rfl⟩
      · exact .inr rfl
      · exact .inl ⟨n, o, rfl, rfl⟩
  cases i with
  | lit | smatch | lmatch | fill | fill12 => exact command (.inl rfl)
  | verb | verbx | lfill | lfillx | reuse | newoff => exact command (.inr rfl)
  | endMark | cc2 | cc3 | cc4 | cc5 | cc6 | cc14 | advHeader => cases h; exact .inr rfl
  | chunk part => exact .inr (execChunk_lastOff h hctr)

/-! ### A DEC run ends (R97, R230, R275) -/

/-- A bound on the steps left of a DEC run: control bits in an ADV run, bytes in a LEG run, one step to end. -/
def decFuel (s : State) : Nat :=
  match s.st with
  | .select => 8 * s.n + 2
  | .advReadControl => readBudget s.n s.cursor + 1
  | .legOpcode => s.n - s.ip + 1
  | .idle | .done | .error => 0

theorem not_running_of_decFuel {s : State} (h : decFuel s = 0) : s.st.running = false := by
  unfold decFuel at h
  cases hst : s.st <;> simp [hst] at h <;> rfl

theorem DecMove.fuel_lt {s t : State} (h : DecMove s t) (ht : t.st.running = true) :
    decFuel t < decFuel s := by
  cases h with
  | waits hst => rw [ht] at hst; cases hst
  | raised => rw [raise_st] at ht; cases ht
  | ended | exhausted => cases ht
  | header hst hn =>
    simp only [decFuel, hst, readBudget, State.cursor]
    omega
  | legSelected hst =>
    simp only [decFuel, hst]
    omega
  | appended c hc k o bs =>
    have hcur : (putBytes bs (s.prepared c k o)).cursor = c := putBytes_cursor bs _
    have hip : (putBytes bs (s.prepared c k o)).ip = c.ip := congrArg Cursor.ip hcur
    have hn : (putBytes bs (s.prepared c k o)).n = s.n := putBytes_n bs _
    have hst' : (putBytes bs (s.prepared c k o)).st = s.st := putBytes_st bs _
    rcases hc with ⟨hst, i, hd⟩ | ⟨hst, i, hd⟩
    · obtain ⟨-, b, c1, hbit, hrest⟩ := decodeAdv_reads hd
      have hlt : readBudget s.n c < readBudget s.n s.cursor :=
        (reads_budget hrest).trans_lt (readBit_budget hbit)
      simp only [decFuel, hst', hst, hn, hcur]
      omega
    · obtain ⟨hlt, hle, -⟩ := decodeLeg_source hd
      rw [cursor_ip] at hlt
      simp only [decFuel, hst', hst, hn, hip]
      omega

/-- Steps enough for the bound end a DEC run. -/
theorem decSteps_ends (k : Nat) : ∀ {s t : State}, decFuel s ≤ k → decSteps k s = .next t →
    t.st.running = false := by
  induction k with
  | zero =>
    intro s t hk h
    cases h
    exact not_running_of_decFuel (by omega)
  | succ k ih =>
    intro s t hk h
    unfold decSteps at h
    split at h
    next u hu =>
      cases hrun : u.st.running with
      | true =>
        have := (decStep_move hu).fuel_lt hrun
        exact ih (by omega) h
      | false =>
        exact decSteps_preserves (P := fun v => v.st.running = false)
          (fun v w hv hmove => by rwa [hmove.eq_of_not_running hv]) k hrun h
    · cases h
    · cases h

/-- The DEC run of a payload is over within FrPayload (R203, log 7). -/
theorem payloadRun_ends {p : List Byte} {s u : State}
    (h : decSteps (decRunBound p.length) (frLoad p s).decStarted = .next u) :
    u.st.running = false := decSteps_ends (decRunBound p.length) le_rfl h

/-! ### The framed run's invariant (R23, R200, R202) -/

/-- Out of a framed run the invariant asks for nothing. -/
theorem frameInv_of_not_framed {t : State} (h : t.framed = false) : FrameInv t := by
  refine ⟨?_, ?_, ?_, ?_⟩ <;> intro hfr <;> rw [h] at hfr <;> cases hfr

theorem raise_framed (e : Error) (s : State) : (raise e s).framed = false := by
  have hfst := (raise_sets e s).2.2.2
  cases h : s.framed <;> rw [h] at hfst <;> unfold State.framed at h ⊢ <;> rw [hfst]
  · exact h
  · rfl

theorem DecMove.frameInv {s t : State} (hs : FrameInv s) (h : DecMove s t) : FrameInv t := by
  cases hfr : s.framed with
  | true =>
    rwa [h.eq_of_not_running (hs.2.1 hfr)]
  | false =>
    obtain ⟨-, hfst, -⟩ := h.frKept (.inl hfr)
    exact frameInv_of_not_framed (by unfold State.framed at hfr ⊢; rwa [hfst])

/-- The cells of a space after several bytes were written are old ones or below the end of the new ones. -/
theorem mem_writeBytes (bs : List Byte) : ∀ (m : Memory) (a : Nat) (c : Host.Cell),
    c ∈ m.writeBytes a bs → c ∈ m ∨ c.1 < a + bs.length := by
  induction bs with
  | nil => exact fun _ _ _ h => .inl h
  | cons b bs ih =>
    intro m a c hc
    rw [List.length_cons]
    rcases ih _ _ c hc with hc | hlt
    · rcases Memory.mem_write m a b c hc with hc | ⟨rfl, -⟩
      · exact .inl hc
      · exact .inr (by show a < _; omega)
    · exact .inr (by omega)

/-- FrPayload's end on a run that is over keeps the invariant: the output is appended at `stotal` (R203). -/
theorem frEndPayload_frameInv {u : State} (hst : u.st.running = false)
    (hlim : u.st ≠ .error → u.fp ≤ u.fn ∧ u.plen ≤ 65533)
    (hsout : u.st ≠ .error → ∀ c ∈ u.sout, c.1 < u.stotal)
    (hmode : u.st ≠ .error → u.soutMode = u.sinkMode ∧ (u.soutMode = .sizeOnly → u.sout = [])) :
    FrameInv (frEndPayload u) := by
  unfold frEndPayload
  split
  next hdone =>
    have hne : u.st ≠ .error := by rw [hdone]; nofun
    obtain ⟨hsame, hempty⟩ := hmode hne
    refine ⟨fun _ => hlim hne, fun _ => hst, fun _ c hc => ?_, fun _ => ⟨hsame, fun hsize => ?_⟩⟩
    · have hold : c ∈ u.sout → c.1 < u.stotal + u.olen := fun hc =>
        (hsout hne c hc).trans_le (Nat.le_add_right _ _)
      cases hm : u.sinkMode <;> simp only [frCollect, hm] at hc
      · rcases mem_writeBytes _ _ _ c hc with hc | hlt
        · exact hold hc
        · rwa [Memory.length_readBytes] at hlt
      · exact hold hc
    · have hm : u.sinkMode = .sizeOnly := hsame.symm.trans hsize
      simp only [frCollect, hm]
      exact hempty hsize
  · exact frameInv_of_not_framed rfl
  next hidle =>
    have hne : u.st ≠ .error := by rw [hidle]; nofun
    exact ⟨fun _ => hlim hne, fun _ => hst, fun _ => hsout hne, fun _ => hmode hne⟩
  all_goals
    rename_i hrun
    rw [hrun] at hst
    cases hst

theorem FrMove.frameInv {s t : State} (hs : FrameInv s) (h : FrMove s t) : FrameInv t := by
  have framed {f : FrState} (hfst : s.fst = f) (hf : f.running = true) : s.framed = true := by
    unfold State.framed
    rwa [hfst]
  obtain ⟨hlim, hst, hsout, hmode⟩ := hs
  cases h with
  | waits => exact ⟨hlim, hst, hsout, hmode⟩
  | raised _ fp e => exact frameInv_of_not_framed (raise_framed e _)
  | lengthRead hfst hfp l hl =>
    have hfr := framed hfst rfl
    exact ⟨fun _ => ⟨hfp, hl⟩, fun _ => hst hfr, fun _ => hsout hfr, fun _ => hmode hfr⟩
  | contRead hfst hfp f =>
    have hfr := framed hfst rfl
    exact ⟨fun _ => ⟨hfp, (hlim hfr).2⟩, fun _ => hst hfr, fun _ => hsout hfr, fun _ => hmode hfr⟩
  | payloadRun hfst p hfp u hrun =>
    have hfr := framed hfst rfl
    obtain ⟨hframe, hkept⟩ := decSteps_frame hrun
    obtain ⟨hfn, hplen, hsame, hsink⟩ := hframe.framing
    refine frEndPayload_frameInv (payloadRun_ends hrun) (fun hne => ?_) (fun hne => ?_)
      (fun hne => ?_) <;> obtain ⟨hfp', -, hsout', hstotal', -⟩ := hkept hne
    · rw [hfp', hfn, hplen]
      exact ⟨hfp (hlim hfr).1, (hlim hfr).2⟩
    · rw [hsout', hstotal']
      exact hsout hfr
    · rw [hsame, hsink, hsout']
      exact hmode hfr

theorem HostMove.frameInv {s t : State} (hs : FrameInv s) (h : HostMove s t) : FrameInv t := by
  cases h with
  | reset => exact frameInv_of_not_framed rfl
  | startedDec hbusy =>
    have hfr : s.framed = false := not_framed_of_not_busy hbusy
    exact frameInv_of_not_framed hfr
  | startedFr hbusy =>
    have hst : s.st.running = false := not_running_of_not_busy hbusy
    exact ⟨fun _ => ⟨Nat.zero_le _, Nat.zero_le _⟩, fun _ => hst,
      fun _ _ hc => absurd hc List.not_mem_nil, fun _ => ⟨rfl, fun _ => rfl⟩⟩
  | wroteDec hbusy =>
    have hfr : s.framed = false := not_framed_of_not_busy hbusy
    exact frameInv_of_not_framed hfr
  | wroteFr hfr => exact frameInv_of_not_framed hfr
  | startedMf | wroteMf | wasRead => exact hs

/-- Settles O49: every move of DEC, FR and the host keeps the invariant, and MF has no part in it. -/
theorem stepKeepsFrameInvariant : Obligations.StepKeepsFrameInvariant := by
  intro s t hs h
  refine step_preserves (fun _ _ hs => hs) (fun _ _ => HostMove.frameInv)
    (fun _ _ => DecMove.frameInv) (fun _ _ => FrMove.frameInv) (fun s t hs h => ?_) hs h
  obtain ⟨pos, idx, headT, tailT, nextT, cmdq, mst, rfl⟩ := mfStep_frame h
  exact hs

end Sys2Proof.Machine

namespace Sys2Proof.Machine

/-! ### The agenda, START, reset (R10, R250, R251) -/

/-- A host turn is the host's action (log 6). -/
theorem step_of_host {s : State} {a : HostAction} {rest : List Turn}
    (h : s.agenda = .host a :: rest) : step s = hostAct a { s with agenda := rest } := by
  simp [step, moveOf, h]

/-- An agent's turn is that agent's step (log 6). -/
theorem step_of_agent {s : State} {g : Agent} {rest : List Turn}
    (h : s.agenda = .agent g :: rest) : step s = agentStep g { s with agenda := rest } := by
  simp [step, moveOf, h]

/-- With nothing to do the machine waits (R223, R230). -/
theorem step_of_idle {s : State} (h : s.agenda = []) (hst : s.st.running = false)
    (hfr : s.framed = false) (hmst : s.mst ≠ .scan) : step s = .next s := by
  have hmove : step s = mfStep s := by simp [step, moveOf, h, State.mover, hst, hfr, agentStep]
  rw [hmove]
  unfold mfStep
  cases hm : s.mst with
  | scan => exact absurd hm hmst
  | idle | done => rfl

/-- Settles O26. -/
theorem agendaTurnsAreTakenInOrder : Obligations.AgendaTurnsAreTakenInOrder := fun _ _ =>
  ⟨fun _ => step_of_agent, fun _ => step_of_host, step_of_idle⟩

/-- MF out of SCAN is in no run. -/
theorem mfRunning_eq_false {m : MfState} (h : m ≠ .scan) : m.running = false := by
  cases m with
  | scan => exact absurd rfl h
  | idle | done => rfl

/-- Without an IN_CAP below `N` a START of DEC is accepted (U5). -/
theorem inputFits_of_le {s : State} (h : ∀ cap, s.cfg.inCap = some cap → s.n ≤ cap) :
    s.inputFits = true := by
  unfold State.inputFits
  split
  · rfl
  next cap hcap => exact decide_eq_true (h cap hcap)

theorem hostStartDec_accepted {s : State} (hbusy : s.decBusy = false) (hfits : s.inputFits = true) :
    hostStartDec s = .next s.decStarted := by simp [hostStartDec, hbusy, startDec, hfits]

theorem hostStartFr_accepted {s : State} (hbusy : s.decBusy = false) :
    hostStartFr s = .next (startFr s) := by simp [hostStartFr, hbusy]

theorem hostStartMf_accepted {s : State} (hmst : s.mst ≠ .scan) :
    hostStartMf s = .next (startMf s) := by simp [hostStartMf, mfRunning_eq_false hmst]

/-- Settles O41: an accepted START is `decStarted`, `startFr` or `startMf`. -/
theorem startGivesTheInitialState : Obligations.StartGivesTheInitialState := by
  intro s rest
  refine ⟨fun h hbusy hcap => ?_, fun h hbusy => ?_, fun h hmst => ?_⟩ <;> rw [step_of_host h]
  · exact ⟨_, hostStartDec_accepted hbusy (inputFits_of_le hcap), rfl⟩
  · exact ⟨_, hostStartFr_accepted hbusy, rfl⟩
  · exact hostStartMf_accepted hmst

/-- Settles O45. -/
theorem resetIdlesEveryAgent : Obligations.ResetIdlesEveryAgent := by
  intro s rest h
  refine ⟨hostReset { s with agenda := rest }, step_of_host h, ?_⟩
  simp [hostReset_eq, State.reset]

/-- Settles O51: reset is one of the host's moves, so it meets the three invariants of a run; MF is IDLE. -/
theorem resetMeetsEveryInvariant : Obligations.ResetMeetsEveryInvariant := by
  refine ⟨reset_spaces_wf, cursorInv_of_not_running (Nat.zero_le _) rfl, ?_,
    frameInv_of_not_framed rfl, nofun, rfl, rfl, rfl⟩
  exact ⟨fun _ _ hc => absurd hc List.not_mem_nil, fun _ _ _ => Nat.zero_le _, fun _ _ => rfl, nofun⟩

/-! ### Host writes (R12, R24, R255 to R257) -/

theorem writeUnless_idle {busy : Bool} (h : busy = false) (s : State) :
    writeUnless busy s = .next s := by rw [h]; rfl

/-- Settles O43: a write that is not refused is the update it names, and a byte reads back by `read_write`. -/
theorem hostWritesLandWhereTheyName : Obligations.HostWritesLandWhereTheyName := by
  rintro s rest ⟨hinp, -, hfs, -, hsrc⟩
  refine ⟨fun hbusy => ⟨fun x b h => ?_, fun v h => ?_, fun v h => ?_⟩,
    fun hfr => ⟨fun x b h => ?_, fun v h => ?_⟩,
    fun hmst => ⟨fun x b h => ?_, fun v h => ?_, fun v h => ?_, fun v h => ?_, fun v h => ?_,
      fun v h => ?_⟩⟩ <;> rw [step_of_host h]
  · exact ⟨_, writeUnless_idle hbusy _, rfl, fun a => Memory.read_write s.inp x b a hinp⟩
  · exact writeUnless_idle hbusy _
  · exact writeUnless_idle hbusy _
  · exact ⟨_, writeUnless_idle hfr _, rfl, fun a => Memory.read_write s.fs x b a hfs⟩
  · exact writeUnless_idle hfr _
  · exact ⟨_, writeUnless_idle (mfRunning_eq_false hmst) _, rfl,
      fun a => Memory.read_write s.src x b a hsrc⟩
  all_goals exact writeUnless_idle (mfRunning_eq_false hmst) _

/-! ### Host reads (R22, R40, R56, R227) -/

/-- What a host read does is what `readReg` answers. -/
theorem step_read (s : State) (r : HostReg) (rest : List Turn) :
    step { s with agenda := .host (.read r) :: rest } = hostRead r { s with agenda := rest } :=
  rfl

theorem readDelivers_of {s : State} {r : HostReg} {d : Datum} (h : s.readReg r = .next d) :
    ReadDelivers s r d := fun rest => by
  have h' : State.readReg { s with agenda := rest } r = .next d := h
  rw [step_read, hostRead, h']

theorem readRefused_of {s : State} {r : HostReg} (h : s.readReg r = .refused .readNotAllowed) :
    ReadRefused s r := fun rest => by
  have h' : State.readReg { s with agenda := rest } r = .refused .readNotAllowed := h
  rw [step_read, hostRead, h']

theorem readFaults_of {s : State} {r : HostReg} (h : s.readReg r = .fault .noSuchAddress) :
    ReadFaults s r := fun rest => by
  have h' : State.readReg { s with agenda := rest } r = .fault .noSuchAddress := h
  rw [step_read, hostRead, h']

theorem readIf_true {b : Bool} {d : Datum} (h : b = true) : readIf b d = .next d := by
  rw [h]; rfl

theorem readIf_false {b : Bool} {d : Datum} (h : b = false) :
    readIf b d = .refused .readNotAllowed := by rw [h]; rfl

/-- A register read by `readByteIf` is delivered, faults or is refused as `allowed` and the length say. -/
theorem byteReadIf_of {s : State} {shown : Prop} {allowed : Bool} {reg : Nat → HostReg}
    {m : Memory} {len : Nat} (hread : ∀ a, s.readReg (reg a) = readByteIf allowed m len a)
    (hshown : allowed = true ↔ shown) : ByteReadIf s shown reg m len := by
  intro a
  refine ⟨fun h hlt => readDelivers_of ?_, fun h hle => readFaults_of ?_,
    fun h => readRefused_of ?_⟩ <;> rw [hread, readByteIf]
  · rw [if_pos (hshown.2 h), if_pos hlt]
  · rw [if_pos (hshown.2 h), if_neg (by omega)]
  · rw [if_neg fun ha => h (hshown.1 ha)]

/-- OUT and SOUT are shown as far as both modes are MATERIALIZE (log 21). -/
theorem outputShown_iff (s : State) (made : SinkMode) :
    s.outputShown made = true ↔ made = .materialize ∧ s.sinkMode = .materialize := by
  simp [State.outputShown]

/-- Settles O44, register by register. -/
theorem hostReadsOnlyWhatIsAllowed : Obligations.HostReadsOnlyWhatIsAllowed := by
  intro s
  have deliver {r d} (h : s.readReg r = .next d) := readDelivers_of h
  have refuse {r} (h : s.readReg r = .refused .readNotAllowed) := readRefused_of h
  refine ⟨⟨deliver rfl, deliver rfl, deliver rfl, deliver rfl, deliver rfl⟩,
    byteReadIf_of (allowed := true) (fun _ => rfl) (by simp), fun h => ?_, fun h => ?_,
    byteReadIf_of (fun _ => rfl) (by simp [State.decResults, outputShown_iff]), fun h => ?_,
    fun h h' => ?_, fun h => ?_, fun h => ?_, ⟨refuse rfl, refuse rfl, refuse rfl⟩, fun h => ?_,
    fun h => ?_, byteReadIf_of (fun _ => rfl) (by simp [outputShown_iff]), fun h => ?_,
    fun h => ?_, fun r rest t h => ?_⟩
  · have ok : s.decResults = true := decide_eq_true h
    exact ⟨deliver (readIf_true ok), deliver (readIf_true ok)⟩
  · have no : s.decResults = false := decide_eq_false h
    exact ⟨refuse (readIf_false no), refuse (readIf_false no)⟩
  · exact deliver (readIf_true (by simpa [State.decResults, State.decReport] using h))
  · exact refuse (readIf_false (by simp [State.decResults, State.decReport, h, h']))
  · have ok : s.decReport = true := decide_eq_true h
    exact ⟨deliver (readIf_true ok), deliver (readIf_true ok), deliver (readIf_true ok)⟩
  · have no : s.decReport = false := decide_eq_false h
    exact ⟨refuse (readIf_false no), refuse (readIf_false no), refuse (readIf_false no)⟩
  · have ok : decide (s.fst = .done) = true := decide_eq_true h
    exact ⟨deliver (readIf_true ok), deliver (readIf_true ok), deliver (readIf_true ok)⟩
  · have no : decide (s.fst = .done) = false := decide_eq_false h
    exact ⟨refuse (readIf_false no), refuse (readIf_false no), refuse (readIf_false no)⟩
  · exact deliver (readIf_true (decide_eq_true h))
  · exact refuse (readIf_false (decide_eq_false h))
  · rw [step_read] at h
    obtain ⟨d, rfl⟩ := hostRead_frame h
    exact ⟨d, rfl⟩

/-! ### The LEG matches (R137, R139, R153, R154) -/

/-- The position after `j` in a period of `o`. -/
theorem succ_mod_of_pos {o : Nat} (ho : 1 ≤ o) (j : Nat) :
    (j + 1) % o = if j % o + 1 = o then 0 else j % o + 1 := by
  have hlt := Nat.mod_lt j ho
  rw [← Nat.mod_add_mod]
  split
  next hlast => rw [hlast, Nat.mod_self]
  · exact Nat.mod_eq_of_lt (by omega)

/-- What a copy of offset `o` leaves in OUT, in MATERIALIZE mode: the `c` bytes from `olen` on repeat the `o` bytes before
them (R154). -/
theorem copyBytes_read {o : Nat} (ho : 1 ≤ o) (c : Nat) : ∀ s : State, s.out.wf →
    s.sinkMode = .materialize → o ≤ s.olen → ∀ a, (copyBytes o c s).out.read a =
      if s.olen ≤ a ∧ a < s.olen + c then copiedByte s o (a - s.olen) else s.out.read a := by
  induction c with
  | zero =>
    intro s _ _ _ a
    rw [if_neg (by omega)]
    rfl
  | succ c ih =>
    intro s hwf hmode hle a
    have hout : (s.putByte (s.out.read (s.olen - o))).out =
        s.out.write s.olen (s.out.read (s.olen - o)) := by rw [putByte_out, hmode]
    have hread : ∀ x, (s.putByte (s.out.read (s.olen - o))).out.read x =
        if x = s.olen then s.out.read (s.olen - o) else s.out.read x := fun x => by
      rw [hout, Memory.read_write _ _ _ _ hwf]
    have hwf' : (s.putByte (s.out.read (s.olen - o))).out.wf := by
      rw [hout]
      exact Memory.wf_write _ _ _ hwf
    rw [copyBytes, ih _ hwf' hmode (by rw [putByte_olen]; omega)]
    simp only [copiedByte, putByte_olen, hread]
    rcases Nat.lt_trichotomy a s.olen with hlt | rfl | hgt
    · rw [if_neg (by omega), if_neg (by omega), if_neg (by omega)]
    · rw [if_neg (by omega), if_pos rfl, if_pos (by omega), Nat.sub_self, Nat.zero_mod, Nat.add_zero]
    · obtain ⟨j, rfl⟩ : ∃ j, a = s.olen + (j + 1) := ⟨a - s.olen - 1, by omega⟩
      have hmod := Nat.mod_lt j ho
      rw [show s.olen + (j + 1) - (s.olen + 1) = j by omega,
        show s.olen + (j + 1) - s.olen = j + 1 by omega]
      by_cases hc : j < c
      · have hin : s.olen + 1 ≤ s.olen + (j + 1) ∧ s.olen + (j + 1) < s.olen + 1 + c := by omega
        have hin' : s.olen ≤ s.olen + (j + 1) ∧ s.olen + (j + 1) < s.olen + (c + 1) := by omega
        rw [if_pos hin, if_pos hin', succ_mod_of_pos ho]
        by_cases hlast : j % o + 1 = o
        · rw [if_pos hlast, if_pos (by omega), Nat.add_zero]
        · rw [if_neg hlast, if_neg (by omega),
            show s.olen + 1 - o + j % o = s.olen - o + (j % o + 1) by omega]
      · rw [if_neg (by omega), if_neg (by omega), if_neg (by omega)]

theorem copyBytes_out_sizeOnly (o c : Nat) (s : State) (h : s.sinkMode = .sizeOnly) :
    (copyBytes o c s).out = s.out := by
  obtain ⟨bs, -, hcopy⟩ := copyBytes_eq_putBytes o c s
  rw [hcopy, putBytes_out_sizeOnly bs s h]

/-- An accepted backreference appends the bytes `o` back and changes nothing else (R153). -/
theorem emitBackreference_appended {s : State} {o c : Nat} (hwf : s.out.wf)
    (hroom : s.room c = true) (ho : s.reaches o) :
    ∃ t, emitBackreference o c s = .next t ∧ Appended s (copiedByte s o) c t := by
  obtain ⟨hpos, hle⟩ := ho
  rcases emitBackreference_cases o c s with ⟨hbad, -⟩ | ⟨-, -, -, he⟩ | ⟨-, -, hfull, -⟩
  · omega
  · exact ⟨_, he, copyBytes_frame o c s, fun hmode => copyBytes_read hpos c s hwf hmode hle,
      copyBytes_out_sizeOnly o c s⟩
  · rw [hroom] at hfull
    cases hfull

/-- Settles O16: both commands are an accepted backreference, NEWOFF's with its offset already kept. -/
theorem legMatchesCopyTheirBytes : Obligations.LegMatchesCopyTheirBytes := fun s hwf =>
  ⟨fun _ hroom ho => emitBackreference_appended hwf hroom ho,
    fun _ o hroom ho => emitBackreference_appended (s := { s with lastOff := o }) hwf hroom ho⟩

end Sys2Proof.Machine

/-! ## The match finder: the search on the tables, and the invariant of the index -/

namespace Sys2Proof.Machine

/-! ### Lists kept in the tables (R27, R28) -/

/-- Along `next` the entry `start` leads through exactly the positions of a list, and then to NIL (R28). -/
def Chained (next : Table) : Option Nat → List Nat → Prop
  | start, [] => start = none
  | start, q :: qs => start = some q ∧ Chained next (next.get (slotOf q)) qs

/-- The positions of `idx` with digraph `d`, the oldest first. -/
def State.bucket (s : State) (d : Nat) : List Nat := s.idx.filter (fun q => s.digraph q = d)

/-- R28 without the bound on `idx`: the tables hold the positions of each digraph. -/
def TablesChain (s : State) : Prop :=
  ∀ d, Chained s.nextT (s.headT.get d) (s.bucket d) ∧ s.tailT.get d = (s.bucket d).getLast?

theorem follow_of_chained (s : State) (fuel : Nat) : ∀ {start : Option Nat} {qs : List Nat},
    Chained s.nextT start qs → qs.length ≤ fuel → s.follow fuel start = qs := by
  induction fuel with
  | zero =>
    intro start qs _ hlen
    rw [List.length_eq_zero_iff.1 (Nat.le_zero.1 hlen)]
    rfl
  | succ fuel ih =>
    intro start qs h hlen
    cases qs with
    | nil =>
      rw [show start = none from h]
      rfl
    | cons q qs =>
      obtain ⟨rfl, hrest⟩ := h
      rw [State.follow, ih hrest (by simpa using hlen)]

theorem chained_of_follow (s : State) (fuel : Nat) : ∀ {start : Option Nat},
    (s.follow fuel start).length < fuel → Chained s.nextT start (s.follow fuel start) := by
  induction fuel with
  | zero => exact fun h => absurd h (Nat.not_lt_zero _)
  | succ fuel ih =>
    intro start h
    cases start with
    | none => exact rfl
    | some q => exact ⟨rfl, ih (by simpa [State.follow] using h)⟩

theorem bucket_length_le (s : State) (d : Nat) : (s.bucket d).length ≤ s.idx.length :=
  List.length_filter_le _ _

/-- R28 is the bound on `idx` and the chains. -/
theorem tablesAgree_iff (s : State) :
    TablesAgree s ↔ s.idx.length ≤ Config.window ∧ TablesChain s := by
  refine and_congr_right fun hlen => forall_congr' fun d => and_congr_left fun _ => ?_
  have hfuel : (s.bucket d).length < Config.chainCap + 1 :=
    Nat.lt_succ_of_le (((bucket_length_le s d).trans hlen).trans (by decide))
  constructor
  · intro h
    have := chained_of_follow s (Config.chainCap + 1) (start := s.headT.get d) (by rwa [h])
    rwa [h] at this
  · exact fun h => follow_of_chained s _ h hfuel.le

/-! ### The search on the tables (R177) -/

theorem walk_of_chained (s : State) (p fuel : Nat) : ∀ {start : Option Nat} {qs : List Nat}
    {best : Option Nat × Nat}, Chained s.nextT start qs → qs.length ≤ fuel →
    s.walk p fuel start best = qs.foldl (s.betterOrEqual p) best := by
  induction fuel with
  | zero =>
    intro start qs best _ hlen
    rw [List.length_eq_zero_iff.1 (Nat.le_zero.1 hlen)]
    rfl
  | succ fuel ih =>
    intro start qs best h hlen
    cases qs with
    | nil =>
      rw [show start = none from h]
      rfl
    | cons q qs =>
      obtain ⟨rfl, hrest⟩ := h
      rw [State.walk, ih hrest (by simpa using hlen)]
      rfl

/-- A candidate replaces the best so far when strictly longer (R176). -/
def longer (best cand : Option Nat × Nat) : Option Nat × Nat :=
  if best.2 < cand.2 then cand else best

theorem better_eq (s : State) (p : Nat) (best : Option Nat × Nat) (q : Nat) :
    s.better p best q = longer best (some q, s.commonRun q p (s.matchCap p)) := rfl

theorem longer_of_lt {best cand : Option Nat × Nat} (h : best.2 < cand.2) :
    longer best cand = cand := if_pos h

theorem longer_of_le {best cand : Option Nat × Nat} (h : cand.2 ≤ best.2) :
    longer best cand = best := if_neg (Nat.not_lt.2 h)

/-- Whether a candidate met a best before is of no account to a later one. -/
theorem longer_longer (best c d : Option Nat × Nat) :
    longer (longer best c) d = longer best (longer (longer (none, 0) c) d) := by
  by_cases hc : best.2 < c.2
  · have hpos : ((none, 0) : Option Nat × Nat).2 < c.2 := Nat.zero_lt_of_lt hc
    rw [longer_of_lt hc, longer_of_lt hpos]
    refine (longer_of_lt ?_).symm
    unfold longer
    split <;> omega
  · rw [longer_of_le (Nat.not_lt.1 hc)]
    unfold longer
    split_ifs <;> simp_all
    omega

/-- A search from the newest on, started with a best, keeps it unless a candidate is strictly longer. -/
theorem foldl_better (s : State) (p : Nat) (qs : List Nat) : ∀ best : Option Nat × Nat,
    qs.foldl (s.better p) best = longer best (qs.foldl (s.better p) (none, 0)) := by
  induction qs with
  | nil => exact fun best => (longer_of_le (Nat.zero_le _)).symm
  | cons q qs ih =>
    intro best
    rw [List.foldl_cons, List.foldl_cons, ih, ih (s.better p (none, 0) q)]
    rw [better_eq, better_eq]
    exact longer_longer best _ _

/-- A search from the oldest on found what one from the newest on found: the same best length, and, if it is not 0, the
same position. -/
def SameBest (oldest newest : Option Nat × Nat) : Prop :=
  oldest.2 = newest.2 ∧ (newest.2 ≠ 0 → oldest.1 = newest.1) ∧ (newest.2 = 0 → newest.1 = none)

/-- One candidate more, the newest of all, for both searches. -/
theorem sameBest_step {w f : Option Nat × Nat} (h : SameBest w f) (q l : Nat) :
    SameBest (if w.2 ≤ l then (some q, l) else w) (longer (longer (none, 0) (some q, l)) f) := by
  obtain ⟨hlen, hpos, hzero⟩ := h
  by_cases hl : f.2 ≤ l
  · rw [if_pos (hlen ▸ hl)]
    by_cases h0 : l = 0
    · subst h0
      rw [longer_of_le (best := (none, 0)) (cand := (some q, 0)) le_rfl, longer_of_le hl]
      exact ⟨rfl, fun h => absurd rfl h, fun _ => rfl⟩
    · rw [longer_of_lt (cand := (some q, l)) (Nat.pos_of_ne_zero h0), longer_of_le hl]
      exact ⟨rfl, fun _ => rfl, fun h => absurd h h0⟩
  · have hlt : (longer (none, 0) (some q, l)).2 < f.2 := by
      unfold longer
      split <;> dsimp only <;> omega
    rw [if_neg (hlen ▸ hl), longer_of_lt hlt]
    exact ⟨hlen, hpos, hzero⟩

/-- The search from the oldest on, which prefers the later of two equals, and the one from the newest on, which prefers
the earlier, agree (R177). -/
theorem foldl_betterOrEqual (s : State) (p : Nat) (qs : List Nat) :
    SameBest (qs.foldl (s.betterOrEqual p) (none, 0))
      (qs.reverse.foldl (s.better p) (none, 0)) := by
  induction qs using List.reverseRecOn with
  | nil => exact ⟨rfl, fun _ => rfl, fun _ => rfl⟩
  | append_singleton qs q ih =>
    rw [List.foldl_concat, List.reverse_concat, List.foldl_cons, foldl_better]
    exact sameBest_step ih q _

/-- Settles O37: the walk is the search from the oldest on over the positions of the digraph. -/
theorem findOnTablesAgrees : Obligations.FindOnTablesAgrees := by
  intro s p h
  obtain ⟨hlen, hchain⟩ := (tablesAgree_iff s).1 h
  have hfuel : (s.bucket (s.digraph p)).length ≤ Config.chainCap :=
    ((bucket_length_le s _).trans hlen).trans (by decide)
  unfold State.findOnTables State.find
  split_ifs with hm
  · rfl
  · obtain ⟨hsame, hpos, hzero⟩ := foldl_betterOrEqual s p (s.bucket (s.digraph p))
    rw [walk_of_chained s p _ (hchain _).1 hfuel]
    change _ = answerOf p ((s.bucket (s.digraph p)).reverse.foldl (s.better p) (none, 0))
    dsimp only
    split_ifs with h0
    · rw [hsame] at h0
      rw [answerOf, hzero h0]
    · rw [hsame] at h0
      rw [answerOf, answerOf, hpos h0, hsame]

end Sys2Proof.Machine

namespace Sys2Proof.Machine

/-! ### The tables as stores (R27) -/

/-- An entry after one was set to a position or to NIL. -/
theorem Table.get_put (t : Table) (k : Nat) (o : Option Nat) (x : Nat) (h : t.wf) :
    (t.put k o).get x = if x = k then o else t.get x := by
  cases o with
  | none => exact Table.get_clear t k x h
  | some p => exact Table.get_set t k p x h

/-- Every entry of a table is below its size. -/
def Table.Below (t : Table) (size : Nat) : Prop := ∀ e ∈ t, e.1 < size

theorem Table.below_set {t : Table} {size k p : Nat} (h : t.Below size) (hk : k < size) :
    (t.set k p).Below size := by
  intro e he
  rcases Table.mem_set t k p e he with he | rfl
  · exact h e he
  · exact hk

theorem Table.below_clear {t : Table} {size k : Nat} (h : t.Below size) :
    (t.clear k).Below size := fun e he => h e (Table.mem_clear t k e he)

/-- The three tables are canonical and within their sizes (R27, R188). -/
def TablesWf (s : State) : Prop :=
  TableSizes s ∧ s.headT.wf ∧ s.tailT.wf ∧ s.nextT.wf

theorem digraph_lt (s : State) (p : Nat) : s.digraph p < Config.digraphSpace := by
  have hlo := (s.src.read p).isLt
  have hhi := (s.src.read (p + 1)).isLt
  unfold State.digraph Config.digraphSpace
  omega

theorem slotOf_lt (p : Nat) : slotOf p < Config.chainCap := Nat.mod_lt _ (by decide)

/-- Positions less than the size of `next` apart have slots of their own. -/
theorem slotOf_inj {a q r : Nat} (hq : a ≤ q) (hq' : q < a + Config.chainCap) (hr : a ≤ r)
    (hr' : r < a + Config.chainCap) (h : slotOf q = slotOf r) : q = r := by
  unfold slotOf Config.chainCap at *
  omega

/-! ### Insert (R173) -/

theorem insert_at_end {s : State} {p : Nat} (h : s.m ≤ p + 1) : s.insert p = s := by
  simp [State.insert, h]

/-- The first position of its digraph starts a list. -/
theorem insert_of_tail_none {s : State} {p : Nat} (hp : p + 1 < s.m)
    (htail : s.tailT.get (s.digraph p) = none) :
    s.insert p = { s with
      nextT := s.nextT.clear (slotOf p), headT := s.headT.set (s.digraph p) p,
      tailT := s.tailT.set (s.digraph p) p, idx := s.idx ++ [p] } := by
  simp [State.insert, Nat.not_le.2 hp, htail]

/-- A later position is hung behind the last one of its digraph. -/
theorem insert_of_tail_some {s : State} {p t : Nat} (hp : p + 1 < s.m)
    (htail : s.tailT.get (s.digraph p) = some t) :
    s.insert p = { s with
      nextT := (s.nextT.clear (slotOf p)).set (slotOf t) p,
      tailT := s.tailT.set (s.digraph p) p, idx := s.idx ++ [p] } := by
  simp [State.insert, Nat.not_le.2 hp, htail]

theorem insert_wf {s : State} (p : Nat) (h : TablesWf s) : TablesWf (s.insert p) := by
  by_cases hp : s.m ≤ p + 1
  · rwa [insert_at_end hp]
  · obtain ⟨⟨hheads, htails, hnexts⟩, hhead, htail, hnext⟩ := h
    have hcleared := Table.wf_clear s.nextT (slotOf p) hnext
    cases ht : s.tailT.get (s.digraph p) with
    | none =>
      rw [insert_of_tail_none (by omega) ht]
      exact ⟨⟨Table.below_set hheads (digraph_lt s p), Table.below_set htails (digraph_lt s p),
        Table.below_clear hnexts⟩, Table.wf_set _ _ _ hhead, Table.wf_set _ _ _ htail, hcleared⟩
    | some t =>
      rw [insert_of_tail_some (by omega) ht]
      exact ⟨⟨hheads, Table.below_set htails (digraph_lt s p),
        Table.below_set (Table.below_clear hnexts) (slotOf_lt t)⟩, hhead,
        Table.wf_set _ _ _ htail, Table.wf_set _ _ _ hcleared⟩

/-- A chain depends on the slots of its positions only. -/
theorem chained_congr {n n' : Table} : ∀ {qs : List Nat} {start : Option Nat},
    (∀ q ∈ qs, n'.get (slotOf q) = n.get (slotOf q)) → Chained n start qs → Chained n' start qs
  | [], _, _, h => h
  | q :: qs, _, hsame, ⟨hq, hrest⟩ => by
    refine ⟨hq, ?_⟩
    rw [hsame q (List.mem_cons_self ..)]
    exact chained_congr (fun r hr => hsame r (List.mem_cons_of_mem _ hr)) hrest

/-- A chain is extended by hanging a position behind its last one. -/
theorem chained_extend {n n' : Table} {t p : Nat} (ht : n'.get (slotOf t) = some p)
    (hp : n'.get (slotOf p) = none) : ∀ {qs : List Nat} {start : Option Nat},
    (∀ q ∈ qs, n'.get (slotOf q) = n.get (slotOf q)) → Chained n start (qs ++ [t]) →
    Chained n' start (qs ++ [t] ++ [p])
  | [], _, _, ⟨hstart, _⟩ => ⟨hstart, ht, hp⟩
  | q :: qs, _, hsame, ⟨hq, hrest⟩ => by
    refine ⟨hq, ?_⟩
    rw [hsame q (List.mem_cons_self ..)]
    exact chained_extend ht hp (fun r hr => hsame r (List.mem_cons_of_mem _ hr)) hrest

/-- A position is in the list of its digraph only. -/
theorem mem_bucket {s : State} {d q : Nat} : q ∈ s.bucket d ↔ q ∈ s.idx ∧ s.digraph q = d := by
  simp [State.bucket]

/-- Appending to the index appends to one list. -/
theorem bucket_append {s t : State} {p : Nat} (hsrc : t.src = s.src) (hidx : t.idx = s.idx ++ [p])
    (d : Nat) : t.bucket d = if s.digraph p = d then s.bucket d ++ [p] else s.bucket d := by
  have hdig : t.digraph = s.digraph := by
    funext q
    simp [State.digraph, hsrc]
  unfold State.bucket
  rw [hidx, hdig, List.filter_append]
  split_ifs with h <;> simp [h]

theorem insert_idx {s : State} {p : Nat} (hp : p + 1 < s.m) :
    (s.insert p).idx = s.idx ++ [p] := by
  cases ht : s.tailT.get (s.digraph p) with
  | none => rw [insert_of_tail_none hp ht]
  | some t => rw [insert_of_tail_some hp ht]

theorem insert_bucket {s : State} {p : Nat} (hp : p + 1 < s.m) (d : Nat) :
    (s.insert p).bucket d = if s.digraph p = d then s.bucket d ++ [p] else s.bucket d :=
  bucket_append (by rw [insert_frame]) (insert_idx hp) d

/-- Inserting the first position of its digraph keeps the chains. -/
theorem insert_chain_first {s : State} {p : Nat} (hp : p + 1 < s.m) (hwf : TablesWf s)
    (hfree : ∀ q ∈ s.idx, slotOf q ≠ slotOf p) (h : TablesChain s)
    (ht : s.tailT.get (s.digraph p) = none) : TablesChain (s.insert p) := by
  obtain ⟨-, hhead, htail, hnext⟩ := hwf
  intro d
  obtain ⟨hchain, hlast⟩ := h d
  rw [insert_bucket hp, insert_of_tail_none hp ht]
  dsimp only
  rw [Table.get_set _ _ _ _ hhead, Table.get_set _ _ _ _ htail]
  by_cases hd : s.digraph p = d
  · subst hd
    rw [ht] at hlast
    rw [if_pos rfl, if_pos rfl, if_pos rfl, List.getLast?_eq_none_iff.1 hlast.symm]
    exact ⟨⟨rfl, by rw [Table.get_clear _ _ _ hnext, if_pos rfl]; rfl⟩, rfl⟩
  · rw [if_neg hd, if_neg (Ne.symm hd), if_neg (Ne.symm hd)]
    refine ⟨chained_congr (fun q hq => ?_) hchain, hlast⟩
    rw [Table.get_clear _ _ _ hnext, if_neg (hfree q (mem_bucket.1 hq).1)]

/-- Inserting a position behind the last one of its digraph keeps the chains. -/
theorem insert_chain_behind {s : State} {p t : Nat} (hp : p + 1 < s.m) (hwf : TablesWf s)
    (hfree : ∀ q ∈ s.idx, slotOf q ≠ slotOf p)
    (hinj : ∀ q ∈ s.idx, ∀ r ∈ s.idx, slotOf q = slotOf r → q = r) (hnodup : s.idx.Nodup)
    (h : TablesChain s) (ht : s.tailT.get (s.digraph p) = some t) :
    TablesChain (s.insert p) := by
  obtain ⟨-, -, htail, hnext⟩ := hwf
  have hcleared := Table.wf_clear s.nextT (slotOf p) hnext
  obtain ⟨front, hfront⟩ := List.getLast?_eq_some_iff.1 ((h (s.digraph p)).2.symm.trans ht)
  obtain ⟨htmem, htd⟩ := mem_bucket.1 (show t ∈ s.bucket (s.digraph p) by rw [hfront]; simp)
  have hget : ∀ q ∈ s.idx, q ≠ t →
      ((s.nextT.clear (slotOf p)).set (slotOf t) p).get (slotOf q) = s.nextT.get (slotOf q) := by
    intro q hq hne
    rw [Table.get_set _ _ _ _ hcleared, if_neg fun he => hne (hinj q hq t htmem he),
      Table.get_clear _ _ _ hnext, if_neg (hfree q hq)]
  intro d
  obtain ⟨hchain, hlast⟩ := h d
  rw [insert_bucket hp, insert_of_tail_some hp ht]
  dsimp only
  rw [Table.get_set _ _ _ _ htail]
  by_cases hd : s.digraph p = d
  · subst hd
    rw [if_pos rfl, if_pos rfl, hfront]
    rw [hfront] at hchain
    have hnd : (front ++ [t]).Nodup := hfront ▸ hnodup.filter _
    refine ⟨chained_extend ?_ ?_ (fun q hq => hget q ?_ ?_) hchain, by simp⟩
    · rw [Table.get_set _ _ _ _ hcleared, if_pos rfl]
    · rw [Table.get_set _ _ _ _ hcleared, if_neg (hfree t htmem).symm,
        Table.get_clear _ _ _ hnext, if_pos rfl]
    · exact (mem_bucket.1 (by rw [hfront]; exact List.mem_append_left _ hq)).1
    · rintro rfl
      exact List.disjoint_of_nodup_append hnd hq (List.mem_singleton_self _)
  · rw [if_neg hd, if_neg (Ne.symm hd)]
    refine ⟨chained_congr (fun q hq => ?_) hchain, hlast⟩
    obtain ⟨hqmem, hqd⟩ := mem_bucket.1 hq
    exact hget q hqmem fun he => hd (by rw [← htd, ← he, hqd])

/-- Inserting a position whose slot is free, after positions with slots of their own, keeps the chains. -/
theorem insert_chain {s : State} {p : Nat} (hp : p + 1 < s.m) (hwf : TablesWf s)
    (hfree : ∀ q ∈ s.idx, slotOf q ≠ slotOf p)
    (hinj : ∀ q ∈ s.idx, ∀ r ∈ s.idx, slotOf q = slotOf r → q = r) (hnodup : s.idx.Nodup)
    (h : TablesChain s) : TablesChain (s.insert p) := by
  cases ht : s.tailT.get (s.digraph p) with
  | none => exact insert_chain_first hp hwf hfree h ht
  | some t => exact insert_chain_behind hp hwf hfree hinj hnodup h ht

/-! ### Evict (R174) -/

theorem evict_of_not_mem {s : State} {q : Nat} (h : q ∉ s.idx) : s.evict q = s := by
  simp [State.evict, h]

theorem evict_wf {s : State} (q : Nat) (h : TablesWf s) : TablesWf (s.evict q) := by
  by_cases hq : q ∈ s.idx
  · obtain ⟨⟨hheads, htails, hnexts⟩, hhead, htail, hnext⟩ := h
    simp only [State.evict, hq, if_true]
    cases s.nextT.get (slotOf q) with
    | none =>
      exact ⟨⟨Table.below_clear hheads, Table.below_clear htails, hnexts⟩,
        Table.wf_clear _ _ hhead, Table.wf_clear _ _ htail, hnext⟩
    | some r =>
      exact ⟨⟨Table.below_set hheads (digraph_lt s q), htails, hnexts⟩,
        Table.wf_set _ _ _ hhead, htail, hnext⟩
  · rwa [evict_of_not_mem hq]

/-- Evicting the oldest position takes it off the index. -/
theorem evict_idx {s : State} {q : Nat} {rest : List Nat} (hidx : s.idx = q :: rest)
    (hnodup : s.idx.Nodup) : (s.evict q).idx = rest := by
  rw [hidx] at hnodup
  obtain ⟨hq, -⟩ := List.nodup_cons.1 hnodup
  have hfilter : rest.filter (fun x => x ≠ q) = rest :=
    List.filter_eq_self.2 fun x hx => decide_eq_true fun he => hq (he ▸ hx)
  simpa [State.evict, hidx] using hfilter

/-- Evicting the oldest position keeps the chains. -/
theorem evict_chain {s : State} {q : Nat} {rest : List Nat} (hidx : s.idx = q :: rest)
    (hnodup : s.idx.Nodup) (hwf : TablesWf s) (h : TablesChain s) : TablesChain (s.evict q) := by
  obtain ⟨-, hhead, htail, -⟩ := hwf
  have hdig : (s.evict q).digraph = s.digraph := by
    rw [evict_frame]
    rfl
  intro d
  obtain ⟨hchain, hlast⟩ := h d
  have hnew : (s.evict q).bucket d = rest.filter (fun r => s.digraph r = d) := by
    rw [State.bucket, evict_idx hidx hnodup, hdig]
  have hold : s.bucket d =
      if s.digraph q = d then q :: rest.filter (fun r => s.digraph r = d)
      else rest.filter (fun r => s.digraph r = d) := by
    rw [State.bucket, hidx, List.filter_cons]
    simp
  rw [hnew]
  rw [hold] at hchain hlast
  generalize rest.filter (fun r => s.digraph r = d) = bucket at hchain hlast
  have hmem : q ∈ s.idx := by rw [hidx]; exact List.mem_cons_self ..
  simp only [State.evict, hmem, if_true]
  rw [Table.get_put _ _ _ _ hhead]
  by_cases hd : s.digraph q = d
  · rw [if_pos hd] at hchain hlast
    rw [if_pos hd.symm]
    refine ⟨hchain.2, ?_⟩
    cases bucket with
    | nil =>
      have hnil : s.nextT.get (slotOf q) = none := hchain.2
      simp only [hnil]
      rw [Table.get_clear _ _ _ htail, if_pos hd.symm]
      rfl
    | cons r rs =>
      have hsome : s.nextT.get (slotOf q) = some r := hchain.2.1
      simp only [hsome]
      rw [hlast, List.getLast?_cons_cons]
  · rw [if_neg hd] at hchain hlast
    rw [if_neg (Ne.symm hd)]
    refine ⟨hchain, ?_⟩
    cases s.nextT.get (slotOf q) with
    | none =>
      dsimp only
      rw [Table.get_clear _ _ _ htail, if_neg (Ne.symm hd), hlast]
    | some r => exact hlast

/-- Evicting the oldest position of a stretch, if there is one, leaves the rest of it and keeps the chains. -/
theorem evict_stretch {s : State} {a len : Nat} (hidx : s.idx = List.range' a len)
    (hwf : TablesWf s) (h : TablesChain s) :
    (s.evict a).idx = List.range' (a + 1) (len - 1) ∧ TablesChain (s.evict a) := by
  cases len with
  | zero =>
    rw [evict_of_not_mem (by rw [hidx]; exact List.not_mem_nil)]
    exact ⟨hidx, h⟩
  | succ len =>
    have hnodup : s.idx.Nodup := hidx ▸ List.nodup_range'
    rw [List.range'_succ] at hidx
    exact ⟨evict_idx hidx hnodup, evict_chain hidx hnodup hwf h⟩

/-! ### The window (R175) -/

/-- The numbers below `n` from `a` on and below `b`. -/
theorem filter_range_eq_range' (a b n : Nat) :
    (List.range n).filter (fun q => decide (a ≤ q ∧ q < b)) = List.range' a (min b n - a) := by
  induction n with
  | zero => simp
  | succ n ih =>
    rw [List.range_succ, List.filter_append, ih]
    by_cases h : a ≤ n ∧ n < b
    · rw [show min b (n + 1) - a = min b n - a + 1 by omega, List.range'_1_concat,
        show a + (min b n - a) = n by omega]
      simp [h]
    · rw [show min b (n + 1) - a = min b n - a by omega]
      simp [h]

/-- The window is a stretch of positions: from `pos - 8191` up to `pos`, as far as they start a digraph. -/
theorem windowOf_eq_range' (pos m : Nat) :
    windowOf pos m =
      List.range' (pos - Config.window) (min pos (m - 1) - (pos - Config.window)) := by
  rw [← filter_range_eq_range', windowOf]
  refine List.filter_congr fun q _ => decide_eq_decide.2 ?_
  omega

theorem windowOf_length_le (pos m : Nat) : (windowOf pos m).length ≤ Config.window := by
  rw [windowOf_eq_range', List.length_range']
  omega

/-! ### The invariant over an advance (R184) -/

/-- What holds of MF's position, index and tables between two advances. -/
def Scanning (s : State) : Prop :=
  s.pos ≤ s.m ∧ s.idx = windowOf s.pos s.m ∧ TablesChain s ∧ TablesWf s

theorem finderInv_iff (s : State) : FinderInv s ↔ (s.mst = .scan → Scanning s) := by
  refine forall_congr' fun _ => and_congr_right fun _ => and_congr_right fun hidx => ?_
  have hlen : s.idx.length ≤ Config.window := hidx ▸ windowOf_length_le s.pos s.m
  rw [tablesAgree_iff]
  exact and_congr_left fun _ => and_iff_right hlen

/-- After the insertion of `Advance()` the index is the old window and the position left. -/
theorem insert_pos_idx {s : State} (hpos : s.pos < s.m) (hidx : s.idx = windowOf s.pos s.m) :
    (s.insert s.pos).idx = List.range' (s.pos - Config.window)
      (min (s.pos + 1) (s.m - 1) - (s.pos - Config.window)) := by
  rw [windowOf_eq_range'] at hidx
  by_cases hp : s.m ≤ s.pos + 1
  · rw [insert_at_end hp, hidx, show min (s.pos + 1) (s.m - 1) = min s.pos (s.m - 1) by omega]
  · rw [insert_idx (by omega), hidx, show min (s.pos + 1) (s.m - 1) - (s.pos - Config.window) =
      min s.pos (s.m - 1) - (s.pos - Config.window) + 1 by omega, List.range'_1_concat,
      show s.pos - Config.window + (min s.pos (s.m - 1) - (s.pos - Config.window)) = s.pos by omega]

/-- The insertion of `Advance()` keeps the chains: no two positions of the window and `pos` share a slot. -/
theorem insert_pos_chain {s : State} (h : Scanning s) : TablesChain (s.insert s.pos) := by
  obtain ⟨-, hidx, hchain, hwf⟩ := h
  rw [windowOf_eq_range'] at hidx
  by_cases hp : s.m ≤ s.pos + 1
  · rwa [insert_at_end hp]
  · have hmem : ∀ q ∈ s.idx, s.pos - Config.window ≤ q ∧ q < s.pos := by
      intro q hq
      rw [hidx, List.mem_range'_1] at hq
      omega
    have hcap : s.pos < s.pos - Config.window + Config.chainCap := by
      unfold Config.window Config.chainCap
      omega
    refine insert_chain (by omega) hwf (fun q hq he => ?_) (fun q hq r hr he => ?_)
      (hidx ▸ List.nodup_range') hchain
    · obtain ⟨hlo, hhi⟩ := hmem q hq
      exact hhi.ne (slotOf_inj hlo (hhi.trans hcap) (Nat.sub_le _ _) hcap he)
    · obtain ⟨hlo, hhi⟩ := hmem q hq
      obtain ⟨hlo', hhi'⟩ := hmem r hr
      exact slotOf_inj hlo (hhi.trans hcap) hlo' (hhi'.trans hcap) he

/-- `Advance()` is the insertion, the move of `pos`, and, past 8191 positions, the eviction of the oldest (R184). -/
theorem advance_eq (s : State) :
    s.advance = if s.pos + 1 < Config.chainCap then { s.insert s.pos with pos := s.pos + 1 }
      else { s.insert s.pos with pos := s.pos + 1 }.evict (s.pos + 1 - Config.chainCap) := by
  have hpos : (s.insert s.pos).pos = s.pos := by rw [insert_frame]
  unfold State.advance
  dsimp only
  rw [hpos]

theorem advance_pos (s : State) : s.advance.pos = s.pos + 1 := by rw [advance_frame]

theorem advance_m (s : State) : s.advance.m = s.m := by rw [advance_frame]

/-- While the window begins at 0 an advance only lengthens it. -/
theorem windowOf_succ_of_lt {pos m : Nat} (h : pos + 1 < Config.chainCap) :
    windowOf (pos + 1) m = List.range' (pos - Config.window)
      (min (pos + 1) (m - 1) - (pos - Config.window)) := by
  rw [windowOf_eq_range', show pos + 1 - Config.window = pos - Config.window by
    unfold Config.window Config.chainCap at *; omega]

/-- Later an advance moves the window's beginning too. -/
theorem windowOf_succ_of_le {pos m : Nat} (h : Config.chainCap ≤ pos + 1) :
    windowOf (pos + 1) m = List.range' (pos - Config.window + 1)
      (min (pos + 1) (m - 1) - (pos - Config.window) - 1) := by
  rw [windowOf_eq_range', show pos + 1 - Config.window = pos - Config.window + 1 by
    unfold Config.window Config.chainCap at *; omega, Nat.sub_sub]

/-- `Advance()` keeps the index exactly the window and the tables in agreement with it (R175, R28). -/
theorem advance_scanning {s : State} (hlt : s.pos < s.m) (h : Scanning s) : Scanning s.advance := by
  have hchain := insert_pos_chain h
  obtain ⟨-, hidx, -, hwf⟩ := h
  have hwf' := insert_wf s.pos hwf
  have hidx' := insert_pos_idx hlt hidx
  refine ⟨by rw [advance_pos, advance_m]; exact hlt, ?_⟩
  rw [advance_pos, advance_m, advance_eq]
  split_ifs with hcap
  · rw [windowOf_succ_of_lt hcap]
    exact ⟨hidx', hchain, hwf'⟩
  · rw [windowOf_succ_of_le (Nat.not_lt.1 hcap),
      show s.pos + 1 - Config.chainCap = s.pos - Config.window from Nat.add_sub_add_right _ 1 _]
    obtain ⟨hrest, hkept⟩ :=
      evict_stretch (s := { s.insert s.pos with pos := s.pos + 1 }) hidx' hwf' hchain
    exact ⟨hrest, hkept, evict_wf (s := { s.insert s.pos with pos := s.pos + 1 }) _ hwf'⟩

/-- Any number of advances inside SRC keep the invariant. -/
theorem advanceN_scanning (k : Nat) : ∀ {s : State}, s.pos + k ≤ s.m → Scanning s →
    Scanning (s.advanceN k) := by
  induction k with
  | zero => exact fun _ h => h
  | succ k ih =>
    intro s hk h
    exact ih (by rw [advance_pos, advance_m]; omega) (advance_scanning (by omega) h)

/-! ### A command covers no more than is left of SRC (R187) -/

theorem commonRun_le (s : State) (cap : Nat) : ∀ q p : Nat, s.commonRun q p cap ≤ cap := by
  induction cap with
  | zero => exact fun _ _ => le_rfl
  | succ cap ih =>
    intro q p
    have := ih (q + 1) (p + 1)
    rw [State.commonRun]
    split <;> omega

theorem sameRun_le (s : State) (b : Byte) (cap : Nat) : ∀ p : Nat, s.sameRun b p cap ≤ cap := by
  induction cap with
  | zero => exact fun _ => le_rfl
  | succ cap ih =>
    intro p
    have := ih (p + 1)
    rw [State.sameRun]
    split <;> omega

theorem foldl_better_le (s : State) (p : Nat) (qs : List Nat) : ∀ best : Option Nat × Nat,
    best.2 ≤ s.m - p → (qs.foldl (s.better p) best).2 ≤ s.m - p := by
  induction qs with
  | nil => exact fun _ h => h
  | cons q qs ih =>
    refine fun best h => ih _ ?_
    have hrun := commonRun_le s (s.matchCap p) q p
    have hcap : s.matchCap p ≤ s.m - p := Nat.min_le_right _ _
    simp only [State.better]
    split
    · exact hrun.trans hcap
    · exact h

theorem find_length_le (s : State) (p : Nat) : (s.find p).2 ≤ s.m - p := by
  have hbest := foldl_better_le s p (s.candidates p) (none, 0) (Nat.zero_le _)
  unfold State.find answerOf
  split
  · exact Nat.zero_le _
  · split
    · exact Nat.zero_le _
    · exact hbest

theorem runLength_le {s : State} {p : Nat} (hp : p < s.m) : s.runLength p ≤ s.m - p := by
  have hrun := sameRun_le s (s.src.read p) (min s.mfFillMax (s.m - p) - 1) (p + 1)
  unfold State.runLength
  omega

theorem chosen_length_le {s : State} (hpos : s.pos < s.m) :
    commandLength s.chosen ≤ s.m - s.pos := by
  unfold State.chosen State.select
  dsimp only
  split_ifs
  · exact runLength_le hpos
  · exact find_length_le s s.pos
  · show 1 ≤ _
    omega

/-! ### The invariant over a step (R28, R175) -/

/-- A run begins with an empty index and empty tables (R31). -/
theorem startMf_scanning (s : State) : Scanning (startMf s) := by
  refine ⟨Nat.zero_le _, ?_, fun _ => ⟨rfl, rfl⟩, ⟨nofun, nofun, nofun⟩, .nil, .nil, .nil⟩
  show [] = windowOf 0 s.m
  simp [windowOf]

theorem mfStep_scanning {s t : State} (hs : s.mst = .scan → Scanning s) (h : mfStep s = .next t)
    (ht : t.mst = .scan) : Scanning t := by
  rcases mfStep_cases h with ⟨hmst, rfl⟩ | ⟨-, rfl⟩ | ⟨hmst, hpos, rfl⟩
  · exact absurd ht hmst
  · cases ht
  · have hle := chosen_length_le hpos
    refine advanceN_scanning _ ?_ (hs hmst)
    show s.pos + _ ≤ s.m
    omega

theorem HostMove.scanning {s t : State} (hs : s.mst = .scan → Scanning s) (h : HostMove s t)
    (ht : t.mst = .scan) : Scanning t := by
  cases h with
  | reset => cases ht
  | startedMf => exact startMf_scanning s
  | wroteMf hmf =>
    have hmst : s.mst = .scan := ht
    rw [hmst] at hmf
    cases hmf
  | startedDec | startedFr | wroteDec | wroteFr | wasRead => exact hs ht

/-- Settles O50: MF's advances keep the index and the tables, and no other agent touches them. -/
theorem stepKeepsFinderInvariant : Obligations.StepKeepsFinderInvariant := by
  intro s t hs h
  rw [finderInv_iff] at hs ⊢
  refine step_preserves (P := fun u => u.mst = .scan → Scanning u) (fun _ _ hs => hs)
    (fun _ _ => HostMove.scanning) (fun u v hu hmove => ?_) (fun u v hu hmove => ?_)
    (fun _ _ => mfStep_scanning) hs h
  · rw [hmove.frame]
    exact hu
  · rw [hmove.frame]
    exact hu

end Sys2Proof.Machine

namespace Sys2Proof.Machine

/-! ## The canonical form of the byte spaces (log 1) -/

/-! ### The sink and errors -/

theorem Memory.wf_nil : Memory.wf [] := ⟨.nil, fun _ hc => absurd hc List.not_mem_nil⟩

/-- OUT is written through `Memory.write` in MATERIALIZE mode and left alone in SIZE_ONLY mode (R150, R151). -/
theorem putByte_out_wf {s : State} (b : Byte) (h : s.out.wf) : (s.putByte b).out.wf := by
  unfold State.putByte
  dsimp only
  split
  · exact Memory.wf_write _ _ _ h
  · exact h

theorem putBytes_out_wf (bs : List Byte) : ∀ {s : State}, s.out.wf → (putBytes bs s).out.wf := by
  induction bs with
  | nil => exact fun h => h
  | cons b bs ih => exact fun h => ih (putByte_out_wf b h)

/-- What an error leaves of OUT (R222). -/
theorem raise_out (e : Error) (s : State) : (raise e s).out = s.scrubDec.out := by
  cases e <;> cases h : s.framed <;>
    simp [raise, State.recordError, State.scrubDec, State.scrubFr, h]

/-- What an error leaves of SOUT: a framed run's is unspecified (R222). -/
theorem raise_sout (e : Error) (s : State) :
    (raise e s).sout = if s.framed then s.scrubFr.sout else s.sout := by
  cases e <;> cases h : s.framed <;>
    simp [raise, State.recordError, State.scrubDec, State.scrubFr, h]

/-- The bytes an error leaves in OUT are unspecified, their canonical form is not. -/
theorem scrubDec_out_wf {s : State} (h : s.out.wf) : s.scrubDec.out.wf := by
  unfold State.scrubDec
  dsimp only
  split
  · exact Memory.wf_ofBytes _
  · exact h

theorem scrubFr_sout_wf {s : State} (h : s.sout.wf) : s.scrubFr.sout.wf := by
  unfold State.scrubFr
  dsimp only
  split
  · exact Memory.wf_ofBytes _
  · exact h

theorem raise_spacesCanonical (e : Error) {s : State} (hs : SpacesCanonical s) :
    SpacesCanonical (raise e s) := by
  obtain ⟨hinp, hout, hfs, hsout, hsrc⟩ := hs
  have hout' : (raise e s).out.wf := raise_out e s ▸ scrubDec_out_wf hout
  have hsout' : (raise e s).sout.wf := by
    rw [raise_sout]
    split
    · exact scrubFr_sout_wf hsout
    · exact hsout
  rw [raise_frame] at hout' hsout' ⊢
  exact ⟨hinp, hout', hfs, hsout', hsrc⟩

/-! ### The agents -/

theorem DecMove.spacesCanonical {s t : State} (hs : SpacesCanonical s) (h : DecMove s t) :
    SpacesCanonical t := by
  cases h with
  | waits | header | legSelected | ended | exhausted => exact hs
  | raised _ c k o e =>
    have hprep : SpacesCanonical (s.prepared c k o) := hs
    exact raise_spacesCanonical e hprep
  | appended c _ k o bs =>
    obtain ⟨hinp, hout, hfs, hsout, hsrc⟩ := hs
    have hout' : (putBytes bs (s.prepared c k o)).out.wf := putBytes_out_wf bs hout
    rw [putBytes_frame] at hout' ⊢
    exact ⟨hinp, hout', hfs, hsout, hsrc⟩

/-- A payload's run starts on the payload's own IN and an empty OUT (R30, R203). -/
theorem payloadStart_spacesCanonical (p : List Byte) {s : State} (hs : SpacesCanonical s) :
    SpacesCanonical (frLoad p s).decStarted := by
  obtain ⟨-, -, hfs, hsout, hsrc⟩ := hs
  exact ⟨Memory.wf_ofBytes p, Memory.wf_nil, hfs, hsout, hsrc⟩

/-- FrPayload's end writes the run's output to SOUT, or nothing (R203). -/
theorem frEndPayload_spacesCanonical {u : State} (hu : SpacesCanonical u) :
    SpacesCanonical (frEndPayload u) := by
  obtain ⟨hinp, hout, hfs, hsout, hsrc⟩ := hu
  have hcollect : (frCollect u).sout.wf := by
    unfold frCollect
    dsimp only
    split
    · exact Memory.wf_writeBytes _ _ _ hsout
    · exact hsout
  unfold frEndPayload
  split
  · exact ⟨hinp, hout, hfs, hcollect, hsrc⟩
  all_goals exact ⟨hinp, hout, hfs, hsout, hsrc⟩

theorem FrMove.spacesCanonical {s t : State} (hs : SpacesCanonical s) (h : FrMove s t) :
    SpacesCanonical t := by
  cases h with
  | waits | lengthRead | contRead => exact hs
  | raised _ fp e =>
    have hmoved : SpacesCanonical { s with fp := fp } := hs
    exact raise_spacesCanonical e hmoved
  | payloadRun _ p _ u hrun =>
    have hmoved : SpacesCanonical { s with fp := s.fp + s.plen } := hs
    exact frEndPayload_spacesCanonical <| decSteps_preserves
      (fun _ _ => DecMove.spacesCanonical) _ (payloadStart_spacesCanonical p hmoved) hrun

theorem mfStep_spacesCanonical {s t : State} (hs : SpacesCanonical s) (h : mfStep s = .next t) :
    SpacesCanonical t := by
  obtain ⟨pos, idx, headT, tailT, nextT, cmdq, mst, rfl⟩ := mfStep_frame h
  exact hs

theorem agentStep_spacesCanonical {g : Agent} {s t : State} (hs : SpacesCanonical s)
    (h : agentStep g s = .next t) : SpacesCanonical t := by
  cases g with
  | dec => exact (decStep_move h).spacesCanonical hs
  | fr => exact (frStep_move h).spacesCanonical hs
  | mf => exact mfStep_spacesCanonical hs h

/-! ### The host and the machine's step -/

theorem hostStartDec_next {s t : State} (h : hostStartDec s = .next t) : t = s.decStarted := by
  obtain ⟨-, he⟩ | ⟨-, he⟩ := hostStartDec_cases s <;> rw [he] at h
  · obtain ⟨-, he⟩ | ⟨-, he⟩ := startDec_cases s <;> rw [he] at h <;> cases h
    rfl
  · cases h

theorem hostStartFr_next {s t : State} (h : hostStartFr s = .next t) : t = startFr s := by
  obtain ⟨-, he⟩ | ⟨-, he⟩ := hostStartFr_cases s <;> rw [he] at h <;> cases h
  rfl

theorem hostStartMf_next {s t : State} (h : hostStartMf s = .next t) : t = startMf s := by
  obtain ⟨-, he⟩ | ⟨-, he⟩ := hostStartMf_cases s <;> rw [he] at h <;> cases h
  rfl

/-- An action of the host resets the spaces, empties an output space, or writes one byte of an input space. `HostMove`
does not say which bytes a write leaves, so this follows the actions themselves. -/
theorem hostAct_spacesCanonical {a : HostAction} {s t : State} (hs : SpacesCanonical s)
    (h : hostAct a s = .next t) : SpacesCanonical t := by
  have ⟨hinp, hout, hfs, hsout, hsrc⟩ := hs
  cases a with
  | reset =>
    cases h
    exact reset_spaces_wf
  | startDec =>
    obtain rfl := hostStartDec_next h
    exact ⟨hinp, Memory.wf_nil, hfs, hsout, hsrc⟩
  | startFr =>
    obtain rfl := hostStartFr_next h
    exact ⟨hinp, hout, hfs, Memory.wf_nil, hsrc⟩
  | startMf =>
    obtain rfl := hostStartMf_next h
    exact hs
  | writeIn ad b =>
    obtain ⟨-, rfl⟩ := writeUnless_next h
    exact ⟨Memory.wf_write _ ad b hinp, hout, hfs, hsout, hsrc⟩
  | writeFs ad b =>
    obtain ⟨-, rfl⟩ := writeUnless_next h
    exact ⟨hinp, hout, Memory.wf_write _ ad b hfs, hsout, hsrc⟩
  | writeSrc ad b =>
    obtain ⟨-, rfl⟩ := writeUnless_next h
    exact ⟨hinp, hout, hfs, hsout, Memory.wf_write _ ad b hsrc⟩
  | writeN | writeSinkMode | writeFn | writeM =>
    obtain ⟨-, rfl⟩ := writeUnless_next h
    exact hs
  | writeMfParam p v =>
    obtain ⟨-, rfl⟩ := writeUnless_next h
    obtain ⟨lo, hi, fillLo, fillHi, he⟩ := setMfParam_eq s p v
    rw [he]
    exact hs
  | read r =>
    obtain ⟨d, rfl⟩ := hostRead_frame h
    exact hs

/-- With no turn due the agent that moves by itself takes its step (log 6). -/
theorem step_of_no_agenda {s : State} (h : s.agenda = []) : step s = agentStep s.mover s := by
  simp [step, moveOf, h]

/-- Settles O46: a turn taken off the agenda is in no space, and every action of the host and every step of an agent
keeps the form. -/
theorem stepKeepsSpacesCanonical : Obligations.StepKeepsSpacesCanonical := by
  intro s t hs h
  cases hagenda : s.agenda with
  | nil =>
    rw [step_of_no_agenda hagenda] at h
    exact agentStep_spacesCanonical hs h
  | cons turn rest =>
    have htaken : SpacesCanonical { s with agenda := rest } := hs
    cases turn with
    | host a =>
      rw [step_of_host hagenda] at h
      exact hostAct_spacesCanonical htaken h
    | agent g =>
      rw [step_of_agent hagenda] at h
      exact agentStep_spacesCanonical htaken h

end Sys2Proof.Machine

/-! ## Encoding and decoding

`spells` is the common measure of the two formats: every reader answers a value exactly when the stream spells the
elements of that value. The round trips and the runs of assembled programs rest on these equivalences. -/

namespace Sys2Proof.Machine

/-! ### Elements in a stream -/

@[simp] theorem spells_nil (rd : Source) (c : Cursor) : spells rd [] c = some c := rfl

theorem spells_bit_cons {rd : Source} {b : Bool} {es : List Elem} {c c' : Cursor} :
    spells rd (.bit b :: es) c = some c' ↔
      ∃ c1, readBit rd c = some (b, c1) ∧ spells rd es c1 = some c' := by
  rw [spells]
  cases readBit rd c with
  | none => simp
  | some p => grind

theorem spells_byte_cons {rd : Source} {b : Byte} {es : List Elem} {c c' : Cursor} :
    spells rd (.byte b :: es) c = some c' ↔
      ∃ c1, byteRead rd c = some (b, c1) ∧ spells rd es c1 = some c' := by
  rw [spells]
  cases byteRead rd c with
  | none => simp
  | some p => grind

theorem spells_append {rd : Source} {xs ys : List Elem} {c c' : Cursor} :
    spells rd (xs ++ ys) c = some c' ↔
      ∃ c1, spells rd xs c = some c1 ∧ spells rd ys c1 = some c' := by
  induction xs generalizing c with
  | nil => simp
  | cons x xs ih =>
    cases x with
    | bit b => grind [spells_bit_cons]
    | byte b => grind [spells_byte_cons]

theorem spells_bit {rd : Source} {b : Bool} {c c' : Cursor} :
    spells rd [.bit b] c = some c' ↔ readBit rd c = some (b, c') := by
  simp [spells_bit_cons]

theorem spells_byte {rd : Source} {b : Byte} {c c' : Cursor} :
    spells rd [.byte b] c = some c' ↔ byteRead rd c = some (b, c') := by
  simp [spells_byte_cons]

theorem readBitList_eq_some {rd : Source} {n : Nat} {bits : List Bool} {c c' : Cursor} :
    readBitList rd n c = some (bits, c') ↔
      bits.length = n ∧ spells rd (bits.map .bit) c = some c' := by
  induction n generalizing bits c with
  | zero => cases bits <;> simp [readBitList, spells]
  | succ n ih =>
    rw [readBitList]
    cases bits with
    | nil => grind
    | cons b bs =>
      rw [List.map_cons, spells_bit_cons]
      cases readBit rd c with
      | none => simp
      | some p =>
        cases h : readBitList rd n p.2 <;> grind

theorem readByteList_eq_some {rd : Source} {n : Nat} {bytes : List Byte} {c c' : Cursor} :
    readByteList rd n c = some (bytes, c') ↔
      bytes.length = n ∧ spells rd (bytes.map .byte) c = some c' := by
  induction n generalizing bytes c with
  | zero => cases bytes <;> simp [readByteList, spells]
  | succ n ih =>
    rw [readByteList]
    cases bytes with
    | nil => grind
    | cons b bs =>
      rw [List.map_cons, spells_byte_cons]
      cases byteRead rd c with
      | none => simp
      | some p =>
        cases h : readByteList rd n p.2 <;> grind

/-! ### Fields (R66, R94)

Both orders are the same two digit systems, lowest digit first: msb_first reads them backwards and has the bits above
the bytes, lsb_first reads them forwards and has the bytes above the bits. -/

/-- The value with the given low bits, lowest first, and `t` above them. -/
def aboveBits (bits : List Bool) (t : Nat) : Nat := bits.foldr (fun b x => b.toNat + 2 * x) t

/-- The value with the given low bytes, lowest first, and `t` above them. -/
def aboveBytes (bytes : List Byte) (t : Nat) : Nat := bytes.foldr (fun y x => y.toNat + 256 * x) t

/-- The `k` low bits of a value, lowest first. -/
def lowBits (k v : Nat) : List Bool := (List.range k).map v.testBit

/-- The `k` low bytes of a value, lowest first. -/
def lowBytes (k v : Nat) : List Byte := (List.range k).map fun i => BitVec.ofNat 8 (v >>> (8 * i))

theorem lowBits_succ (k v : Nat) : lowBits (k + 1) v = v.testBit 0 :: lowBits k (v / 2) := by
  simp [lowBits, List.range_succ_eq_map, Function.comp_def, Nat.testBit_succ]

theorem shiftRight_byte_succ (k v : Nat) : v >>> (8 * (k + 1)) = (v / 256) >>> (8 * k) := by
  rw [Nat.mul_add, Nat.add_comm, Nat.shiftRight_add, Nat.shiftRight_eq_div_pow v]

theorem lowBytes_succ (k v : Nat) :
    lowBytes (k + 1) v = BitVec.ofNat 8 v :: lowBytes k (v / 256) := by
  simp only [lowBytes, List.range_succ_eq_map, List.map_cons, List.map_map, Function.comp_def,
    Nat.mul_zero, Nat.shiftRight_zero, List.cons.injEq, true_and]
  exact List.map_congr_left fun i _ => by rw [Nat.succ_eq_add_one, shiftRight_byte_succ]

theorem bool_add_two_mul_eq_iff {b : Bool} {x v : Nat} :
    b.toNat + 2 * x = v ↔ b = v.testBit 0 ∧ x = v / 2 := by
  rw [Nat.testBit_zero]
  cases b <;> simp <;> omega

theorem byte_add_256_mul_eq_iff {y : Byte} {x v : Nat} :
    y.toNat + 256 * x = v ↔ y = BitVec.ofNat 8 v ∧ x = v / 256 := by
  have hy := y.isLt
  rw [← BitVec.toNat_inj, BitVec.toNat_ofNat]
  omega

theorem aboveBits_eq_iff {bits : List Bool} {t v : Nat} :
    aboveBits bits t = v ↔ bits = lowBits bits.length v ∧ t = v >>> bits.length := by
  induction bits generalizing v with
  | nil => simp [aboveBits, lowBits]
  | cons b bs ih =>
    have hcons : aboveBits (b :: bs) t = b.toNat + 2 * aboveBits bs t := rfl
    rw [hcons, bool_add_two_mul_eq_iff, ih, List.length_cons, lowBits_succ, List.cons.injEq,
      and_assoc, Nat.add_comm bs.length, Nat.shiftRight_add]
    rfl

theorem aboveBytes_eq_iff {bytes : List Byte} {t v : Nat} :
    aboveBytes bytes t = v ↔ bytes = lowBytes bytes.length v ∧ t = v >>> (8 * bytes.length) := by
  induction bytes generalizing v with
  | nil => simp [aboveBytes, lowBytes]
  | cons y ys ih =>
    have hcons : aboveBytes (y :: ys) t = y.toNat + 256 * aboveBytes ys t := rfl
    rw [hcons, byte_add_256_mul_eq_iff, ih, List.length_cons, lowBytes_succ, List.cons.injEq,
      and_assoc, shiftRight_byte_succ]

theorem assembleField_msbFirst (bits : List Bool) (bytes : List Byte) :
    assembleField .msbFirst bits bytes = aboveBytes bytes.reverse (aboveBits bits.reverse 0) := by
  simp [assembleField, aboveBytes, aboveBits, Nat.add_comm]

theorem reverse_fieldBits_msbFirst (n v : Nat) :
    (fieldBits .msbFirst n v).reverse = lowBits (n % 8) (v >>> (8 * (n / 8))) := by
  refine List.ext_getElem (by simp [fieldBits, lowBits]) fun i h _ => ?_
  simp only [fieldBits, List.length_reverse, List.length_map, List.length_range] at h
  simp only [fieldBits, lowBits, List.getElem_reverse, List.getElem_map, List.getElem_range,
    List.length_map, List.length_range, Nat.testBit_shiftRight]
  congr 1
  omega

theorem reverse_fieldBytes_msbFirst (n v : Nat) :
    (fieldBytes .msbFirst n v).reverse = lowBytes (n / 8) v := by
  refine List.ext_getElem (by simp [fieldBytes, lowBytes]) fun i h _ => ?_
  simp only [fieldBytes, List.length_reverse, List.length_map, List.length_range] at h
  simp only [fieldBytes, lowBytes, List.getElem_reverse, List.getElem_map, List.getElem_range,
    List.length_map, List.length_range]
  congr 3
  omega

theorem fieldBytes_lsbFirst (n v : Nat) :
    fieldBytes .lsbFirst n v = lowBytes (n / 8) (v >>> (n % 8)) := by
  simp [fieldBytes, lowBytes, Nat.shiftRight_add]

@[simp] theorem length_fieldBits (fo : FieldOrder) (n v : Nat) :
    (fieldBits fo n v).length = n % 8 := by cases fo <;> simp [fieldBits]

@[simp] theorem length_fieldBytes (fo : FieldOrder) (n v : Nat) :
    (fieldBytes fo n v).length = n / 8 := by cases fo <;> simp [fieldBytes]

/-- Nothing is left above an `n`-bit value, whichever part of the field is shifted out first. -/
theorem zero_eq_shiftRight_iff {n v a b : Nat} (h : a + b = n) : 0 = v >>> a >>> b ↔ v < 2 ^ n := by
  rw [← Nat.shiftRight_add, h, eq_comm, Nat.shiftRight_eq_div_pow,
    Nat.div_eq_zero_iff_lt (Nat.two_pow_pos n)]

/-- The elements of a field give a value exactly when they are the elements of that value. -/
theorem assembleField_eq_iff {fo : FieldOrder} {n v : Nat} {bits : List Bool} {bytes : List Byte}
    (hbits : bits.length = n % 8) (hbytes : bytes.length = n / 8) :
    assembleField fo bits bytes = v ↔
      v < 2 ^ n ∧ bits = fieldBits fo n v ∧ bytes = fieldBytes fo n v := by
  cases fo with
  | msbFirst =>
    rw [assembleField_msbFirst, aboveBytes_eq_iff, aboveBits_eq_iff, List.length_reverse,
      List.length_reverse, hbits, hbytes, zero_eq_shiftRight_iff (n := n) (by omega),
      ← reverse_fieldBits_msbFirst, ← reverse_fieldBytes_msbFirst, List.reverse_inj,
      List.reverse_inj]
    tauto
  | lsbFirst =>
    change aboveBits bits (aboveBytes bytes 0) = v ↔ _
    rw [aboveBits_eq_iff, aboveBytes_eq_iff, hbits, hbytes,
      zero_eq_shiftRight_iff (n := n) (by omega), ← fieldBytes_lsbFirst]
    change bits = fieldBits .lsbFirst n v ∧ _ ↔ _
    tauto

/-- `Bits(n)` delivers a value exactly when the value has `n` bits and the stream spells them (R66, R94). -/
theorem readBits_eq_some_iff_spells {fo : FieldOrder} {rd : Source} {n v : Nat} {c c' : Cursor} :
    readBits fo rd n c = some (v, c') ↔
      v < 2 ^ n ∧ spells rd (encodeField fo n v) c = some c' := by
  rw [readBits_eq_some, encodeField, spells_append]
  constructor
  · rintro ⟨bits, c1, bytes, hbits, hbytes, hv⟩
    obtain ⟨hlen, hbits⟩ := readBitList_eq_some.1 hbits
    obtain ⟨hlen', hbytes⟩ := readByteList_eq_some.1 hbytes
    obtain ⟨hlt, rfl, rfl⟩ := (assembleField_eq_iff hlen hlen').1 hv.symm
    exact ⟨hlt, c1, hbits, hbytes⟩
  · rintro ⟨hlt, c1, hbits, hbytes⟩
    refine ⟨_, c1, _, readBitList_eq_some.2 ⟨length_fieldBits fo n v, hbits⟩,
      readByteList_eq_some.2 ⟨length_fieldBytes fo n v, hbytes⟩, Eq.symm ?_⟩
    exact (assembleField_eq_iff (length_fieldBits fo n v) (length_fieldBytes fo n v)).2
      ⟨hlt, rfl, rfl⟩

/-- Settles O12: the elements read are those of the value, and its bits and its byte can be looked up there. -/
theorem fieldsAreBitsThenBytes : Obligations.FieldsAreBitsThenBytes := by
  intro fo rd n v c c' h
  obtain ⟨bits, c1, bytes, hbits, hbytes, hv⟩ := readBits_eq_some.1 h
  obtain ⟨hlt, heqBits, heqBytes⟩ := (assembleField_eq_iff (readBitList_eq_some.1 hbits).1
    (readByteList_eq_some.1 hbytes).1).1 hv.symm
  refine ⟨hlt, bits, bytes, c1, hbits, hbytes, ?_, ?_⟩
  · rintro rfl k hk
    simp [heqBits, fieldBits, List.getD_eq_getElem?_getD, hk]
  · rintro rfl y rfl
    have hone : n / 8 = 1 := by simpa using (readByteList_eq_some.1 hbytes).1.symm
    have hy : y = BitVec.ofNat 8 v := by simpa [fieldBytes, hone] using heqBytes
    simp [hy]

end Sys2Proof.Machine

namespace Sys2Proof.Machine

/-! ### Count codes (R65, R95) -/

/-- A field read is the field of some bit vector of its width. -/
theorem readBits_toNat_iff {fo : FieldOrder} {rd : Source} {n : Nat} {x : BitVec n} {c c' : Cursor} :
    readBits fo rd n c = some (x.toNat, c') ↔
      spells rd (encodeField fo n x.toNat) c = some c' := by
  rw [readBits_eq_some_iff_spells, and_iff_right x.isLt]

theorem spells_field_of_readBits {fo : FieldOrder} {rd : Source} {n v : Nat} {c c' : Cursor}
    (h : readBits fo rd n c = some (v, c')) :
    spells rd (encodeField fo n (BitVec.ofNat n v).toNat) c = some c' := by
  obtain ⟨hlt, hspell⟩ := readBits_eq_some_iff_spells.1 h
  rwa [BitVec.toNat_ofNat, Nat.mod_eq_of_lt hlt]

theorem readLongCount_eq_some {fo : FieldOrder} {rd : Source} {cc : CountCode} {c c' : Cursor} :
    readLongCount fo rd c = some (cc, c') ↔
      (∃ k, cc = .six k ∧ spells rd (.bit true :: encodeField fo 3 k.toNat) c = some c') ∨
      (∃ m, cc = .fourteen m ∧ spells rd (.bit false :: encodeField fo 8 m.toNat) c = some c') := by
  simp only [spells_bit_cons]
  constructor
  · intro h
    unfold readLongCount at h
    grind [spells_field_of_readBits]
  · rintro (⟨k, rfl, c1, hbit, hk⟩ | ⟨m, rfl, c1, hbit, hm⟩)
    · simp [readLongCount, hbit, readBits_toNat_iff.2 hk]
    · simp [readLongCount, hbit, readBits_toNat_iff.2 hm]

/-- `CountCode()` reads a code exactly when the stream spells it (R65, R95). -/
theorem readCountCode_eq_some {fo : FieldOrder} {rd : Source} {cc : CountCode} {c c' : Cursor} :
    readCountCode fo rd c = some (cc, c') ↔ spells rd (cc.encode fo) c = some c' := by
  constructor
  · intro h
    unfold readCountCode at h
    split at h
    · cases h
    next c1 h1 =>
      cases h
      exact spells_bit.2 h1
    next c1 h1 =>
      split at h
      · cases h
      next c2 h2 =>
        cases h
        exact spells_bit_cons.2 ⟨c1, h1, spells_bit.2 h2⟩
      next c2 h2 =>
        split at h
        · cases h
        next c3 h3 =>
          cases h
          exact spells_bit_cons.2 ⟨c1, h1, spells_bit_cons.2 ⟨c2, h2, spells_bit.2 h3⟩⟩
        next c3 h3 =>
          have hpre {es : List Elem} (hes : spells rd es c3 = some c') :
              spells rd (.bit false :: .bit false :: .bit false :: es) c = some c' :=
            spells_bit_cons.2 ⟨c1, h1, spells_bit_cons.2 ⟨c2, h2, spells_bit_cons.2 ⟨c3, h3, hes⟩⟩⟩
          split at h
          · cases h
          next c4 h4 =>
            cases h
            exact hpre (spells_bit.2 h4)
          next c4 h4 =>
            rcases readLongCount_eq_some.1 h with ⟨k, rfl, hk⟩ | ⟨m, rfl, hm⟩
            · exact hpre (spells_bit_cons.2 ⟨c4, h4, hk⟩)
            · exact hpre (spells_bit_cons.2 ⟨c4, h4, hm⟩)
  · intro h
    cases cc with
    | two => simp [readCountCode, spells_bit.1 h]
    | three | four | five =>
      simp only [CountCode.encode, spells_bit_cons, spells_nil] at h
      grind [readCountCode]
    | six k | fourteen m =>
      simp only [CountCode.encode, List.cons_append, List.nil_append, spells_bit_cons] at h
      grind [readCountCode, readLongCount_eq_some, spells_bit_cons]

theorem encode_toInstr (fo : FieldOrder) (cc : CountCode) : encode fo cc.toInstr = cc.encode fo := by
  cases cc <;> rfl

theorem toInstr_injective {a b : CountCode} (h : a.toInstr = b.toInstr) : a = b := by
  cases a <;> cases b <;> cases h <;> rfl

theorem decodeCountCode_eq_some {fo : FieldOrder} {rd : Source} {cc : CountCode} {c c' : Cursor} :
    decodeCountCode fo rd c = some (cc.toInstr, c') ↔ readCountCode fo rd c = some (cc, c') := by
  unfold decodeCountCode
  cases readCountCode fo rd c with
  | none => simp
  | some p =>
    simp only [Option.some.injEq, Prod.ext_iff]
    exact and_congr_left fun _ => ⟨toInstr_injective, congrArg _⟩

/-- Settles O5. -/
theorem countCodeReadIsItsSpelling : Obligations.CountCodeReadIsItsSpelling := fun fo _ _ _ cc =>
  ⟨readCountCode_eq_some, by rw [decodeCountCode_eq_some, encode_toInstr, readCountCode_eq_some]⟩

/-! ### The count code is total and unique (R71) -/

section Total

variable {rd : Source} (hrd : ∀ a, (rd a).isSome = true)
include hrd

/-- With no byte missing every byte can be read. -/
theorem byteRead_total (c : Cursor) : ∃ p, byteRead rd c = some p := by
  obtain ⟨b, hb⟩ := Option.isSome_iff_exists.1 (hrd c.ip)
  exact ⟨_, byteRead_eq_some.2 ⟨hb, rfl⟩⟩

theorem readBit_total (c : Cursor) : ∃ p, readBit rd c = some p := by
  obtain ⟨⟨lo, c1⟩, h1⟩ := byteRead_total hrd c
  obtain ⟨⟨hi, c2⟩, h2⟩ := byteRead_total hrd c1
  unfold readBit refill
  split_ifs <;> simp [h1, h2]

theorem readBitList_total (n : Nat) : ∀ c, ∃ p, readBitList rd n c = some p := by
  induction n with
  | zero => exact fun c => ⟨_, rfl⟩
  | succ n ih =>
    intro c
    obtain ⟨⟨b, c1⟩, h1⟩ := readBit_total hrd c
    obtain ⟨⟨bs, c2⟩, h2⟩ := ih c1
    exact ⟨(b :: bs, c2), by simp [readBitList, h1, h2]⟩

theorem readByteList_total (n : Nat) : ∀ c, ∃ p, readByteList rd n c = some p := by
  induction n with
  | zero => exact fun c => ⟨_, rfl⟩
  | succ n ih =>
    intro c
    obtain ⟨⟨b, c1⟩, h1⟩ := byteRead_total hrd c
    obtain ⟨⟨bs, c2⟩, h2⟩ := ih c1
    exact ⟨(b :: bs, c2), by simp [readByteList, h1, h2]⟩

theorem readBits_total (fo : FieldOrder) (n : Nat) (c : Cursor) : ∃ p, readBits fo rd n c = some p := by
  obtain ⟨⟨bits, c1⟩, h1⟩ := readBitList_total hrd (n % 8) c
  obtain ⟨⟨bytes, c2⟩, h2⟩ := readByteList_total hrd (n / 8) c1
  exact ⟨_, readBits_eq_some.2 ⟨bits, c1, bytes, h1, h2, rfl⟩⟩

theorem readLongCount_total (fo : FieldOrder) (c : Cursor) : ∃ p, readLongCount fo rd c = some p := by
  obtain ⟨⟨b, c1⟩, h1⟩ := readBit_total hrd c
  cases b with
  | true =>
    obtain ⟨⟨k, c2⟩, h2⟩ := readBits_total hrd fo 3 c1
    exact ⟨(.six (BitVec.ofNat 3 k), c2), by simp [readLongCount, h1, h2]⟩
  | false =>
    obtain ⟨⟨m, c2⟩, h2⟩ := readBits_total hrd fo 8 c1
    exact ⟨(.fourteen (BitVec.ofNat 8 m), c2), by simp [readLongCount, h1, h2]⟩

/-- With no byte missing a count code is read whatever the bits are. -/
theorem readCountCode_total (fo : FieldOrder) (c : Cursor) : ∃ p, readCountCode fo rd c = some p := by
  obtain ⟨⟨b1, c1⟩, h1⟩ := readBit_total hrd c
  obtain ⟨⟨b2, c2⟩, h2⟩ := readBit_total hrd c1
  obtain ⟨⟨b3, c3⟩, h3⟩ := readBit_total hrd c2
  obtain ⟨⟨b4, c4⟩, h4⟩ := readBit_total hrd c3
  obtain ⟨p, hp⟩ := readLongCount_total hrd fo c4
  cases b1 with
  | true => exact ⟨(.two, c1), by simp [readCountCode, h1]⟩
  | false =>
    cases b2 with
    | true => exact ⟨(.three, c2), by simp [readCountCode, h1, h2]⟩
    | false =>
      cases b3 with
      | true => exact ⟨(.four, c3), by simp [readCountCode, h1, h2, h3]⟩
      | false =>
        cases b4 with
        | true => exact ⟨(.five, c4), by simp [readCountCode, h1, h2, h3, h4]⟩
        | false => exact ⟨p, by simp [readCountCode, h1, h2, h3, h4, hp]⟩

end Total

/-- `PutCount` finds every code back from its count (R83). -/
theorem ofCount_countOf (cc : CountCode) : CountCode.ofCount (countOf cc) = some cc := by
  cases cc with
  | two | three | four | five => rfl
  | six k =>
    have hk := k.isLt
    change CountCode.ofCount (6 + k.toNat) = _
    unfold CountCode.ofCount
    repeat rw [if_neg (by omega)]
    rw [if_pos (by omega), Nat.add_sub_cancel_left, BitVec.ofNat_toNat, BitVec.setWidth_eq]
  | fourteen m =>
    have hm := m.isLt
    change CountCode.ofCount (14 + m.toNat) = _
    unfold CountCode.ofCount
    repeat rw [if_neg (by omega)]
    rw [if_pos (by omega), Nat.add_sub_cancel_left, BitVec.ofNat_toNat, BitVec.setWidth_eq]

/-- Settles O6: `ofCount` is the inverse of `countOf`, and has a value exactly from 2 to 269. -/
theorem countCodeIsTotalAndUnique : Obligations.CountCodeIsTotalAndUnique := by
  refine ⟨fun fo rd c hrd => ?_, fun n hlo hhi => ?_, fun cc => ?_⟩
  · obtain ⟨p, hp⟩ := readCountCode_total hrd fo c
    exact ⟨p, hp, fun q hq => Option.some.inj (hq.symm.trans hp)⟩
  · obtain ⟨cc, hcc⟩ := Option.isSome_iff_exists.1 ((ofCount_isSome n).2 ⟨hlo, hhi⟩)
    refine ⟨cc, countOf_ofCount hcc, fun cc' h => ?_⟩
    rw [← h, ofCount_countOf] at hcc
    exact Option.some.inj hcc
  · exact (ofCount_isSome _).1 (by rw [ofCount_countOf]; rfl)

end Sys2Proof.Machine

namespace Sys2Proof.Machine

/-! ### The ADV decoder (R111 to R118) -/

/-- The two control bits of R111 pick the form. -/
theorem decodeAdv_eq_some {fo : FieldOrder} {rd : Source} {p : Instr × Cursor} {c : Cursor} :
    decodeAdv fo rd c = some p ↔
      (∃ c1, spells rd [.bit false] c = some c1 ∧ decodeLit rd c1 = some p) ∨
      (∃ c1, spells rd [.bit true, .bit false] c = some c1 ∧ decodeSmatch fo rd c1 = some p) ∨
      (∃ c1, spells rd [.bit true, .bit true] c = some c1 ∧ decodeExtended fo rd c1 = some p) := by
  simp only [spells_bit_cons, spells_nil]
  constructor
  · intro h
    unfold decodeAdv at h
    split at h
    · cases h
    next c1 h1 => exact .inl ⟨c1, ⟨c1, h1, rfl⟩, h⟩
    next c1 h1 =>
      split at h
      · cases h
      next c2 h2 => exact .inr (.inl ⟨c2, ⟨c1, h1, c2, h2, rfl⟩, h⟩)
      next c2 h2 => exact .inr (.inr ⟨c2, ⟨c1, h1, c2, h2, rfl⟩, h⟩)
  · rintro (⟨c1, ⟨_, h1, ⟨⟩⟩, h⟩ | ⟨c2, ⟨c1, h1, _, h2, ⟨⟩⟩, h⟩ | ⟨c2, ⟨c1, h1, _, h2, ⟨⟩⟩, h⟩)
    · simpa [decodeAdv, h1] using h
    · simpa [decodeAdv, h1, h2] using h
    · simpa [decodeAdv, h1, h2] using h

theorem decodeLit_eq_some {rd : Source} {i : Instr} {c c' : Cursor} :
    decodeLit rd c = some (i, c') ↔ ∃ b, i = .lit b ∧ spells rd [.byte b] c = some c' := by
  simp only [spells_byte]
  grind [decodeLit]

theorem decodeSmatch_eq_some {fo : FieldOrder} {rd : Source} {i : Instr} {c c' : Cursor} :
    decodeSmatch fo rd c = some (i, c') ↔ ∃ (o : BitVec 8) (cc : CountCode), i = .smatch o cc ∧
      spells rd (encodeField fo 8 o.toNat ++ cc.encode fo) c = some c' := by
  simp only [spells_append]
  constructor
  · intro h
    unfold decodeSmatch at h
    grind [spells_field_of_readBits, readCountCode_eq_some]
  · rintro ⟨o, cc, rfl, c1, ho, hcc⟩
    simp [decodeSmatch, readBits_toNat_iff.2 ho, readCountCode_eq_some.2 hcc]

theorem decodeFill_eq_some {fo : FieldOrder} {rd : Source} {i : Instr} {c c' : Cursor} :
    decodeFill fo rd c = some (i, c') ↔
      (∃ (s : BitVec 4) (b : Byte), i = .fill s b ∧
        spells rd ([Elem.bit false] ++ encodeField fo 4 s.toNat ++ [Elem.byte b]) c = some c') ∨
      (∃ (s : BitVec 12) (b : Byte), i = .fill12 s b ∧
        spells rd ([Elem.bit true] ++ encodeField fo 12 s.toNat ++ [Elem.byte b]) c = some c') := by
  simp only [spells_append, spells_bit, spells_byte]
  constructor
  · intro h
    unfold decodeFill at h
    repeat' split at h
    · cases h
    · cases h
    · cases h
    next c1 h1 _ _ c2 h2 _ b c3 h3 =>
      cases h
      exact .inr ⟨_, b, rfl, c2, ⟨c1, h1, spells_field_of_readBits h2⟩, h3⟩
    · cases h
    · cases h
    next c1 h1 _ _ c2 h2 _ b c3 h3 =>
      cases h
      exact .inl ⟨_, b, rfl, c2, ⟨c1, h1, spells_field_of_readBits h2⟩, h3⟩
  · rintro (⟨s, b, rfl, c2, ⟨c1, h1, h2⟩, h3⟩ | ⟨s, b, rfl, c2, ⟨c1, h1, h2⟩, h3⟩) <;>
      simp [decodeFill, h1, readBits_toNat_iff.2 h2, h3]

/-- The 13-bit selector picks END, FILL or LMATCH (R114). -/
theorem decodeExtended_eq_some {fo : FieldOrder} {rd : Source} {i : Instr} {c c' : Cursor} :
    decodeExtended fo rd c = some (i, c') ↔
      (i = .endMark ∧ spells rd (encodeField fo 13 0) c = some c') ∨
      (∃ c1, spells rd (encodeField fo 13 1) c = some c1 ∧ decodeFill fo rd c1 = some (i, c')) ∨
      (∃ (v : BitVec 13) (cc : CountCode), 2 ≤ v.toNat ∧ i = .lmatch v cc ∧
        spells rd (encodeField fo 13 v.toNat ++ cc.encode fo) c = some c') := by
  simp only [spells_append]
  constructor
  · intro h
    unfold decodeExtended at h
    split at h
    · cases h
    next v c1 hv =>
      obtain ⟨hlt, hspell⟩ := readBits_eq_some_iff_spells.1 hv
      split_ifs at h with h0 h1
      · cases h
        exact .inl ⟨rfl, h0 ▸ hspell⟩
      · exact .inr (.inl ⟨c1, h1 ▸ hspell, h⟩)
      · split at h
        · cases h
        next cc c2 hcc =>
          cases h
          refine .inr (.inr ⟨_, cc, ?_, rfl, c1, spells_field_of_readBits hv,
            readCountCode_eq_some.1 hcc⟩)
          rw [BitVec.toNat_ofNat, Nat.mod_eq_of_lt hlt]
          omega
  · rintro (⟨rfl, hv⟩ | ⟨c1, hv, hfill⟩ | ⟨v, cc, hge, rfl, c1, hv, hcc⟩)
    · have hread : readBits fo rd 13 c = some (0, c') :=
        readBits_eq_some_iff_spells.2 ⟨by decide, hv⟩
      simp [decodeExtended, hread]
    · have hread : readBits fo rd 13 c = some (1, c1) :=
        readBits_eq_some_iff_spells.2 ⟨by decide, hv⟩
      simp [decodeExtended, hread, hfill]
    · simp [decodeExtended, readBits_toNat_iff.2 hv, readCountCode_eq_some.2 hcc,
        show v.toNat ≠ 0 by omega, show v.toNat ≠ 1 by omega]

/-- What the ADV decoder reads is spelled by its elements. -/
theorem spells_of_decodeAdv {fo : FieldOrder} {rd : Source} {i : Instr} {c c' : Cursor}
    (h : decodeAdv fo rd c = some (i, c')) :
    i.wf = true ∧ spells rd (encode fo i) c = some c' := by
  rcases decodeAdv_eq_some.1 h with ⟨c1, hpre, hlit⟩ | ⟨c1, hpre, hsm⟩ | ⟨c1, hpre, hext⟩
  · obtain ⟨b, rfl, hb⟩ := decodeLit_eq_some.1 hlit
    exact ⟨rfl, spells_append.2 ⟨c1, hpre, hb⟩⟩
  · obtain ⟨o, cc, rfl, hspell⟩ := decodeSmatch_eq_some.1 hsm
    refine ⟨rfl, ?_⟩
    rw [encode, List.append_assoc]
    exact spells_append.2 ⟨c1, hpre, hspell⟩
  · rcases decodeExtended_eq_some.1 hext with ⟨rfl, hv⟩ | ⟨c2, hv, hfill⟩ | ⟨v, cc, hge, rfl, hv⟩
    · exact ⟨rfl, spells_append.2 ⟨c1, hpre, hv⟩⟩
    · have hhead := spells_append.2 ⟨c1, hpre, hv⟩
      rcases decodeFill_eq_some.1 hfill with ⟨s, b, rfl, hs⟩ | ⟨s, b, rfl, hs⟩ <;>
        exact ⟨rfl, by simpa only [encode, List.append_assoc] using spells_append.2 ⟨c2, hhead, hs⟩⟩
    · refine ⟨decide_eq_true hge, ?_⟩
      rw [encode, List.append_assoc]
      exact spells_append.2 ⟨c1, hpre, hv⟩

/-- Settles O2. -/
theorem advDecodingIsTheEncoding : Obligations.AdvDecodingIsTheEncoding := fun _ _ _ _ _ h =>
  ⟨(decodeAdv_reads h).1, spells_of_decodeAdv h⟩

/-- The elements of an ADV command or END decode to it. -/
theorem decodeAdv_of_spells {fo : FieldOrder} {rd : Source} {i : Instr} {c c' : Cursor}
    (hi : i.isAdvCommand = true ∨ i = .endMark) (hwf : i.wf = true)
    (h : spells rd (encode fo i) c = some c') : decodeAdv fo rd c = some (i, c') := by
  have extended {es : List Elem} (h : spells rd ([.bit true, .bit true] ++ es) c = some c')
      (hes : ∀ c1, spells rd es c1 = some c' → decodeExtended fo rd c1 = some (i, c')) :
      decodeAdv fo rd c = some (i, c') := by
    obtain ⟨c1, hpre, h⟩ := spells_append.1 h
    exact decodeAdv_eq_some.2 (.inr (.inr ⟨c1, hpre, hes c1 h⟩))
  cases i with
  | lit b =>
    obtain ⟨c1, hbit, hb⟩ := spells_bit_cons.1 h
    exact decodeAdv_eq_some.2 (.inl ⟨c1, spells_bit.2 hbit, decodeLit_eq_some.2 ⟨b, rfl, hb⟩⟩)
  | smatch o cc =>
    rw [encode, List.append_assoc] at h
    obtain ⟨c1, hpre, hspell⟩ := spells_append.1 h
    exact decodeAdv_eq_some.2 (.inr (.inl ⟨c1, hpre, decodeSmatch_eq_some.2 ⟨o, cc, rfl, hspell⟩⟩))
  | lmatch v cc =>
    rw [encode, List.append_assoc] at h
    exact extended h fun c1 hv =>
      decodeExtended_eq_some.2 (.inr (.inr ⟨v, cc, of_decide_eq_true hwf, rfl, hv⟩))
  | fill s b =>
    simp only [encode, List.append_assoc] at h
    refine extended h fun c1 hv => ?_
    obtain ⟨c2, hv, hs⟩ := spells_append.1 hv
    exact decodeExtended_eq_some.2 (.inr (.inl ⟨c2, hv, decodeFill_eq_some.2 (.inl ⟨s, b, rfl, hs⟩)⟩))
  | fill12 s b =>
    simp only [encode, List.append_assoc] at h
    refine extended h fun c1 hv => ?_
    obtain ⟨c2, hv, hs⟩ := spells_append.1 hv
    exact decodeExtended_eq_some.2 (.inr (.inl ⟨c2, hv, decodeFill_eq_some.2 (.inr ⟨s, b, rfl, hs⟩)⟩))
  | endMark => exact extended h fun c1 hv => decodeExtended_eq_some.2 (.inl ⟨rfl, hv⟩)
  | _ => simp [Instr.isAdvCommand] at hi

/-- Settles O1. -/
theorem advDecodeInvertsEncode : Obligations.AdvDecodeInvertsEncode :=
  fun _ _ _ _ _ => decodeAdv_of_spells

/-! ### A command cut short (R77, R119) -/

theorem byteRead_congr {rd rd' : Source} {b : Byte} {c c' : Cursor}
    (h : byteRead rd c = some (b, c')) (heq : ∀ a, c.ip ≤ a → a < c'.ip → rd' a = rd a) :
    byteRead rd' c = some (b, c') := by
  obtain ⟨hrd, rfl⟩ := byteRead_eq_some.1 h
  exact byteRead_eq_some.2 ⟨(heq _ le_rfl (Nat.lt_succ_self _)).trans hrd, rfl⟩

theorem readBit_congr {rd rd' : Source} {b : Bool} {c c' : Cursor}
    (h : readBit rd c = some (b, c')) (heq : ∀ a, c.ip ≤ a → a < c'.ip → rd' a = rd a) :
    readBit rd' c = some (b, c') := by
  obtain ⟨c1, hrefill, hb, rfl⟩ := readBit_eq_some.1 h
  refine readBit_eq_some.2 ⟨c1, ?_, hb, rfl⟩
  rcases refill_cases hrefill with ⟨hcb, rfl⟩ | ⟨hcb, lo, hi, hlo, hhi, rfl⟩
  · simp [refill, hcb]
  · rw [← heq _ (by omega) (by simp)] at hlo hhi
    simp [refill, byteRead, hcb, hlo, hhi]

theorem readBit_ip_le {rd : Source} {b : Bool} {c c' : Cursor} (h : readBit rd c = some (b, c')) :
    c.ip ≤ c'.ip := by
  rcases readBit_cost h with ⟨hip, -⟩ | ⟨-, hip, -⟩ <;> omega

theorem byteRead_ip {rd : Source} {b : Byte} {c c' : Cursor} (h : byteRead rd c = some (b, c')) :
    c'.ip = c.ip + 1 := by rw [(byteRead_eq_some.1 h).2]

theorem spells_ip_le {rd : Source} {es : List Elem} : ∀ {c c' : Cursor},
    spells rd es c = some c' → c.ip ≤ c'.ip := by
  induction es with
  | nil => rintro c _ ⟨⟩; exact le_rfl
  | cons e es ih =>
    intro c c' h
    cases e with
    | bit b =>
      obtain ⟨c1, h1, h⟩ := spells_bit_cons.1 h
      exact (readBit_ip_le h1).trans (ih h)
    | byte b =>
      obtain ⟨c1, h1, h⟩ := spells_byte_cons.1 h
      exact (Nat.le.intro (byteRead_ip h1).symm).trans (ih h)

/-- Elements are read from the bytes between the two cursors only. -/
theorem spells_congr {rd rd' : Source} {es : List Elem} : ∀ {c c' : Cursor},
    spells rd es c = some c' → (∀ a, c.ip ≤ a → a < c'.ip → rd' a = rd a) →
    spells rd' es c = some c' := by
  induction es with
  | nil => exact fun h _ => h
  | cons e es ih =>
    intro c c' h heq
    cases e with
    | bit b =>
      obtain ⟨c1, h1, h⟩ := spells_bit_cons.1 h
      have hle := spells_ip_le h
      have hge := readBit_ip_le h1
      exact spells_bit_cons.2 ⟨c1, readBit_congr h1 fun a ha hlt => heq a ha (by omega),
        ih h fun a ha => heq a (by omega)⟩
    | byte b =>
      obtain ⟨c1, h1, h⟩ := spells_byte_cons.1 h
      have hle := spells_ip_le h
      have hge := byteRead_ip h1
      exact spells_byte_cons.2 ⟨c1, byteRead_congr h1 fun a ha hlt => heq a ha (by omega),
        ih h fun a ha => heq a (by omega)⟩

/-- What is read ends inside the space, or where it began. -/
theorem reads_ip_le {m : Memory} {len : Nat} {c c' : Cursor} (h : Reads (m.source len) c c')
    (hlt : c.ip < c'.ip) : c'.ip ≤ len := by
  induction h with
  | refl => exact absurd hlt (lt_irrefl _)
  | tail _ hlast ih =>
    rcases hlast with hbyte | ⟨b, hbit⟩
    · exact (readsByte_source hbyte).2.1
    · rcases readBit_source hbit with ⟨hip, -⟩ | ⟨-, -, hle, -⟩
      · rw [hip] at hlt ⊢
        exact ih hlt
      · exact hle

theorem decodeAdv_ip_le {fo : FieldOrder} {m : Memory} {len : Nat} {i : Instr} {c c' : Cursor}
    (h : decodeAdv fo (m.source len) c = some (i, c')) (hlt : c.ip < c'.ip) : c'.ip ≤ len := by
  obtain ⟨-, b, c1, hbit, hrest⟩ := decodeAdv_reads h
  exact reads_ip_le (reads_trans (reads_of_readBit hbit) hrest) hlt

/-- A command decodes the same from any length that holds the bytes it reads. -/
theorem decodeAdv_source_congr {fo : FieldOrder} {m : Memory} {len k : Nat} {i : Instr}
    {c c' : Cursor} (h : decodeAdv fo (m.source len) c = some (i, c'))
    (hk : c.ip < c'.ip → c'.ip ≤ k) : decodeAdv fo (m.source k) c = some (i, c') := by
  obtain ⟨hwf, hspell⟩ := spells_of_decodeAdv h
  refine decodeAdv_of_spells (decodeAdv_reads h).1 hwf (spells_congr hspell fun a ha hlt => ?_)
  have hle := decodeAdv_ip_le h (by omega)
  rw [Memory.source_eq, Memory.source_eq, if_pos (by omega), if_pos (by omega)]

/-- Settles O9: a command decoded from the shorter space would be the same command, and so end inside it. -/
theorem advCommandCutShortIsTruncated : Obligations.AdvCommandCutShortIsTruncated := by
  intro fo m len k c c' i h hlt
  refine ⟨fun hk => ?_, fun hk => decodeAdv_source_congr h fun _ => hk⟩
  have hlen := decodeAdv_ip_le h hlt
  cases hcut : decodeAdv fo (m.source k) c with
  | none => rfl
  | some p =>
    have hsame := decodeAdv_source_congr (k := len) hcut fun hp => by
      have := decodeAdv_ip_le hcut hp
      omega
    cases hsame.symm.trans h
    exact absurd (decodeAdv_ip_le hcut hlt) (by omega)

end Sys2Proof.Machine

namespace Sys2Proof.Machine

/-! ### Bytes in a stream -/

/-- The bytes stand in the stream from address `a` on. -/
def BytesAt (rd : Source) (a : Nat) (bs : List Byte) : Prop := ∀ k < bs.length, rd (a + k) = bs[k]?

theorem bytesAt_cons {rd : Source} {a : Nat} {b : Byte} {bs : List Byte} :
    BytesAt rd a (b :: bs) ↔ rd a = some b ∧ BytesAt rd (a + 1) bs := by
  constructor
  · intro h
    refine ⟨h 0 (Nat.succ_pos _), fun k hk => ?_⟩
    rw [Nat.add_right_comm, Nat.add_assoc, h (k + 1) (Nat.succ_lt_succ hk), List.getElem?_cons_succ]
  · rintro ⟨hb, hbs⟩ k hk
    cases k with
    | zero => exact hb
    | succ k =>
      rw [List.getElem?_cons_succ, ← hbs k (Nat.lt_of_succ_lt_succ hk), Nat.add_right_comm,
        Nat.add_assoc]

/-- Raw bytes are spelled where they stand, and only `ip` moves (R90). -/
theorem spells_bytes_iff {rd : Source} {bs : List Byte} {c c' : Cursor} :
    spells rd (bs.map .byte) c = some c' ↔
      c' = { c with ip := c.ip + bs.length } ∧ BytesAt rd c.ip bs := by
  induction bs generalizing c with
  | nil => simp [BytesAt, eq_comm]
  | cons b bs ih =>
    simp only [List.map_cons, spells_byte_cons, byteRead_eq_some, ih, bytesAt_cons,
      List.length_cons]
    constructor
    · rintro ⟨_, ⟨hb, rfl⟩, rfl, hbs⟩
      exact ⟨by rw [Nat.add_right_comm, Nat.add_assoc], hb, hbs⟩
    · rintro ⟨rfl, hb, hbs⟩
      exact ⟨_, ⟨hb, rfl⟩, by rw [Nat.add_right_comm, Nat.add_assoc], hbs⟩

theorem availableBytes_of_bytesAt {rd : Source} {bs : List Byte} : ∀ {a : Nat},
    BytesAt rd a bs → availableBytes rd bs.length a = bs := by
  induction bs with
  | nil => exact fun _ => rfl
  | cons b bs ih =>
    intro a h
    obtain ⟨hb, hbs⟩ := bytesAt_cons.1 h
    simp [availableBytes, hb, ih hbs]

theorem bytesAt_availableBytes (rd : Source) (n : Nat) : ∀ a : Nat,
    BytesAt rd a (availableBytes rd n a) := by
  induction n with
  | zero => exact fun _ _ hk => absurd hk (Nat.not_lt_zero _)
  | succ n ih =>
    intro a
    cases h : rd a with
    | none => simp [availableBytes, h, BytesAt]
    | some b =>
      simp only [availableBytes, h, bytesAt_cons, true_and]
      exact ih (a + 1)

/-! ### The LEG decoder (R130 to R139) -/

/-- A VERB takes as many data bytes as its length says (R133). -/
theorem decodeData_eq_ok {form : List Byte → Instr} {rd : Source} {n : Nat} {i : Instr}
    {c c' : Cursor} : decodeData form rd n c = .ok i c' ↔
      ∃ data, data.length = n ∧ i = form data ∧ spells rd (data.map .byte) c = some c' := by
  simp only [spells_bytes_iff]
  constructor
  · intro h
    unfold decodeData at h
    dsimp only at h
    split_ifs at h with hlen
    cases h
    exact ⟨_, hlen, rfl, by rw [hlen], bytesAt_availableBytes rd n c.ip⟩
  · rintro ⟨data, rfl, rfl, rfl, hdata⟩
    simp [decodeData, availableBytes_of_bytesAt hdata]

section Opcode

variable {rd : Source} {op : Byte} {i : Instr} {c c' : Cursor}

theorem extractLsb'_eq_iff (s : Nat) {n : Nat} (v : BitVec n) :
    op.extractLsb' s n = v ↔ op.toNat / 2 ^ s % 2 ^ n = v.toNat := by
  rw [← BitVec.toNat_inj, BitVec.extractLsb'_toNat, Nat.shiftRight_eq_div_pow]

theorem getLsbD_eq_decide (k : Nat) : op.getLsbD k = decide (op.toNat / 2 ^ k % 2 = 1) := by
  rw [← BitVec.testBit_toNat, Nat.testBit_eq_decide_div_mod_eq]

theorem decodeOpcode_verb (hop : op.toNat < 0x20) :
    decodeOpcode rd op c = decodeData .verb rd op.toNat c := by
  have hfam : op.extractLsb' 6 2 = 0 := (extractLsb'_eq_iff 6 _).2 (by simp; omega)
  have hform : op.getLsbD 5 = false := by rw [getLsbD_eq_decide]; simp; omega
  have hlen : (op.extractLsb' 0 5).toNat = op.toNat := by
    rw [BitVec.extractLsb'_toNat]; omega
  rw [decodeOpcode, if_pos hfam, decodeVerb, hform, hlen]
  rfl

theorem decodeOpcode_verbx (hlo : 0x20 ≤ op.toNat) (hhi : op.toNat < 0x40) :
    decodeOpcode rd op c = .ok i c' ↔ ∃ l c1, byteRead rd c = some (l, c1) ∧
      decodeData .verbx rd (256 * (op.toNat - 0x20) + l.toNat) c1 = .ok i c' := by
  have hfam : op.extractLsb' 6 2 = 0 := (extractLsb'_eq_iff 6 _).2 (by simp; omega)
  have hform : op.getLsbD 5 = true := by rw [getLsbD_eq_decide]; simp; omega
  have hlen : (op.extractLsb' 0 5).toNat = op.toNat - 0x20 := by
    rw [BitVec.extractLsb'_toNat]; omega
  simp only [decodeOpcode, decodeVerb, hfam, hform, hlen, if_true]
  cases byteRead rd c <;> simp [Prod.ext_iff]

theorem decodeOpcode_lfill (hlo : 0x40 ≤ op.toNat) (hhi : op.toNat < 0x50) :
    decodeOpcode rd op c = .ok i c' ↔ ∃ b, byteRead rd c = some (b, c') ∧
      i = .lfill (BitVec.ofNat 4 (op.toNat - 0x40)) b := by
  have hfam : op.extractLsb' 6 2 ≠ 0 := (extractLsb'_eq_iff 6 _).not.2 (by simp; omega)
  have hfam' : op.extractLsb' 5 3 = 2 := (extractLsb'_eq_iff 5 _).2 (by simp; omega)
  have hform : op.getLsbD 4 = false := by rw [getLsbD_eq_decide]; simp; omega
  have hn : op.extractLsb' 0 4 = BitVec.ofNat 4 (op.toNat - 0x40) :=
    (extractLsb'_eq_iff 0 _).2 (by simp; omega)
  simp only [decodeOpcode, decodeLfill, hfam, hfam', hform, hn, if_false, if_true]
  cases byteRead rd c <;> grind

theorem decodeOpcode_lfillx (hlo : 0x50 ≤ op.toNat) (hhi : op.toNat < 0x60) :
    decodeOpcode rd op c = .ok i c' ↔ ∃ l b c1, byteRead rd c = some (l, c1) ∧
      byteRead rd c1 = some (b, c') ∧
      i = .lfillx (BitVec.ofNat 12 (256 * (op.toNat - 0x50) + l.toNat)) b := by
  have hfam : op.extractLsb' 6 2 ≠ 0 := (extractLsb'_eq_iff 6 _).not.2 (by simp; omega)
  have hfam' : op.extractLsb' 5 3 = 2 := (extractLsb'_eq_iff 5 _).2 (by simp; omega)
  have hform : op.getLsbD 4 = true := by rw [getLsbD_eq_decide]; simp; omega
  have hn : (op.extractLsb' 0 4).toNat = op.toNat - 0x50 := by
    rw [BitVec.extractLsb'_toNat]; omega
  simp only [decodeOpcode, decodeLfill, hfam, hfam', hform, hn, if_false, if_true]
  cases byteRead rd c with
  | none => simp
  | some p => cases h : byteRead rd p.2 <;> grind

theorem decodeOpcode_reuse (hlo : 0x60 ≤ op.toNat) (hhi : op.toNat < 0x80) :
    decodeOpcode rd op c = .ok (.reuse (BitVec.ofNat 5 (op.toNat - 0x60))) c := by
  have hfam : op.extractLsb' 6 2 ≠ 0 := (extractLsb'_eq_iff 6 _).not.2 (by simp; omega)
  have hfam' : op.extractLsb' 5 3 = 3 := (extractLsb'_eq_iff 5 _).2 (by simp; omega)
  have hn : op.extractLsb' 0 5 = BitVec.ofNat 5 (op.toNat - 0x60) :=
    (extractLsb'_eq_iff 0 _).2 (by simp; omega)
  rw [decodeOpcode, if_neg hfam, if_neg (by rw [hfam']; decide), if_pos hfam', hn]

theorem decodeOpcode_newoff (hlo : 0x80 ≤ op.toNat) :
    decodeOpcode rd op c = .ok i c' ↔ ∃ l, byteRead rd c = some (l, c') ∧
      i = .newoff (BitVec.ofNat 2 ((op.toNat - 0x80) / 32))
        (BitVec.ofNat 13 (256 * (op.toNat % 32) + l.toNat)) := by
  have hop := op.isLt
  have hfam : op.extractLsb' 6 2 ≠ 0 := (extractLsb'_eq_iff 6 _).not.2 (by simp; omega)
  have hfam' : op.extractLsb' 5 3 ≠ 2 := (extractLsb'_eq_iff 5 _).not.2 (by simp; omega)
  have hfam'' : op.extractLsb' 5 3 ≠ 3 := (extractLsb'_eq_iff 5 _).not.2 (by simp; omega)
  have hn : op.extractLsb' 5 2 = BitVec.ofNat 2 ((op.toNat - 0x80) / 32) :=
    (extractLsb'_eq_iff 5 _).2 (by simp; omega)
  have ho : (op.extractLsb' 0 5).toNat = op.toNat % 32 := by
    rw [BitVec.extractLsb'_toNat]; omega
  simp only [decodeOpcode, decodeNewoff, hfam, hfam', hfam'', hn, ho, if_false]
  cases byteRead rd c <;> grind

/-- The opcode and what it is followed by: the six ranges of R73, each with its command. -/
theorem spells_of_decodeOpcode (h : decodeOpcode rd op c = .ok i c') : i.wf = true ∧
    ∃ es, encode .msbFirst i = .byte op :: es ∧ spells rd es c = some c' := by
  have hop := op.isLt
  have opcode {v : Nat} (hv : v = op.toNat) : rawByte v = .byte op := by
    rw [rawByte, hv, BitVec.ofNat_toNat, BitVec.setWidth_eq]
  have low {v : Nat} {l : Byte} (hv : v % 256 = l.toNat) : rawByte v = .byte l := by
    rw [rawByte, Elem.byte.injEq, ← BitVec.toNat_inj, BitVec.toNat_ofNat, hv]
  rcases Nat.lt_or_ge op.toNat 0x20 with hhi | h20
  · rw [decodeOpcode_verb hhi] at h
    obtain ⟨data, hlen, rfl, hdata⟩ := decodeData_eq_ok.1 h
    exact ⟨decide_eq_true (by omega), _, by rw [encode, opcode hlen], hdata⟩
  rcases Nat.lt_or_ge op.toNat 0x40 with hhi | h40
  · obtain ⟨l, c1, hl, h⟩ := (decodeOpcode_verbx h20 hhi).1 h
    obtain ⟨data, hlen, rfl, hdata⟩ := decodeData_eq_ok.1 h
    have hlt := l.isLt
    refine ⟨decide_eq_true (by omega), _, ?_, spells_byte_cons.2 ⟨c1, hl, hdata⟩⟩
    rw [encode, opcode (by omega), low (l := l) (by omega)]
    rfl
  rcases Nat.lt_or_ge op.toNat 0x50 with hhi | h50
  · obtain ⟨b, hb, rfl⟩ := (decodeOpcode_lfill h40 hhi).1 h
    refine ⟨rfl, _, ?_, spells_byte.2 hb⟩
    rw [encode, opcode (by rw [BitVec.toNat_ofNat]; omega)]
  rcases Nat.lt_or_ge op.toNat 0x60 with hhi | h60
  · obtain ⟨l, b, c1, hl, hb, rfl⟩ := (decodeOpcode_lfillx h50 hhi).1 h
    have hlt := l.isLt
    refine ⟨rfl, _, ?_, spells_byte_cons.2 ⟨c1, hl, spells_byte.2 hb⟩⟩
    rw [encode, opcode (by rw [BitVec.toNat_ofNat]; omega),
      low (l := l) (by rw [BitVec.toNat_ofNat]; omega)]
  rcases Nat.lt_or_ge op.toNat 0x80 with hhi | h80
  · rw [decodeOpcode_reuse h60 hhi] at h
    cases h
    refine ⟨rfl, [], ?_, rfl⟩
    rw [encode, opcode (by rw [BitVec.toNat_ofNat]; omega)]
  · obtain ⟨l, hl, rfl⟩ := (decodeOpcode_newoff h80).1 h
    have hlt := l.isLt
    refine ⟨rfl, _, ?_, spells_byte.2 hl⟩
    rw [encode, opcode (by rw [BitVec.toNat_ofNat, BitVec.toNat_ofNat]; omega),
      low (l := l) (by rw [BitVec.toNat_ofNat]; omega)]

end Opcode

theorem decodeLeg_eq_ok {rd : Source} {i : Instr} {c c' : Cursor} :
    decodeLeg rd c = .ok i c' ↔
      ∃ op c1, byteRead rd c = some (op, c1) ∧ decodeOpcode rd op c1 = .ok i c' := by
  unfold decodeLeg
  cases byteRead rd c <;> simp [Prod.ext_iff]

/-- What the LEG decoder reads is spelled by its bytes. -/
theorem spells_of_decodeLeg {rd : Source} {i : Instr} {c c' : Cursor}
    (h : decodeLeg rd c = .ok i c') :
    i.wf = true ∧ spells rd (encode .msbFirst i) c = some c' := by
  obtain ⟨op, c1, hop, h⟩ := decodeLeg_eq_ok.1 h
  obtain ⟨hwf, es, hes, hspell⟩ := spells_of_decodeOpcode h
  exact ⟨hwf, by rw [hes]; exact spells_byte_cons.2 ⟨c1, hop, hspell⟩⟩

/-- The elements of a LEG command decode to it. -/
theorem decodeLeg_of_spells {rd : Source} {i : Instr} {c c' : Cursor}
    (hi : i.isLegCommand = true) (hwf : i.wf = true)
    (h : spells rd (encode .msbFirst i) c = some c') : decodeLeg rd c = .ok i c' := by
  cases i with
  | verb data =>
    have hlen : data.length < 32 := of_decide_eq_true hwf
    obtain ⟨c1, hop, hdata⟩ := spells_byte_cons.1 h
    refine decodeLeg_eq_ok.2 ⟨_, c1, hop, ?_⟩
    rw [decodeOpcode_verb (by rw [BitVec.toNat_ofNat]; omega)]
    exact decodeData_eq_ok.2 ⟨data, by rw [BitVec.toNat_ofNat]; omega, rfl, hdata⟩
  | verbx data =>
    have hlen : data.length < 8192 := of_decide_eq_true hwf
    obtain ⟨c1, hop, h⟩ := spells_byte_cons.1 h
    obtain ⟨c2, hl, hdata⟩ := spells_byte_cons.1 h
    refine decodeLeg_eq_ok.2 ⟨_, c1, hop, (decodeOpcode_verbx ?_ ?_).2 ⟨_, c2, hl,
      decodeData_eq_ok.2 ⟨data, ?_, rfl, hdata⟩⟩⟩ <;> simp only [BitVec.toNat_ofNat] <;> omega
  | lfill n b =>
    have hn := n.isLt
    obtain ⟨c1, hop, hb⟩ := spells_byte_cons.1 h
    refine decodeLeg_eq_ok.2 ⟨_, c1, hop, (decodeOpcode_lfill ?_ ?_).2 ⟨b, spells_byte.1 hb, ?_⟩⟩
    · rw [BitVec.toNat_ofNat]; omega
    · rw [BitVec.toNat_ofNat]; omega
    · rw [Instr.lfill.injEq, ← BitVec.toNat_inj]
      simp only [BitVec.toNat_ofNat, and_true]
      omega
  | lfillx n b =>
    have hn := n.isLt
    obtain ⟨c1, hop, h⟩ := spells_byte_cons.1 h
    obtain ⟨c2, hl, hb⟩ := spells_byte_cons.1 h
    refine decodeLeg_eq_ok.2 ⟨_, c1, hop,
      (decodeOpcode_lfillx ?_ ?_).2 ⟨_, b, c2, hl, spells_byte.1 hb, ?_⟩⟩
    · rw [BitVec.toNat_ofNat]; omega
    · rw [BitVec.toNat_ofNat]; omega
    · rw [Instr.lfillx.injEq, ← BitVec.toNat_inj]
      simp only [BitVec.toNat_ofNat, and_true]
      omega
  | reuse n =>
    have hn := n.isLt
    have hop := spells_byte.1 h
    have hval : (BitVec.ofNat 8 (0x60 + n.toNat)).toNat = 0x60 + n.toNat := by
      rw [BitVec.toNat_ofNat]; omega
    refine decodeLeg_eq_ok.2 ⟨_, c', hop, ?_⟩
    rw [decodeOpcode_reuse (by omega) (by omega), hval, Nat.add_sub_cancel_left,
      BitVec.ofNat_toNat, BitVec.setWidth_eq]
  | newoff n o =>
    have hn := n.isLt
    have ho := o.isLt
    obtain ⟨c1, hop, hl⟩ := spells_byte_cons.1 h
    refine decodeLeg_eq_ok.2 ⟨_, c1, hop, (decodeOpcode_newoff ?_).2 ⟨_, spells_byte.1 hl, ?_⟩⟩
    · rw [BitVec.toNat_ofNat]; omega
    · rw [Instr.newoff.injEq, ← BitVec.toNat_inj, ← BitVec.toNat_inj]
      simp only [BitVec.toNat_ofNat]
      omega
  | _ => cases hi

/-- A LEG command has raw bytes only, in either FIELD_ORDER (R68). -/
theorem encode_eq_encodeLeg (fo : FieldOrder) {i : Instr} (hi : i.isLegCommand = true) :
    encode fo i = (encodeLeg i).map .byte := by
  have hbytes (bs : List Byte) : elemBytes (bs.map .byte) = bs := by
    induction bs with
    | nil => rfl
    | cons b bs ih => rw [List.map_cons, elemBytes, ih]
  cases i with
  | verb data | verbx data => simp [encodeLeg, encode, rawByte, elemBytes, hbytes]
  | lfill | lfillx | reuse | newoff => rfl
  | _ => cases hi

/-- Settles O3. -/
theorem legDecodeInvertsEncode : Obligations.LegDecodeInvertsEncode := by
  intro rd c i hi hwf hbytes
  refine decodeLeg_of_spells hi hwf ?_
  rw [encode_eq_encodeLeg _ hi]
  exact spells_bytes_iff.2 ⟨rfl, hbytes⟩

/-- Settles O4. -/
theorem legDecodingIsTheEncoding : Obligations.LegDecodingIsTheEncoding := by
  intro rd c c' i h
  obtain ⟨hi, -⟩ := decodeLeg_reads h
  obtain ⟨hwf, hspell⟩ := spells_of_decodeLeg h
  rw [encode_eq_encodeLeg _ hi] at hspell
  exact ⟨hi, hwf, spells_bytes_iff.1 hspell⟩

/-- With no byte missing a VERB finds its data (R133). -/
theorem decodeData_total {rd : Source} (hrd : ∀ a, (rd a).isSome = true)
    (form : List Byte → Instr) (n : Nat) (c : Cursor) :
    ∃ data c', data.length = n ∧ decodeData form rd n c = .ok (form data) c' := by
  obtain ⟨⟨data, c'⟩, h⟩ := readByteList_total hrd n c
  obtain ⟨hlen, hdata⟩ := readByteList_eq_some.1 h
  exact ⟨data, c', hlen, decodeData_eq_ok.2 ⟨data, hlen, rfl, hdata⟩⟩

/-- Settles O7: in each range what the decoder reads after the opcode is there. -/
theorem legOpcodeRangesAreTotal : Obligations.LegOpcodeRangesAreTotal := by
  intro rd op c hrd
  obtain ⟨⟨l, c1⟩, hl⟩ := byteRead_total hrd c
  refine ⟨fun hhi => ?_, fun hlo hhi => ?_, fun hlo hhi => ?_, fun hlo hhi => ?_,
    fun hlo hhi => ?_, fun hlo => ?_⟩
  · obtain ⟨data, c', hlen, h⟩ := decodeData_total hrd .verb op.toNat c
    exact ⟨data, c', (decodeOpcode_verb (by omega)).trans h, hlen⟩
  · obtain ⟨data, c', -, h⟩ :=
      decodeData_total hrd .verbx (256 * (op.toNat - 0x20) + l.toNat) c1
    exact ⟨data, c', (decodeOpcode_verbx hlo (by omega)).2 ⟨l, c1, hl, h⟩⟩
  · exact ⟨_, l, c1, (decodeOpcode_lfill hlo (by omega)).2 ⟨l, hl, rfl⟩⟩
  · obtain ⟨⟨b, c2⟩, hb⟩ := byteRead_total hrd c1
    exact ⟨_, b, c2, (decodeOpcode_lfillx hlo (by omega)).2 ⟨l, b, c1, hl, hb, rfl⟩⟩
  · exact ⟨_, decodeOpcode_reuse hlo (by omega)⟩
  · exact ⟨_, _, c1, (decodeOpcode_newoff hlo).2 ⟨l, hl, rfl⟩⟩

end Sys2Proof.Machine

namespace Sys2Proof.Machine

/-! ### Words written out (R63, R65, R68) -/

/-- Settles O10: each word is read bit by bit and byte by byte. -/
theorem writtenOutWordsDecode : Obligations.WrittenOutWordsDecode := by
  refine ⟨?_, ?_, ?_, ?_, ?_, ?_, ?_, ?_, ?_, ?_, ?_, ?_⟩ <;> decide

/-! ### What the commands raise and deliver (R95, R153, R217) -/

/-- What raising an error does is what R221 and R222 say. -/
theorem raise_errorEntered (e : Error) (s : State) : ErrorEntered s e (raise e s) := by
  obtain ⟨herr, hst, -, hfst⟩ := raise_sets e s
  refine ⟨herr, hst, ?_, fun hfr => by rw [hfst, if_pos hfr], raise_unframed e s, raise_frame e s⟩
  rintro c o p rfl
  exact raise_report c o p s

/-- A backreference the output does not reach raises the error with its three values, whatever the count (R153). -/
theorem emitBackreference_of_not_reaches {s : State} {o : Nat} (c : Nat) (h : ¬ s.reaches o) :
    emitBackreference o c s = .next (raise (.invalidBackreference c o s.olen) s) := by
  unfold State.reaches at h
  rcases emitBackreference_cases o c s with ⟨-, he⟩ | ⟨hpos, hle, -⟩ | ⟨hpos, hle, -⟩
  · exact he
  all_goals exact absurd ⟨hpos, hle⟩ h

theorem emitBackreference_errorEntered {s : State} {o : Nat} (c : Nat) (h : ¬ s.reaches o) :
    ∃ t, emitBackreference o c s = .next t ∧
      ErrorEntered s (.invalidBackreference c o s.olen) t :=
  ⟨_, emitBackreference_of_not_reaches c h, raise_errorEntered _ s⟩

/-- NEWOFF's `last_off` is among what an error leaves unspecified (R222). -/
theorem errorEntered_of_lastOff {s t : State} {e : Error} {o : BitVec 13}
    (h : ErrorEntered { s with lastOff := o } e t) : ErrorEntered s e t := h

/-- Settles O18: all four are one backreference, SMATCH and LMATCH after their count's delivery, NEWOFF after its
offset is kept. -/
theorem badOffsetsRaiseInvalidBackreference : Obligations.BadOffsetsRaiseInvalidBackreference := by
  intro s
  refine ⟨fun o cc h => ?_, fun v cc h => ?_, fun n h => ?_, fun n o h => ?_⟩
  · exact emitBackreference_errorEntered (s := s.deliverCount (countOf cc)) (countOf cc) h
  · exact emitBackreference_errorEntered (s := s.deliverCount (countOf cc)) (countOf cc) h
  · exact emitBackreference_errorEntered n.toNat h
  · obtain ⟨t, he, ht⟩ :=
      emitBackreference_errorEntered (s := { s with lastOff := o }) (4 + n.toNat) h
    exact ⟨t, he, errorEntered_of_lastOff ht⟩

/-- A count code on its own is the delivery of its count (log 5). -/
theorem exec_toInstr (cc : CountCode) (s : State) :
    exec cc.toInstr s = .next (s.deliverCount (countOf cc)) := by
  cases cc <;> rfl

/-- Settles O21: a match makes the same delivery as its count code. -/
theorem countCodesDeliverTheirCount : Obligations.CountCodesDeliverTheirCount := by
  intro s
  refine ⟨exec_toInstr .two s, exec_toInstr .three s, exec_toInstr .four s, exec_toInstr .five s,
    fun k => exec_toInstr (.six k) s, fun m => exec_toInstr (.fourteen m) s, fun o cc t h => ?_⟩
  rw [exec_toInstr] at h
  cases h
  rfl

/-! ### The SELECT step (R61, R110) -/

/-- With no turn due and DEC in a run the step is DEC's (log 6). -/
theorem step_of_running {s : State} (hagenda : s.agenda = []) (hst : s.st.running = true) :
    step s = decStep exec s := by
  rw [step_of_no_agenda hagenda, State.mover, if_pos hst]
  rfl

theorem step_of_select {s : State} (hagenda : s.agenda = []) (hst : s.st = .select) :
    step s = decSelect exec s := by
  rw [step_of_running hagenda (by rw [hst]; rfl), decStep, hst]

/-- A first byte `00` and a second byte are the header of an ADV chunk. -/
theorem decodeSelect_adv {rd : Source} {c : Cursor} {w0 : Byte} (hip : c.ip = 0)
    (h0 : rd 0 = some 0) (h1 : rd 1 = some w0) :
    decodeSelect rd c = some (some (.advHeader w0), { c with ip := 2 }) := by
  simp [decodeSelect, byteRead, hip, h0, h1]

/-- Any other first byte is left unread. -/
theorem decodeSelect_leg {rd : Source} {c : Cursor} {d : Byte} (hip : c.ip = 0)
    (h0 : rd 0 = some d) (hd : d ≠ 0) : decodeSelect rd c = some (none, c) := by
  obtain ⟨ip, cw, cb⟩ := c
  cases hip
  simp [decodeSelect, byteRead, h0, show d ≠ 0#8 from hd]

theorem decodeSelect_truncated {rd : Source} {c : Cursor} (hip : c.ip = 0)
    (h : rd 0 = none ∨ (rd 0 = some 0 ∧ rd 1 = none)) : decodeSelect rd c = none := by
  rcases h with h0 | ⟨h0, h1⟩
  · simp [decodeSelect, byteRead, hip, h0]
  · simp [decodeSelect, byteRead, hip, h0, h1]

/-- The SELECT step on an ADV chunk runs its header (R93). -/
theorem step_select_adv {s : State} {w0 : Byte} (hagenda : s.agenda = []) (hst : s.st = .select)
    (hip : s.ip = 0) (h0 : s.inSource 0 = some 0) (h1 : s.inSource 1 = some w0) :
    step s = .next { s with st := .advReadControl, ip := 2, cw := w0.setWidth 16, cb := 8 } := by
  rw [step_of_select hagenda hst, decSelect, decodeSelect_adv hip h0 h1]
  rfl

/-- The SELECT step on a LEG chunk leaves the first byte to the first command (R61). -/
theorem step_select_leg {s : State} {d : Byte} (hagenda : s.agenda = []) (hst : s.st = .select)
    (hip : s.ip = 0) (h0 : s.inSource 0 = some d) (hd : d ≠ 0) :
    step s = .next { s with st := .legOpcode } := by
  rw [step_of_select hagenda hst, decSelect, decodeSelect_leg hip h0 hd]
  rfl

/-- Settles O27. -/
theorem firstByteSelectsTheFormat : Obligations.FirstByteSelectsTheFormat := by
  intro s hagenda hst hip
  have hsource (a : Nat) : s.inSource a = if a < s.n then some (s.inp.read a) else none := rfl
  refine ⟨fun hn h0 => ?_, fun hn h0 => ?_, fun hn => ?_⟩
  · exact step_select_leg hagenda hst hip ((hsource 0).trans (if_pos hn)) h0
  · refine ⟨_, step_select_adv (w0 := s.inp.read 1) hagenda hst hip ?_ ?_, rfl, ?_⟩
    · rw [hsource, if_pos (by omega), h0]
    · rw [hsource, if_pos (by omega)]
    · exact BitVec.toNat_setWidth_of_le (by omega)
  · refine ⟨raise .truncated s, ?_, raise_errorEntered _ s⟩
    rw [step_of_select hagenda hst, decSelect, decodeSelect_truncated hip]
    rcases hn with hn | ⟨hn, h0⟩
    · exact .inl (by rw [hsource, if_neg (by omega)])
    · exact .inr ⟨by rw [hsource, if_pos (by omega), h0], by rw [hsource, if_neg (by omega)]⟩

end Sys2Proof.Machine

namespace Sys2Proof.Machine

/-! ### Running a program (R86)

A command does not look at DEC's run state or cursor, so a program executed by itself and the same program fetched
from IN make the same states but for those. -/

/-- The state with DEC in `st` and its cursor at `c`. -/
def State.placed (s : State) (st : RunState) (c : Cursor) : State := { s.setCursor c with st := st }

@[simp] theorem placed_cfg (s : State) (st : RunState) (c : Cursor) :
    (s.placed st c).cfg = s.cfg := rfl
@[simp] theorem placed_n (s : State) (st : RunState) (c : Cursor) : (s.placed st c).n = s.n := rfl
@[simp] theorem placed_ip (s : State) (st : RunState) (c : Cursor) : (s.placed st c).ip = c.ip := rfl
@[simp] theorem placed_cursor (s : State) (st : RunState) (c : Cursor) :
    (s.placed st c).cursor = c := rfl
@[simp] theorem placed_inSource (s : State) (st : RunState) (c : Cursor) :
    (s.placed st c).inSource = s.inSource := rfl
@[simp] theorem placed_room (s : State) (st : RunState) (c : Cursor) (k : Nat) :
    (s.placed st c).room k = s.room k := rfl

theorem putBytes_placed (st : RunState) (c : Cursor) (bs : List Byte) :
    ∀ s : State, putBytes bs (s.placed st c) = (putBytes bs s).placed st c := by
  induction bs with
  | nil => exact fun _ => rfl
  | cons b bs ih => exact fun s => ih (s.putByte b)

theorem copyBytes_placed (st : RunState) (c : Cursor) (o k : Nat) :
    ∀ s : State, copyBytes o k (s.placed st c) = (copyBytes o k s).placed st c := by
  induction k with
  | zero => exact fun _ => rfl
  | succ k ih => exact fun s => ih (s.putByte (s.out.read (s.olen - o)))

theorem emitLiterals_placed {bs : List Byte} {s t : State} (st : RunState) (c : Cursor)
    (h : emitLiterals bs s = .next t) :
    emitLiterals bs (s.placed st c) = .next (t.placed st c) := by
  rcases emitLiterals_cases bs s with ⟨hroom, he⟩ | ⟨-, he⟩ <;> rw [he] at h <;> cases h
  rw [emitLiterals, placed_room, if_pos hroom, putBytes_placed]

theorem emitFill_placed {b : Byte} {k : Nat} {s t : State} (st : RunState) (c : Cursor)
    (h : emitFill b k s = .next t) : emitFill b k (s.placed st c) = .next (t.placed st c) := by
  rcases emitFill_cases b k s with ⟨hroom, he⟩ | ⟨-, he⟩ <;> rw [he] at h <;> cases h
  rw [emitFill, placed_room, if_pos hroom, fillBytes_eq_putBytes, fillBytes_eq_putBytes,
    putBytes_placed]

theorem emitBackreference_placed {o k : Nat} {s t : State} (st : RunState) (c : Cursor)
    (h : emitBackreference o k s = .next t) (hne : t.st ≠ .error) :
    emitBackreference o k (s.placed st c) = .next (t.placed st c) := by
  rcases emitBackreference_cases o k s with ⟨-, he⟩ | ⟨hpos, hle, hroom, he⟩ | ⟨-, -, -, he⟩ <;>
    rw [he] at h <;> cases h
  · exact absurd (raise_st _ s) hne
  · have hreach : ¬ (o = 0 ∨ (s.placed st c).olen < o) := by
      change ¬ (o = 0 ∨ s.olen < o)
      omega
    rw [emitBackreference, if_neg hreach, placed_room, if_pos hroom, copyBytes_placed]

/-- The commands of either format. -/
def IsCommand (i : Instr) : Prop := i.isAdvCommand = true ∨ i.isLegCommand = true

/-- A command that raises no error does the same wherever DEC stands. -/
theorem exec_placed {i : Instr} {s t : State} (st : RunState) (c : Cursor) (hi : IsCommand i)
    (h : exec i s = .next t) (hne : t.st ≠ .error) :
    exec i (s.placed st c) = .next (t.placed st c) := by
  cases i with
  | lit b => exact emitLiterals_placed st c h
  | verb data | verbx data => exact emitLiterals_placed st c h
  | fill sz b | fill12 sz b | lfill n b | lfillx n b => exact emitFill_placed st c h
  | smatch o cc | lmatch v cc =>
    exact emitBackreference_placed (s := s.deliverCount (countOf cc)) st c h hne
  | reuse n => exact emitBackreference_placed st c h hne
  | newoff n o => exact emitBackreference_placed (s := { s with lastOff := o }) st c h hne
  | _ => simp [IsCommand, Instr.isAdvCommand, Instr.isLegCommand] at hi

/-- `t` is `s` but for the output, the delivered count and the kept offset. -/
def OutputOnly (s t : State) : Prop :=
  t = { s with out := t.out, olen := t.olen, count := t.count, lastOff := t.lastOff }

theorem OutputOnly.trans {s u t : State} (h : OutputOnly s u) (k : OutputOnly u t) :
    OutputOnly s t := by
  unfold OutputOnly at *
  rw [k, h]

theorem OutputOnly.st {s t : State} (h : OutputOnly s t) : t.st = s.st := by rw [h]

theorem OutputOnly.cursor {s t : State} (h : OutputOnly s t) : t.cursor = s.cursor := by
  rw [h]; rfl

/-- A command that raises no error makes output only. -/
theorem exec_outputOnly {i : Instr} {s t : State} (hi : IsCommand i) (h : exec i s = .next t)
    (hne : t.st ≠ .error) : OutputOnly s t := by
  obtain ⟨k, o, -, he⟩ := exec_command hi h
  cases he with
  | appended bs =>
    unfold OutputOnly
    rw [putBytes_frame]
  | raised e => exact absurd (raise_st e _) hne

/-- A program of commands takes its first command's step and goes on. -/
theorem execAll_cons_next {i : Instr} {is : List Instr} {s u : State}
    (h : execAll (i :: is) s = .next u) : ∃ t, exec i s = .next t ∧ execAll is t = .next u := by
  unfold execAll at h
  split at h
  next t ht => exact ⟨t, ht, h⟩
  · cases h
  · cases h

/-- A program that ends without an error has met none, and makes output only. -/
theorem execAll_outputOnly {prog : List Instr} (hprog : ∀ i ∈ prog, IsCommand i) :
    ∀ {s u : State}, execAll prog s = .next u → u.st ≠ .error → OutputOnly s u := by
  induction prog with
  | nil =>
    rintro s _ ⟨⟩ -
    rfl
  | cons i is ih =>
    intro s u h hne
    obtain ⟨t, ht, hu⟩ := execAll_cons_next h
    have hrest : OutputOnly t u := ih (fun j hj => hprog j (List.mem_cons_of_mem _ hj)) hu hne
    exact (exec_outputOnly (hprog i List.mem_cons_self) ht (hrest.st ▸ hne)).trans hrest

/-! ### The machine on a chunk -/

/-- The machine has no turn due, reads its commands from `rd`, and has the field order `fo`. -/
structure Loaded (s : State) (fo : FieldOrder) (rd : Source) : Prop where
  agenda : s.agenda = []
  source : s.inSource = rd
  order : s.cfg.fieldOrder = fo

theorem Loaded.of_outputOnly {s t : State} {fo : FieldOrder} {rd : Source} (h : Loaded s fo rd)
    (k : OutputOnly s t) : Loaded t fo rd := by
  rw [k]
  exact ⟨h.agenda, h.source, h.order⟩

section Run

variable {M : Host.Core}

theorem run_succ {s t : M.State} (k : Nat) (h : M.step s = .next t) :
    M.run (k + 1) s = M.run k t := by
  rw [Host.Core.run, h]

theorem run_one {s t : M.State} (h : M.step s = .next t) : M.run 1 s = .next t := run_succ 0 h

theorem run_succ_next {k : Nat} {s u : M.State} (h : M.run (k + 1) s = .next u) :
    ∃ t, M.step s = .next t ∧ M.run k t = .next u := by
  rw [Host.Core.run] at h
  split at h
  next t ht => exact ⟨t, ht, h⟩
  · cases h
  · cases h

theorem run_add {j : Nat} (k : Nat) : ∀ {s t : M.State}, M.run j s = .next t →
    M.run (j + k) s = M.run k t := by
  induction j with
  | zero =>
    rintro s _ ⟨⟩
    rw [Nat.zero_add]
  | succ j ih =>
    intro s t h
    obtain ⟨u, hu, h⟩ := run_succ_next h
    rw [Nat.add_right_comm, run_succ _ hu, ih h]

end Run

/-- Where an ADV command is spelled the step executes it. -/
theorem step_adv_of_spells {s : State} {fo : FieldOrder} {rd : Source} {i : Instr} {c c' : Cursor}
    (hs : Loaded s fo rd) (hi : i.isAdvCommand = true ∨ i = .endMark) (hwf : i.wf = true)
    (h : spells rd (encode fo i) c = some c') :
    step (s.placed .advReadControl c) = exec i (s.placed .advReadControl c') := by
  obtain ⟨hagenda, rfl, rfl⟩ := hs
  rw [step_of_running (s := s.placed _ c) hagenda rfl]
  change decAdv exec _ = _
  rw [decAdv, placed_cfg, placed_inSource, placed_cursor, decodeAdv_of_spells hi hwf h]
  rfl

/-- Where a LEG command is spelled the step executes it. -/
theorem step_leg_of_spells {s : State} {fo : FieldOrder} {rd : Source} {i : Instr} {c c' : Cursor}
    (hs : Loaded s fo rd) (hi : i.isLegCommand = true) (hwf : i.wf = true)
    (h : spells rd (encode fo i) c = some c') :
    step (s.placed .legOpcode c) = exec i (s.placed .legOpcode c') := by
  obtain ⟨hagenda, rfl, -⟩ := hs
  rw [encode_eq_encodeLeg fo hi, ← encode_eq_encodeLeg .msbFirst hi] at h
  have hdec := decodeLeg_of_spells hi hwf h
  obtain ⟨hlt, hle, -⟩ := decodeLeg_source hdec
  rw [step_of_running (s := s.placed _ c) hagenda rfl]
  change decLeg exec _ = _
  rw [decLeg, placed_n, placed_ip, if_neg (by omega), placed_inSource, placed_cursor, hdec]
  rfl

/-- A program whose every command is executed where it is spelled runs on the stream that spells it as it does by
itself. -/
theorem run_of_spells {fo : FieldOrder} {rd : Source} {st : RunState} {prog : List Instr}
    (hprog : ∀ i ∈ prog, IsCommand i)
    (hstep : ∀ i ∈ prog, ∀ (s : State) (c c' : Cursor), Loaded s fo rd →
      spells rd (encode fo i) c = some c' → step (s.placed st c) = exec i (s.placed st c')) :
    ∀ {s u : State} {c c' : Cursor}, Loaded s fo rd →
      spells rd (prog.flatMap (encode fo)) c = some c' →
      execAll prog s = .next u → u.st ≠ .error →
      Host.Core.run Sys2Proof.core prog.length (s.placed st c) = .next (u.placed st c') := by
  induction prog with
  | nil =>
    rintro s _ c _ - ⟨⟩ ⟨⟩ -
    rfl
  | cons i is ih =>
    intro s u c c' hs hspell h hne
    rw [List.forall_mem_cons] at hprog hstep
    obtain ⟨c1, hfirst, hrest⟩ := spells_append.1 (List.flatMap_cons ▸ hspell)
    obtain ⟨t, ht, hu⟩ := execAll_cons_next h
    have htne : t.st ≠ .error := (execAll_outputOnly hprog.2 hu hne).st ▸ hne
    have hmove : step (s.placed st c) = .next (t.placed st c1) :=
      (hstep.1 s c c1 hs hfirst).trans (exec_placed st c1 hprog.1 ht htne)
    refine (run_succ (M := Sys2Proof.core) is.length hmove).trans ?_
    exact ih hprog.2 hstep.2 (hs.of_outputOnly (exec_outputOnly hprog.1 ht htne)) hrest hu hne

/-- IN made of a chunk, with its length in `N`, is the chunk's stream. -/
theorem inSource_of_chunk {s : State} {bs : List Byte} (hinp : s.inp = Memory.ofBytes bs)
    (hn : s.n = bs.length) : s.inSource = listSource bs := by
  funext a
  rw [State.inSource, Memory.source_eq, hinp, hn, Memory.ofBytes,
    Memory.read_writeBytes bs [] 0 a Memory.wf_nil, listSource]
  by_cases ha : a < bs.length <;> simp [ha]

/-! ### LEG programs -/

theorem flatMap_encode_leg (fo : FieldOrder) {prog : List Instr}
    (hprog : ∀ i ∈ prog, i.isLegCommand = true) :
    prog.flatMap (encode fo) = (assembleLeg prog).map .byte := by
  rw [assembleLeg, List.map_flatMap]
  exact List.flatMap_congr fun i hi => encode_eq_encodeLeg fo (hprog i hi)

/-- At the end of IN a LEG run is DONE (R130). -/
theorem step_leg_end {s : State} {c : Cursor} (hagenda : s.agenda = []) (hip : s.n ≤ c.ip) :
    step (s.placed .legOpcode c) = .next (s.placed .done c) := by
  rw [step_of_running (s := s.placed _ c) hagenda rfl]
  change decLeg exec _ = _
  rw [decLeg, placed_n, placed_ip, if_pos hip]
  rfl

/-- Settles O58: SELECT, one step for each command, and the end of IN. -/
theorem assembledLegProgramRuns : Obligations.AssembledLegProgramRuns := by
  intro prog s u hprog hagenda hst hip hinp hn hhead h hne
  have hs : Loaded s s.cfg.fieldOrder (listSource (assembleLeg prog)) :=
    ⟨hagenda, inSource_of_chunk hinp hn, rfl⟩
  have hcommands : ∀ i ∈ prog, IsCommand i := fun i hi => .inr (hprog i hi).1
  have hout := execAll_outputOnly hcommands h hne
  have hselect : step s = .next (s.placed .legOpcode s.cursor) := by
    refine step_select_leg hagenda hst hip (d := (assembleLeg prog).headD 0) ?_ hhead
    rw [hs.source, listSource]
    cases hbs : assembleLeg prog with
    | nil => rw [hbs] at hhead; exact absurd rfl hhead
    | cons b bs => rfl
  have hspell : spells (listSource (assembleLeg prog)) (prog.flatMap (encode s.cfg.fieldOrder))
      s.cursor = some { s.cursor with ip := s.n } := by
    rw [flatMap_encode_leg _ fun i hi => (hprog i hi).1, spells_bytes_iff, cursor_ip, hip, hn]
    exact ⟨by rw [Nat.zero_add], fun k _ => by rw [Nat.zero_add, listSource]⟩
  have hrun := run_of_spells hcommands (fun i hi _ _ _ hs =>
    step_leg_of_spells hs (hprog i hi).1 (hprog i hi).2) hs hspell h hne
  have hn' : u.n = s.n := by rw [hout]
  have hend := step_leg_end (s := u) (c := { s.cursor with ip := s.n })
    (hs.of_outputOnly hout).agenda hn'.le
  refine ⟨_, (run_succ _ hselect).trans ((run_add 1 hrun).trans (run_one hend)), ?_⟩
  rw [← hout.cursor]
  rfl

end Sys2Proof.Machine

namespace Sys2Proof.Machine

/-! ### The assembler (R80 to R84)

The assembler fills a control word after the bytes behind it are laid down, so what a reader meets at some point of the
stream is fixed only later. `Asm.Settles a w`: the bytes `w` hold all that the assembler state `a` will not write
again. The final bytes settle every state on the way, and from each of them the reader gets the next element back. -/

/-- Bit `j` of the control word at `slot`: bit `j mod 8` of its byte `j div 8` (R92). -/
def bitAt (w : List Byte) (slot j : Nat) : Bool := (w.getD (slot + j / 8) 0).getLsbD (j % 8)

/-- The control word at `slot`. -/
def controlWord (w : List Byte) (slot : Nat) : Word := wordOf (w.getD slot 0) (w.getD (slot + 1) 0)

theorem getLsbD_wordOf (lo hi : Byte) (j : Nat) :
    (wordOf lo hi).getLsbD j = if j < 8 then lo.getLsbD j else hi.getLsbD (j - 8) := by
  have happend : wordOf lo hi = hi ++ lo := by
    have hlo := lo.isLt
    have hhi := hi.isLt
    rw [← BitVec.toNat_inj, wordOf, BitVec.toNat_ofNat, BitVec.toNat_append,
      ← Nat.shiftLeft_add_eq_or_of_lt hlo, Nat.shiftLeft_eq]
    omega
  rw [happend, BitVec.getLsbD_append]

theorem getLsbD_controlWord (w : List Byte) (slot : Nat) {j : Nat} (hj : j < 16) :
    (controlWord w slot).getLsbD j = bitAt w slot j := by
  rw [controlWord, getLsbD_wordOf, bitAt]
  split_ifs with h8
  · rw [Nat.div_eq_of_lt h8, Nat.mod_eq_of_lt h8, Nat.add_zero]
  · rw [show j / 8 = 1 by omega, show j % 8 = j - 8 by omega]

theorem getLsbD_setBit (x : Byte) (b : Bool) {k j : Nat} (hk : k < 8) :
    (setBit x k b).getLsbD j = (x.getLsbD j || (b && decide (j = k))) := by
  cases b with
  | false => simp [setBit]
  | true =>
    simp only [setBit, if_true, BitVec.getLsbD_or, Bool.true_and]
    congr 1
    by_cases hj : j = k
    · simp [hj, hk]
    · simp [hj]
      omega

/-- `PutBit` sets the bit at hand and no other (R81). -/
theorem bitAt_modify {w : List Byte} {slot k : Nat} (b : Bool) (j : Nat)
    (hlen : slot + k / 8 < w.length) :
    bitAt (w.modify (slot + k / 8) (fun x => setBit x (k % 8) b)) slot j =
      (bitAt w slot j || (b && decide (j = k))) := by
  simp only [bitAt, List.getD_eq_getElem?_getD, List.getElem?_modify]
  by_cases hbyte : j / 8 = k / 8
  · rw [hbyte, List.getElem?_eq_getElem hlen]
    simp only [if_true, Option.map_eq_map, Option.map_some, Option.getD_some]
    rw [getLsbD_setBit _ _ (Nat.mod_lt k (by omega)),
      decide_eq_decide.2 (show j % 8 = k % 8 ↔ j = k by omega)]
  · have hne : j ≠ k := fun h => hbyte (h ▸ rfl)
    simp [hne, show k / 8 ≠ j / 8 from Ne.symm hbyte]

/-- The current control word is inside the bytes, and no bit of it is set that was not put. -/
structure AsmSound (a : Asm) : Prop where
  slot : a.wslot + 2 ≤ a.w.length
  used : a.wused ≤ 16
  clear : ∀ j, a.wused ≤ j → j < 16 → bitAt a.w a.wslot j = false

/-- The bytes `w` hold all that the state will not write again: its bytes outside the current control word, and the
bits put into that word. -/
structure Settles (a : Asm) (w : List Byte) : Prop where
  length : a.w.length ≤ w.length
  bytes : ∀ k < a.w.length, k ≠ a.wslot → k ≠ a.wslot + 1 → w[k]? = a.w[k]?
  bits : ∀ j < a.wused, bitAt w a.wslot j = bitAt a.w a.wslot j

theorem settles_self (a : Asm) : Settles a a.w := ⟨le_rfl, fun _ _ _ _ => rfl, fun _ _ => rfl⟩

/-- Where a reader of `w` stands when all that was put is read. -/
def readerOf (a : Asm) (w : List Byte) : Cursor :=
  { ip := a.w.length, cw := controlWord w a.wslot >>> a.wused, cb := 16 - a.wused }

/-- A bit of a control word depends on the word's two bytes only. -/
theorem bitAt_congr {w w' : List Byte} {slot j : Nat} (hj : j < 16) (h0 : w'[slot]? = w[slot]?)
    (h1 : w'[slot + 1]? = w[slot + 1]?) : bitAt w' slot j = bitAt w slot j := by
  have hbyte : w'[slot + j / 8]? = w[slot + j / 8]? := by
    rcases Nat.lt_or_ge j 8 with h8 | h8
    · rwa [Nat.div_eq_of_lt h8]
    · rwa [show j / 8 = 1 by omega]
  rw [bitAt, bitAt, List.getD_eq_getElem?_getD, List.getD_eq_getElem?_getD, hbyte]

/-! #### A raw byte (R82) -/

theorem bitAt_append {w : List Byte} {slot j : Nat} (bs : List Byte) (hj : j < 16)
    (hslot : slot + 2 ≤ w.length) : bitAt (w ++ bs) slot j = bitAt w slot j :=
  bitAt_congr hj (List.getElem?_append_left (by omega)) (List.getElem?_append_left (by omega))

theorem putByte_sound {a : Asm} (h : AsmSound a) (b : Byte) : AsmSound (a.putByte b) := by
  refine ⟨?_, h.used, fun j hlo hhi => ?_⟩
  · exact h.slot.trans (by simp [Asm.putByte])
  · exact (bitAt_append [b] hhi h.slot).trans (h.clear j hlo hhi)

theorem settles_of_putByte {a : Asm} {b : Byte} {w : List Byte} (ha : AsmSound a)
    (h : Settles (a.putByte b) w) : Settles a w := by
  have hlen : a.w.length + 1 ≤ w.length := by simpa [Asm.putByte] using h.length
  have hused := ha.used
  refine ⟨by omega, fun k hk h0 h1 => ?_, fun j hj => ?_⟩
  · exact (h.bytes k (by simp [Asm.putByte]; omega) h0 h1).trans (List.getElem?_append_left hk)
  · exact (h.bits j hj).trans (bitAt_append [b] (by omega) ha.slot)

/-- A reader gets the byte put. -/
theorem byteRead_of_putByte {a : Asm} {b : Byte} {w : List Byte} (ha : AsmSound a)
    (h : Settles (a.putByte b) w) :
    byteRead (listSource w) (readerOf a w) = some (b, readerOf (a.putByte b) w) := by
  have hslot := ha.slot
  refine byteRead_eq_some.2 ⟨?_, by simp [readerOf, Asm.putByte]⟩
  refine (h.bytes a.w.length (by simp [Asm.putByte]) ?_ ?_).trans (by simp [Asm.putByte])
  · change a.w.length ≠ a.wslot
    omega
  · change a.w.length ≠ a.wslot + 1
    omega

/-! #### A control bit (R81) -/

theorem room_of_full {a : Asm} (h : a.wused = 16) :
    a.room = { w := a.w ++ [0, 0], wslot := a.w.length, wused := 0 } := if_pos h

theorem room_of_not_full {a : Asm} (h : a.wused ≠ 16) : a.room = a := if_neg h

theorem room_used_lt {a : Asm} (ha : AsmSound a) : a.room.wused < 16 := by
  by_cases h : a.wused = 16
  · rw [room_of_full h]
    exact Nat.zero_lt_succ _
  · rw [room_of_not_full h]
    exact lt_of_le_of_ne ha.used h

theorem room_sound {a : Asm} (ha : AsmSound a) : AsmSound a.room := by
  by_cases h : a.wused = 16
  · rw [room_of_full h]
    refine ⟨by simp, Nat.zero_le _, fun j _ hj => ?_⟩
    change ((a.w ++ [0, 0]).getD (a.w.length + j / 8) 0).getLsbD (j % 8) = false
    rw [List.getD_eq_getElem?_getD, List.getElem?_append_right (Nat.le_add_right _ _),
      Nat.add_sub_cancel_left]
    rcases Nat.lt_or_ge j 8 with h8 | h8
    · simp [Nat.div_eq_of_lt h8]
    · simp [show j / 8 = 1 by omega]
  · rwa [room_of_not_full h]

theorem settles_of_room {a : Asm} {w : List Byte} (ha : AsmSound a) (h : Settles a.room w) :
    Settles a w := by
  by_cases hfull : a.wused = 16
  · rw [room_of_full hfull] at h
    have hlen : a.w.length + 2 ≤ w.length := by simpa using h.length
    have hold : ∀ k < a.w.length, w[k]? = a.w[k]? := fun k hk =>
      (h.bytes k (by simp; omega) (by simp; omega) (by simp; omega)).trans
        (List.getElem?_append_left hk)
    have hslot := ha.slot
    have hused := ha.used
    exact ⟨by omega, fun k hk _ _ => hold k hk, fun j hj =>
      bitAt_congr (by omega) (hold _ (by omega)) (hold _ (by omega))⟩
  · rwa [room_of_not_full hfull] at h

/-- A reader that has no bit left fetches the new word, whose place is where it stands (R91). -/
theorem refill_of_room {a : Asm} {w : List Byte} (ha : AsmSound a) (h : Settles a.room w) :
    refill (listSource w) (readerOf a w) = some (readerOf a.room w) := by
  by_cases hfull : a.wused = 16
  · rw [room_of_full hfull] at h ⊢
    have hlen : a.w.length + 2 ≤ w.length := by simpa using h.length
    have h0 : listSource w a.w.length = some (w.getD a.w.length 0) := by
      simp [listSource, show a.w.length < w.length by omega]
    have h1 : listSource w (a.w.length + 1) = some (w.getD (a.w.length + 1) 0) := by
      simp [listSource, show a.w.length + 1 < w.length by omega]
    simp [refill, readerOf, hfull, byteRead, h0, h1, controlWord]
  · have hused := ha.used
    rw [room_of_not_full hfull, refill, if_neg]
    change ¬ 16 - a.wused = 0
    omega

/-- The current control word after one more bit is put into it. -/
theorem bitAt_putBit {a : Asm} (ha : AsmSound a) (b : Bool) (j : Nat) :
    bitAt (a.putBit b).w (a.putBit b).wslot j =
      (bitAt a.room.w a.room.wslot j || (b && decide (j = a.room.wused))) := by
  have hslot := (room_sound ha).slot
  have hused := room_used_lt ha
  exact bitAt_modify b j (by omega)

theorem putBit_sound {a : Asm} (ha : AsmSound a) (b : Bool) : AsmSound (a.putBit b) := by
  have hroom := room_sound ha
  refine ⟨?_, room_used_lt ha, fun j hlo hhi => ?_⟩
  · exact hroom.slot.trans (by simp [Asm.putBit])
  · have hlo' : a.room.wused + 1 ≤ j := hlo
    rw [bitAt_putBit ha, hroom.clear j (by omega) hhi]
    simp
    omega

theorem settles_room_of_putBit {a : Asm} {b : Bool} {w : List Byte} (ha : AsmSound a)
    (h : Settles (a.putBit b) w) : Settles a.room w := by
  have hused := room_used_lt ha
  refine ⟨by simpa [Asm.putBit] using h.length, fun k hk h0 h1 => ?_, fun j hj => ?_⟩
  · refine (h.bytes k (by simpa [Asm.putBit] using hk) h0 h1).trans ?_
    exact List.getElem?_modify_ne _ _ (by omega)
  · refine (h.bits j (Nat.lt_succ_of_lt hj)).trans ?_
    rw [bitAt_putBit ha]
    simp
    omega

/-- A reader gets the bit put. -/
theorem readBit_of_putBit {a : Asm} {b : Bool} {w : List Byte} (ha : AsmSound a)
    (h : Settles (a.putBit b) w) :
    readBit (listSource w) (readerOf a w) = some (b, readerOf (a.putBit b) w) := by
  have hused := room_used_lt ha
  refine readBit_eq_some.2 ⟨_, refill_of_room ha (settles_room_of_putBit ha h), ?_, ?_⟩
  · have hbit : bitAt w a.room.wslot a.room.wused = b := by
      refine (h.bits a.room.wused (Nat.lt_succ_self _)).trans ?_
      rw [bitAt_putBit ha, (room_sound ha).clear _ le_rfl hused]
      simp
    simp only [readerOf, BitVec.getLsbD_ushiftRight, Nat.add_zero]
    rw [getLsbD_controlWord _ _ hused, hbit]
  · simp [readerOf, Asm.putBit, BitVec.shiftRight_add, Nat.sub_sub]

/-! #### Programs (R84) -/

theorem put_sound {a : Asm} (ha : AsmSound a) (e : Elem) : AsmSound (a.put e) := by
  cases e with
  | bit b => exact putBit_sound ha b
  | byte b => exact putByte_sound ha b

theorem settles_of_put {a : Asm} {e : Elem} {w : List Byte} (ha : AsmSound a)
    (h : Settles (a.put e) w) : Settles a w := by
  cases e with
  | bit b => exact settles_of_room ha (settles_room_of_putBit ha h)
  | byte b => exact settles_of_putByte ha h

theorem settles_of_putAll {es : List Elem} : ∀ {a : Asm} {w : List Byte}, AsmSound a →
    Settles (a.putAll es) w → Settles a w := by
  induction es with
  | nil => exact fun _ h => h
  | cons e es ih => exact fun ha h => settles_of_put ha (ih (put_sound ha e) h)

/-- A reader gets all elements put, in order. -/
theorem spells_of_putAll {es : List Elem} : ∀ {a : Asm} {w : List Byte}, AsmSound a →
    Settles (a.putAll es) w →
    spells (listSource w) es (readerOf a w) = some (readerOf (a.putAll es) w) := by
  induction es with
  | nil => exact fun _ _ => rfl
  | cons e es ih =>
    intro a w ha h
    have hput : Settles (a.put e) w := settles_of_putAll (put_sound ha e) h
    have hrest := ih (put_sound ha e) h
    cases e with
    | bit b => exact spells_bit_cons.2 ⟨_, readBit_of_putBit ha hput, hrest⟩
    | byte b => exact spells_byte_cons.2 ⟨_, byteRead_of_putByte ha hput, hrest⟩

theorem start_sound : AsmSound Asm.start := ⟨le_rfl, by decide, by decide⟩

theorem assembleAdv_eq (fo : FieldOrder) (prog : List Instr) :
    assembleAdv fo prog = (Asm.start.putAll (prog.flatMap (encode fo))).w := by
  have hfold : ∀ a : Asm,
      prog.foldl (fun a i => a.putAll (encode fo i)) a = a.putAll (prog.flatMap (encode fo)) := by
    induction prog with
    | nil => exact fun _ => rfl
    | cons i is ih =>
      intro a
      rw [List.foldl_cons, ih, List.flatMap_cons]
      exact List.foldl_append.symm
  rw [assembleAdv, hfold]

theorem wordOf_shiftRight_eight (lo hi : Byte) : wordOf lo hi >>> 8 = hi.setWidth 16 := by
  have hlo := lo.isLt
  have hhi := hi.isLt
  rw [← BitVec.toNat_inj, BitVec.toNat_ushiftRight, Nat.shiftRight_eq_div_pow, wordOf,
    BitVec.toNat_ofNat, BitVec.toNat_setWidth]
  omega

/-- The first word of an ADV chunk: the discriminator `00`, then the byte the header gives to the cursor (R80, R93). -/
theorem reader_start {w : List Byte} (h : Settles Asm.start w) :
    listSource w 0 = some 0 ∧ ∃ w0, listSource w 1 = some w0 ∧
      readerOf Asm.start w = { ip := 2, cw := w0.setWidth 16, cb := 8 } := by
  have hlen : 2 ≤ w.length := h.length
  have hzero : w.getD 0 0 = 0 := by
    refine BitVec.eq_of_getLsbD_eq fun j hj => ?_
    have hbit : bitAt w 0 j = bitAt [0, 0] 0 j := h.bits j hj
    have hnew : bitAt w 0 j = (w.getD 0 0).getLsbD j := by
      rw [bitAt, Nat.div_eq_of_lt hj, Nat.mod_eq_of_lt hj]
    rw [← hnew, hbit, bitAt, Nat.div_eq_of_lt hj]
    simp
  refine ⟨?_, w.getD 1 0, ?_, ?_⟩
  · rw [← hzero]
    simp [listSource, show 0 < w.length by omega]
  · simp [listSource, show 1 < w.length by omega]
  · change (⟨2, wordOf (w.getD 0 0) (w.getD 1 0) >>> 8, 8⟩ : Cursor) = _
    rw [wordOf_shiftRight_eight]

/-- The SELECT step on an assembled chunk leaves DEC where a reader starts. -/
theorem step_select_start {s : State} {w : List Byte} (hagenda : s.agenda = [])
    (hst : s.st = .select) (hip : s.ip = 0) (hsource : s.inSource = listSource w)
    (h : Settles Asm.start w) :
    step s = .next (s.placed .advReadControl (readerOf Asm.start w)) := by
  obtain ⟨h0, w0, h1, hreader⟩ := reader_start h
  rw [← hsource] at h0 h1
  rw [step_select_adv hagenda hst hip h0 h1, hreader]
  rfl

/-- The finished chunk settles every state of the assembler on the way, so a reader gets the program back and ends with
the chunk. -/
theorem spells_assembleAdv (fo : FieldOrder) (prog : List Instr) :
    Settles Asm.start (assembleAdv fo prog) ∧ ∃ c', c'.ip = (assembleAdv fo prog).length ∧
      spells (listSource (assembleAdv fo prog)) (prog.flatMap (encode fo))
        (readerOf Asm.start (assembleAdv fo prog)) = some c' := by
  rw [assembleAdv_eq]
  exact ⟨settles_of_putAll start_sound (settles_self _), _, rfl,
    spells_of_putAll start_sound (settles_self _)⟩

/-- Settles O57: SELECT with the header, one step for each command, and END. -/
theorem assembledAdvProgramRuns : Obligations.AssembledAdvProgramRuns := by
  intro prog s u hprog hagenda hst hip hinp hn h hne
  have hs : Loaded s s.cfg.fieldOrder (listSource (assembleAdv s.cfg.fieldOrder (prog ++ [.endMark]))) :=
    ⟨hagenda, inSource_of_chunk hinp hn, rfl⟩
  obtain ⟨hstart, c', hend, hspell⟩ := spells_assembleAdv s.cfg.fieldOrder (prog ++ [.endMark])
  rw [List.flatMap_append, List.flatMap_singleton] at hspell
  obtain ⟨c1, hcmds, hmark⟩ := spells_append.1 hspell
  have hcommands : ∀ i ∈ prog, IsCommand i := fun i hi => .inl (hprog i hi).1
  have hout := execAll_outputOnly hcommands h hne
  have hselect := step_select_start hagenda hst hip hs.source hstart
  have hrun := run_of_spells hcommands (fun i hi _ _ _ hs =>
    step_adv_of_spells hs (.inl (hprog i hi).1) (hprog i hi).2) hs hcmds h hne
  have hdone : step (u.placed .advReadControl c1) = .next (u.placed .done c') :=
    step_adv_of_spells (hs.of_outputOnly hout) (.inr rfl) rfl hmark
  refine ⟨_, (run_succ _ hselect).trans ((run_add 1 hrun).trans (run_one hdone)), ?_⟩
  rw [hn, ← hend]
  rfl

end Sys2Proof.Machine

namespace Sys2Proof.Machine

/-! ### Control bits behind a refill (R92) -/

/-- A cursor with bits cached is not refilled. -/
theorem refill_of_cached {rd : Source} {c : Cursor} (h : c.cb ≠ 0) : refill rd c = some c := if_neg h

/-- A refill of an empty cursor whose next two bytes are there (R91). -/
theorem refill_of_empty {rd : Source} {c : Cursor} {lo hi : Byte} (h : c.cb = 0)
    (hlo : rd c.ip = some lo) (hhi : rd (c.ip + 1) = some hi) :
    refill rd c = some { ip := c.ip + 2, cw := wordOf lo hi, cb := 16 } := by
  simp [refill, byteRead, h, hlo, hhi]

/-- The first bit read makes the refill, so control bits are the same from the refilled cursor on. -/
theorem readBitList_of_refill {rd : Source} {c c1 : Cursor} {n : Nat} (hn : 1 ≤ n)
    (h : refill rd c = some c1) (h1 : c1.cb ≠ 0) : readBitList rd n c = readBitList rd n c1 := by
  have hbit : readBit rd c = readBit rd c1 := by simp only [readBit, h, refill_of_cached h1]
  obtain ⟨m, rfl⟩ := Nat.exists_eq_add_of_le' hn
  rw [readBitList, readBitList, hbit]

/-- Cached control bits are read from the lowest on. -/
theorem readBitList_of_cached {rd : Source} (n : Nat) : ∀ c : Cursor, n ≤ c.cb →
    readBitList rd n c =
      some ((List.range n).map c.cw.getLsbD, { c with cw := c.cw >>> n, cb := c.cb - n }) := by
  induction n with
  | zero => exact fun c _ => by simp [readBitList]
  | succ n ih =>
    intro c hn
    have hbit : readBit rd c =
        some (c.cw.getLsbD 0, { c with cw := c.cw >>> 1, cb := c.cb - 1 }) :=
      readBit_eq_some.2 ⟨c, refill_of_cached (by omega), rfl, rfl⟩
    have hrest := ih { c with cw := c.cw >>> 1, cb := c.cb - 1 } (Nat.le_sub_one_of_lt hn)
    simp only [readBitList, hbit, hrest, List.range_succ_eq_map, List.map_cons, List.map_map,
      ← BitVec.shiftRight_add, Nat.sub_sub, Nat.add_comm 1 n]
    congr 3
    exact List.map_congr_left fun k _ => by simp [Nat.add_comm]

/-- Settles O11: after the refill the bits are those of the word, and its low byte is the one at the lower address. -/
theorem controlBitsComeLowestFirst : Obligations.ControlBitsComeLowestFirst := by
  intro rd c n lo hi hcb hpos hle hlo hhi
  have hbits := readBitList_of_cached (rd := rd) n ⟨c.ip + 2, wordOf lo hi, 16⟩ hle
  rw [← readBitList_of_refill hpos (refill_of_empty hcb hlo hhi) (Nat.succ_ne_zero 15)] at hbits
  refine ⟨_, hbits, by simp, fun k hk => ?_⟩
  rw [List.getElem?_map, List.getElem?_range hk, Option.map_some, getLsbD_wordOf]
  rcases Nat.lt_or_ge k 8 with h8 | h8
  · rw [if_pos h8, if_pos (Nat.div_eq_of_lt h8), Nat.mod_eq_of_lt h8]
  · rw [if_neg (by omega), if_neg (by omega), show k % 8 = k - 8 by omega]

/-! ### The header and the parts of a frame (R93, R201 to R204) -/

/-- A length field is the word of its low and its high byte (R202). -/
theorem wordOf_low_high (l : BitVec 16) :
    wordOf (BitVec.ofNat 8 (l.toNat % 256)) (BitVec.ofNat 8 (l.toNat / 256)) = l := by
  have hl := l.isLt
  rw [← BitVec.toNat_inj, wordOf]
  simp only [BitVec.toNat_ofNat]
  omega

theorem decodeLength_of_bytes {rd : Source} {fp : Nat} {lo hi : Byte} (hlo : rd fp = some lo)
    (hhi : rd (fp + 1) = some hi) :
    decodeLength rd fp = some (.chunk (.length (wordOf lo hi)), fp + 2) := by
  simp only [decodeLength, hlo, hhi]

theorem decodePayload_of_bytesAt {rd : Source} {fp : Nat} {p : List Byte} (h : BytesAt rd fp p) :
    decodePayload rd fp p.length = some (.chunk (.payload p), fp + p.length) := by
  simp only [decodePayload, availableBytes_of_bytesAt h, if_true]

theorem decodeCont_of_byte {rd : Source} {fp : Nat} {k : Byte} (h : rd fp = some k) :
    decodeCont rd fp = some (.chunk (.cont k), fp + 1) := by
  simp only [decodeCont, h]

/-- Settles O8. -/
theorem headerAndFramePartsDecode : Obligations.HeaderAndFramePartsDecode := by
  intro rd
  refine ⟨fun _ _ => decodeSelect_adv, fun fp l hlo hhi => ?_,
    fun _ _ => decodePayload_of_bytesAt, fun _ _ => decodeCont_of_byte⟩
  rw [decodeLength_of_bytes hlo hhi, wordOf_low_high]

/-! ### END, the header, and the end of IN (R90, R93, R118, R119, R130) -/

/-- Settles O20. -/
theorem endAndHeaderComplete : Obligations.EndAndHeaderComplete := fun _ _ =>
  ⟨rfl, _, rfl, rfl, BitVec.toNat_setWidth_of_le (by omega)⟩

theorem step_of_adv {s : State} (hagenda : s.agenda = []) (hst : s.st = .advReadControl) :
    step s = decAdv exec s := by
  rw [step_of_running hagenda (by rw [hst]; rfl), decStep, hst]

theorem step_of_leg {s : State} (hagenda : s.agenda = []) (hst : s.st = .legOpcode) :
    step s = decLeg exec s := by
  rw [step_of_running hagenda (by rw [hst]; rfl), decStep, hst]

/-- Settles O28: an ADV fetch that fails, a LEG fetch that fails with room for what it emitted, and the end test. -/
theorem endOfInputIsTruncatedOrDone : Obligations.EndOfInputIsTruncatedOrDone := by
  intro s hagenda
  refine ⟨fun hst hdec => ?_, fun k hst hlt hdec hroom => ?_, fun hst hend => ?_⟩
  · refine ⟨_, ?_, raise_errorEntered .truncated s⟩
    rw [step_of_adv hagenda hst, decAdv, hdec]
  · refine ⟨_, ?_, raise_errorEntered .truncated s⟩
    rw [step_of_leg hagenda hst, decLeg, if_neg (Nat.not_le.2 hlt), hdec]
    exact if_pos hroom
  · rw [step_of_leg hagenda hst, decLeg, if_pos hend]

end Sys2Proof.Machine

namespace Sys2Proof.Machine

/-! ## A DEC run ends (R97, R230, R275)

Every step of a running DEC answers or is refused at a finite OUT_CAP, and it uses up some of `stepsLeft`: a control
bit in an ADV run, a byte in a LEG run. -/

/-! ### What can refuse a step of DEC -/

/-- The result is a next state, or the refusal of a machine with a finite OUT_CAP (R157). -/
def AnsweredOrCapped (s : State) (r : Result) : Prop :=
  (∃ t, r = .next t) ∨ (r = .refused .outCapExceeded ∧ s.cfg.outCap ≠ none)

theorem answered_next (s t : State) : AnsweredOrCapped s (.next t) := .inl ⟨t, rfl⟩

/-- Only a machine with a finite OUT_CAP lacks room (R157). -/
theorem outCap_ne_none_of_no_room {s : State} {k : Nat} (h : s.room k = false) :
    s.cfg.outCap ≠ none := by
  intro hnone
  simp [State.room, hnone] at h

/-- Refusing for want of room is OUT_CAP's refusal. -/
theorem capped_of_no_room {s : State} {k : Nat} (h : s.room k = false) :
    AnsweredOrCapped s (.refused .outCapExceeded) := .inr ⟨rfl, outCap_ne_none_of_no_room h⟩

theorem emitLiterals_answered (bs : List Byte) (s : State) :
    AnsweredOrCapped s (emitLiterals bs s) := by
  rcases emitLiterals_cases bs s with ⟨-, he⟩ | ⟨hroom, he⟩ <;> rw [he]
  · exact answered_next s _
  · exact capped_of_no_room hroom

theorem emitFill_answered (b : Byte) (c : Nat) (s : State) : AnsweredOrCapped s (emitFill b c s) := by
  rcases emitFill_cases b c s with ⟨-, he⟩ | ⟨hroom, he⟩ <;> rw [he]
  · exact answered_next s _
  · exact capped_of_no_room hroom

theorem emitBackreference_answered (o c : Nat) (s : State) :
    AnsweredOrCapped s (emitBackreference o c s) := by
  rcases emitBackreference_cases o c s with ⟨-, he⟩ | ⟨-, -, -, he⟩ | ⟨-, -, hroom, he⟩ <;> rw [he]
  · exact answered_next s _
  · exact answered_next s _
  · exact capped_of_no_room hroom

/-- A command of either format is refused at OUT_CAP only. -/
theorem exec_command_answered {i : Instr} (s : State) (hi : IsCommand i) :
    AnsweredOrCapped s (exec i s) := by
  cases i with
  | lit b => exact emitLiterals_answered [b] s
  | verb data | verbx data => exact emitLiterals_answered data s
  | fill sz b | fill12 sz b | lfill n b | lfillx n b => exact emitFill_answered b _ s
  | smatch o cc | lmatch v cc =>
    exact emitBackreference_answered _ _ (s.deliverCount (countOf cc))
  | reuse n => exact emitBackreference_answered _ _ s
  | newoff n o => exact emitBackreference_answered _ _ { s with lastOff := o }
  | _ => simp [IsCommand, Instr.isAdvCommand, Instr.isLegCommand] at hi

theorem decSelect_answered (s : State) : AnsweredOrCapped s (decSelect exec s) := by
  unfold decSelect
  split
  · exact answered_next s _
  next i c hd =>
    rcases decodeSelect_source hd with ⟨w0, hi, -⟩ | ⟨hi, -⟩ <;> cases hi
    exact answered_next s _
  · exact answered_next s _

theorem decAdv_answered (s : State) : AnsweredOrCapped s (decAdv exec s) := by
  unfold decAdv
  split
  · exact answered_next s _
  next i c hd =>
    rcases (decodeAdv_reads hd).1 with hi | rfl
    · exact exec_command_answered (s.setCursor c) (.inl hi)
    · exact answered_next s _

theorem decLeg_answered (s : State) : AnsweredOrCapped s (decLeg exec s) := by
  unfold decLeg
  split
  · exact answered_next s _
  · split
    next i c hd => exact exec_command_answered (s.setCursor c) (.inr (decodeLeg_reads hd).1)
    next k hd =>
      cases hroom : s.room k with
      | true => exact answered_next s _
      | false => exact capped_of_no_room hroom

/-- A step of DEC is refused at OUT_CAP only. -/
theorem decStep_answered (s : State) : AnsweredOrCapped s (decStep exec s) := by
  unfold decStep
  cases s.st with
  | select => exact decSelect_answered s
  | advReadControl => exact decAdv_answered s
  | legOpcode => exact decLeg_answered s
  | idle | done | error => exact answered_next s s

/-! ### How many steps are left -/

/-- A bound on the steps a DEC run has left (R275): an ADV command takes a control bit and a LEG command a byte, one
step more finds the end, and SELECT, before either format, takes a first byte of IN or ends the run. -/
def State.stepsLeft (s : State) : Nat :=
  match s.st with
  | .select => 8 * s.n + 1
  | .advReadControl => readBudget s.n s.cursor + 1
  | .legOpcode => s.n - s.ip + 1
  | .idle | .done | .error => 0

theorem stepsLeft_of_select {s : State} (h : s.st = .select) : s.stepsLeft = 8 * s.n + 1 := by
  rw [State.stepsLeft, h]

theorem stepsLeft_of_adv {s : State} (h : s.st = .advReadControl) :
    s.stepsLeft = readBudget s.n s.cursor + 1 := by
  rw [State.stepsLeft, h]

theorem stepsLeft_of_leg {s : State} (h : s.st = .legOpcode) : s.stepsLeft = s.n - s.ip + 1 := by
  rw [State.stepsLeft, h]

theorem stepsLeft_eq_zero_iff (s : State) : s.stepsLeft = 0 ↔ s.st.running = false := by
  unfold State.stepsLeft
  cases s.st <;> simp [RunState.running]

/-- The end of a run takes a running DEC's last step. -/
theorem stepsLeft_lt_of_stopped {s t : State} (hs : s.st.running = true)
    (ht : t.st.running = false) : t.stepsLeft < s.stepsLeft := by
  rw [(stepsLeft_eq_zero_iff t).2 ht]
  refine Nat.pos_of_ne_zero fun h => ?_
  rw [(stepsLeft_eq_zero_iff s).1 h] at hs
  cases hs

/-- SELECT reads the first byte of the chunk, so a format is selected in a chunk that has one (R110). -/
theorem pos_of_decodeSelect {m : Memory} {len : Nat} {c : Cursor} {p : Option Instr × Cursor}
    (h : decodeSelect (m.source len) c = some p) : 0 < len := by
  unfold decodeSelect at h
  split at h
  · cases h
  next d c1 h1 => exact Nat.zero_lt_of_lt (lt_of_source (byteRead_eq_some.1 h1).1)

theorem pos_of_legSelected {s t : State} (hst : s.st = .select) (h : decStep exec s = .next t)
    (ht : t.st = .legOpcode) : 0 < s.n := by
  rw [decStep, hst] at h
  change decSelect exec s = .next t at h
  unfold decSelect at h
  split at h
  · cases h
    rw [raise_st] at ht
    cases ht
  next hd => exact pos_of_decodeSelect hd
  next hd => exact pos_of_decodeSelect hd

/-- Fetching a command uses up a control bit of an ADV run or a byte of a LEG run (R97). -/
theorem stepsLeft_lt_of_fetches {s t : State} {c : Cursor} (hc : s.fetches c) (hst : t.st = s.st)
    (hn : t.n = s.n) (hcur : t.cursor = c) : t.stepsLeft < s.stepsLeft := by
  rcases hc with ⟨hadv, i, hd⟩ | ⟨hleg, i, hd⟩
  · obtain ⟨-, b, c1, hbit, hrest⟩ := decodeAdv_reads hd
    rw [stepsLeft_of_adv hadv, stepsLeft_of_adv (hst.trans hadv), hn, hcur]
    exact Nat.succ_lt_succ ((reads_budget hrest).trans_lt (readBit_budget hbit))
  · obtain ⟨hlt, hle, -⟩ := decodeLeg_source hd
    have hip : t.ip = c.ip := by rw [← hcur, cursor_ip]
    rw [cursor_ip] at hlt
    rw [stepsLeft_of_leg hleg, stepsLeft_of_leg (hst.trans hleg), hn, hip]
    omega

/-- A step of a running DEC leaves fewer steps, and DEC is not IDLE after it. -/
theorem decStep_stepsLeft_lt {s t : State} (hs : s.st.running = true)
    (h : decStep exec s = .next t) : t.stepsLeft < s.stepsLeft ∧ t.st ≠ .idle := by
  cases decStep_move h with
  | waits hst => exact absurd (hs.symm.trans hst) nofun
  | raised _ c k o e =>
    rw [raise_st]
    exact ⟨stepsLeft_lt_of_stopped hs (by rw [raise_st]; rfl), nofun⟩
  | header hst hn w0 =>
    refine ⟨?_, nofun⟩
    rw [stepsLeft_of_select hst]
    change 8 * (s.n - 2) + 8 + 1 < _
    omega
  | legSelected hst =>
    have hpos : 0 < s.n := pos_of_legSelected hst h rfl
    refine ⟨?_, nofun⟩
    rw [stepsLeft_of_select hst]
    change s.n - 0 + 1 < _
    omega
  | appended c hc k o bs =>
    have hst : (putBytes bs (s.prepared c k o)).st = s.st := putBytes_st ..
    refine ⟨stepsLeft_lt_of_fetches hc hst (putBytes_n ..) (putBytes_cursor ..), fun hidle => ?_⟩
    rw [← hst, hidle] at hs
    cases hs
  | ended | exhausted => exact ⟨stepsLeft_lt_of_stopped hs rfl, nofun⟩

/-! ### The machine's run -/

/-- A DEC run of the host's that has begun, with no turn due: the machine's steps are DEC's until it is over, then MF's. -/
structure DecAlone (s : State) : Prop where
  agenda : s.agenda = []
  unframed : s.framed = false
  begun : s.st ≠ .idle

theorem terminal_of_not_running {r : RunState} (hidle : r ≠ .idle) (h : r.running = false) :
    r.terminal = true := by
  cases r with
  | idle => exact absurd rfl hidle
  | done | error => rfl
  | select | advReadControl | legOpcode => cases h

/-- Outside a framed run a step of DEC leaves the agenda, the parameters and FR alone. -/
theorem DecMove.outside {s t : State} (h : DecMove s t) (hfr : s.framed = false) :
    t.agenda = s.agenda ∧ t.cfg = s.cfg ∧ t.framed = false := by
  have hframe : DecFrame s t := h.frame
  obtain ⟨-, hfst, -⟩ := h.frKept (.inl hfr)
  unfold DecFrame at hframe
  refine ⟨by rw [hframe], by rw [hframe], ?_⟩
  rw [State.framed, hfst]
  exact hfr

/-- MF's step always answers (R230). -/
theorem mfStep_answers (s : State) : ∃ t, mfStep s = .next t := by
  unfold mfStep
  split
  · split <;> exact ⟨_, rfl⟩
  all_goals exact ⟨_, rfl⟩

/-- A step of the machine uses up one of DEC's steps, if any is left, or is refused at OUT_CAP. -/
theorem step_decAlone {s : State} (hs : DecAlone s) :
    (∃ t, step s = .next t ∧ DecAlone t ∧ t.cfg = s.cfg ∧ t.stepsLeft ≤ s.stepsLeft - 1) ∨
    (step s = .refused .outCapExceeded ∧ s.cfg.outCap ≠ none) := by
  obtain ⟨hagenda, hfr, hidle⟩ := hs
  cases hrun : s.st.running with
  | true =>
    rw [step_of_running hagenda hrun]
    refine (decStep_answered s).imp_left fun ⟨t, ht⟩ => ?_
    obtain ⟨hlt, hidle'⟩ := decStep_stepsLeft_lt hrun ht
    obtain ⟨hagenda', hcfg, hfr'⟩ := (decStep_move ht).outside hfr
    exact ⟨t, ht, ⟨hagenda'.trans hagenda, hfr', hidle'⟩, hcfg, Nat.le_sub_one_of_lt hlt⟩
  | false =>
    have hmf : step s = mfStep s := by
      rw [step_of_no_agenda hagenda, State.mover, hrun, hfr]
      rfl
    obtain ⟨t, ht⟩ := mfStep_answers s
    refine .inl ⟨t, hmf.trans ht, ?_⟩
    obtain ⟨pos, idx, headT, tailT, nextT, cmdq, mst, rfl⟩ := mfStep_frame ht
    refine ⟨⟨hagenda, hfr, hidle⟩, rfl, ?_⟩
    rw [(stepsLeft_eq_zero_iff s).2 hrun]
    exact ((stepsLeft_eq_zero_iff _).2 hrun).le

theorem run_of_refused {M : Host.Core} {s : M.State} {r : M.Refusal} (k : Nat)
    (h : M.step s = .refused r) : M.run (k + 1) s = .refused r := by
  rw [Host.Core.run, h]

/-- In as many steps as are left DEC's run is over, or refused at OUT_CAP. -/
theorem run_decAlone (k : Nat) : ∀ {s : State}, DecAlone s → s.stepsLeft ≤ k →
    (∃ t, Host.Core.run Sys2Proof.core k s = .next t ∧ t.st.terminal = true) ∨
    (Host.Core.run Sys2Proof.core k s = .refused .outCapExceeded ∧ s.cfg.outCap ≠ none) := by
  induction k with
  | zero =>
    intro s hs hk
    have hrun : s.st.running = false := (stepsLeft_eq_zero_iff s).1 (Nat.le_zero.1 hk)
    exact .inl ⟨s, rfl, terminal_of_not_running hs.begun hrun⟩
  | succ k ih =>
    intro s hs hk
    rcases step_decAlone hs with ⟨t, ht, hst, hcfg, hleft⟩ | ⟨hrefused, hcap⟩
    · rw [run_succ (M := Sys2Proof.core) k ht, ← hcfg]
      exact ih hst (by omega)
    · exact .inr ⟨run_of_refused (M := Sys2Proof.core) k hrefused, hcap⟩

/-- Settles O55: SELECT has `8 * N + 1` steps left, and a machine without OUT_CAP is not refused. -/
theorem everyDecRunEnds : Obligations.EveryDecRunEnds := by
  intro s hagenda hst hfr
  have hs : DecAlone s := ⟨hagenda, hfr, by rw [hst]; decide⟩
  have hrun := run_decAlone (8 * s.n + 1) hs (stepsLeft_of_select hst).le
  exact ⟨hrun.imp_right fun h => h.1, fun hnone => hrun.resolve_right fun h => h.2 hnone⟩

end Sys2Proof.Machine

namespace Sys2Proof.Machine

/-! ### The literals, the fills and the ADV matches (R112 to R116, R133, R135, R151 to R153) -/

/-- Only the `c` bytes appended matter. -/
theorem Appended.congr {s t : State} {f g : Nat → Byte} {c : Nat} (h : Appended s f c t)
    (hfg : ∀ k < c, f k = g k) : Appended s g c t := by
  obtain ⟨hframe, hmat, hsize⟩ := h
  refine ⟨hframe, fun hmode a => ?_, hsize⟩
  rw [hmat hmode a]
  split
  next hin => exact hfg _ (by omega)
  next => rfl

theorem putBytes_appended (bs : List Byte) {s : State} (hwf : s.out.wf) :
    Appended s (fun k => bs.getD k 0) bs.length (putBytes bs s) := by
  refine ⟨putBytes_frame bs s, fun hmode a => ?_, putBytes_out_sizeOnly bs s⟩
  rw [putBytes_out_materialize bs s hmode, Memory.read_writeBytes bs _ _ _ hwf]

theorem fillBytes_appended (b : Byte) (c : Nat) {s : State} (hwf : s.out.wf) :
    Appended s (fun _ => b) c (fillBytes b c s) := by
  have happ := putBytes_appended (List.replicate c b) hwf
  rw [List.length_replicate, ← fillBytes_eq_putBytes] at happ
  exact happ.congr fun k hk => List.getD_replicate _ hk

/-- Literals with room for them append their bytes and change nothing else (R151). -/
theorem emitLiterals_appended {bs : List Byte} {s : State} (hwf : s.out.wf)
    (hroom : s.room bs.length = true) :
    ∃ t, emitLiterals bs s = .next t ∧ Appended s (fun k => bs.getD k 0) bs.length t :=
  ⟨_, if_pos hroom, putBytes_appended bs hwf⟩

/-- A fill with room for it appends copies of its byte and changes nothing else (R152). -/
theorem emitFill_appended (b : Byte) {c : Nat} {s : State} (hwf : s.out.wf)
    (hroom : s.room c = true) :
    ∃ t, emitFill b c s = .next t ∧ Appended s (fun _ => b) c t :=
  ⟨_, if_pos hroom, fillBytes_appended b c hwf⟩

/-- Settles O13: LIT is the literals of the list of its one byte, VERB and VERBX those of their data. -/
theorem literalsAppendTheirBytes : Obligations.LiteralsAppendTheirBytes := by
  refine fun s hwf => ⟨fun b hroom => ?_, fun data hroom =>
    ⟨emitLiterals_appended hwf hroom, emitLiterals_appended hwf hroom⟩⟩
  obtain ⟨t, he, happ⟩ := emitLiterals_appended (bs := [b]) hwf hroom
  refine ⟨t, he, happ.congr fun k (hk : k < 1) => ?_⟩
  rw [Nat.lt_one_iff.1 hk, List.getD_cons_zero]

/-- Settles O14: all four are one fill, with the count their size field stands for. -/
theorem fillsAppendTheirByte : Obligations.FillsAppendTheirByte := fun _ b hwf =>
  ⟨fun _ hroom => emitFill_appended b hwf hroom, fun _ hroom => emitFill_appended b hwf hroom,
    fun _ hroom => emitFill_appended b hwf hroom, fun _ hroom => emitFill_appended b hwf hroom⟩

/-- A match of either width is an accepted backreference on the state its count was delivered to; the delivery leaves
the output, and so the bytes copied, alone. -/
theorem emitMatch_appended {s : State} {o : Nat} {cc : CountCode} (hwf : s.out.wf)
    (hroom : s.room (countOf cc) = true) (ho : s.reaches o) :
    ∃ t, emitMatch o cc s = .next t ∧
      Appended (s.deliverCount (countOf cc)) (copiedByte s o) (countOf cc) t := by
  rw [emitMatch_eq]
  exact emitBackreference_appended (s := s.deliverCount (countOf cc)) hwf hroom ho

/-- Settles O15: both commands are one match, and their offset field is the offset itself. -/
theorem advMatchesCopyTheirBytes : Obligations.AdvMatchesCopyTheirBytes := fun _ _ hwf hroom =>
  ⟨fun _ ho => emitMatch_appended hwf hroom ho, fun _ ho => emitMatch_appended hwf hroom ho⟩

/-! ### The step and the instruction at the cursor (R110, R111, R130) -/

/-- Settles O24, one running state of DEC at a time. -/
theorem stepRunsTheDecodedInstruction : Obligations.StepRunsTheDecodedInstruction := by
  intro s i c hagenda
  refine ⟨fun hst hdec => ?_, fun hst hlt hdec => ?_, fun hst hdec => ?_⟩
  · rw [step_of_adv hagenda hst, decAdv, hdec]
  · rw [step_of_leg hagenda hst, decLeg, if_neg (Nat.not_le.2 hlt), hdec]
  · rw [step_of_select hagenda hst, decSelect, hdec]

end Sys2Proof.Machine

namespace Sys2Proof.Machine

/-! ## The sink: the closed form of a backreference, and the capacity (R154, R157) -/

/-- Settles O17: the bytes an accepted backreference appends (R153), read at `olen + k`; a copy no longer than its offset
never reaches the end of its period. -/
theorem acceptedBackreferenceClosedForm : Obligations.AcceptedBackreferenceClosedForm := by
  intro s o c hwf hmode hroom ho
  obtain ⟨t, he, hframe, hread, -⟩ := emitBackreference_appended hwf hroom ho
  have happended : ∀ k < c, t.out.read (s.olen + k) = s.out.read (s.olen - o + k % o) := by
    intro k hk
    rw [hread hmode, if_pos (by omega), Nat.add_sub_cancel_left, copiedByte]
  refine ⟨t, he, by rw [hframe], happended, fun a ha => ?_, fun hc k hk => ?_⟩
  · rw [hread hmode, if_neg (by omega)]
  · rw [happended k hk, Nat.mod_eq_of_lt (by omega)]

/-- There is no room for an operation that would make `olen` exceed OUT_CAP (R157). -/
theorem room_eq_false {s : State} {c cap : Nat} (hcap : s.cfg.outCap = some cap) (hc : 0 < c)
    (hover : cap < s.olen + c) : s.room c = false := by
  simp only [State.room, hcap, Bool.or_eq_false_iff, beq_eq_false_iff_ne, decide_eq_false_iff_not]
  omega

/-- A backreference the sink accepts is refused where there is no room for it (R153, R157). -/
theorem emitBackreference_of_no_room {s : State} {o c : Nat} (ho : s.reaches o)
    (hroom : s.room c = false) : emitBackreference o c s = .refused .outCapExceeded := by
  obtain ⟨hpos, hle⟩ := ho
  unfold emitBackreference
  rw [if_neg (by omega), hroom]
  rfl

/-- Settles O19: each of the three sink operations tests the room before it appends, and without OUT_CAP no
command lacks room. -/
theorem outputBeyondCapacityIsRefused : Obligations.OutputBeyondCapacityIsRefused := by
  refine fun s => ⟨fun cap hcap => ⟨fun b c hc hover => ?_, fun bs hbs hover => ?_,
    fun o c ho hc hover => ?_⟩, fun hnone i hi => ?_⟩
  · rw [emitFill, room_eq_false hcap hc hover]; rfl
  · rw [emitLiterals, room_eq_false hcap (List.length_pos_iff.2 hbs) hover]; rfl
  · exact emitBackreference_of_no_room ho (room_eq_false hcap hc hover)
  · exact (exec_command_answered s hi).resolve_right fun h => h.2 hnone

/-! ## A SIZE_ONLY run (R150, R156)

`OutputBlind` says that an operation does to a SIZE_ONLY machine what it does to the machine that materializes. Every
operation on the way from one byte of output up to the machine's step is shown to be so, each from those below it. -/

/-- The operation answers the same on a SIZE_ONLY machine, OUT, SOUT and the modes aside (R156). -/
def OutputBlind (f : State → Result) : Prop :=
  ∀ s : State, f s.withoutOutput = mapResult State.withoutOutput (f s)

@[simp] theorem mapResult_next (f : State → State) (s : State) :
    mapResult f (.next s) = .next (f s) := rfl

/-! ### What no output space is needed for -/

@[simp] theorem withoutOutput_cursor (s : State) : s.withoutOutput.cursor = s.cursor := rfl

@[simp] theorem withoutOutput_inSource (s : State) : s.withoutOutput.inSource = s.inSource := rfl

@[simp] theorem withoutOutput_fsSource (s : State) : s.withoutOutput.fsSource = s.fsSource := rfl

@[simp] theorem withoutOutput_room (s : State) (c : Nat) : s.withoutOutput.room c = s.room c := rfl

@[simp] theorem withoutOutput_framed (s : State) : s.withoutOutput.framed = s.framed := rfl

@[simp] theorem withoutOutput_mover (s : State) : s.withoutOutput.mover = s.mover := rfl

/-! ### The sink and errors -/

/-- A SIZE_ONLY machine does not see which byte it is given (R150), so the bytes a copy reads from OUT do not matter. -/
theorem putByte_withoutOutput (s : State) (b b' : Byte) :
    s.withoutOutput.putByte b = (s.putByte b').withoutOutput := rfl

theorem putBytes_withoutOutput (bs : List Byte) :
    ∀ s : State, putBytes bs s.withoutOutput = (putBytes bs s).withoutOutput := by
  induction bs with
  | nil => exact fun _ => rfl
  | cons b bs ih => exact fun s => ih (s.putByte b)

theorem copyBytes_withoutOutput (o c : Nat) :
    ∀ s : State, copyBytes o c s.withoutOutput = (copyBytes o c s).withoutOutput := by
  induction c with
  | zero => exact fun _ => rfl
  | succ c ih =>
    intro s
    rw [copyBytes, copyBytes, putByte_withoutOutput s _ (s.out.read (s.olen - o)), ih]

/-- Both machines draw the same free values (log 3). -/
theorem raise_withoutOutput (e : Error) (s : State) :
    raise e s.withoutOutput = (raise e s).withoutOutput := by
  unfold raise
  rw [withoutOutput_framed]
  cases e <;> cases s.framed <;> rfl

theorem emitLiterals_outputBlind (bs : List Byte) : OutputBlind (emitLiterals bs) := by
  intro s
  unfold emitLiterals
  rw [withoutOutput_room, putBytes_withoutOutput]
  split <;> rfl

theorem emitFill_outputBlind (b : Byte) (c : Nat) : OutputBlind (emitFill b c) := by
  intro s
  unfold emitFill
  rw [withoutOutput_room, fillBytes_eq_putBytes, fillBytes_eq_putBytes, putBytes_withoutOutput]
  split <;> rfl

theorem emitBackreference_outputBlind (o c : Nat) : OutputBlind (emitBackreference o c) := by
  intro s
  unfold emitBackreference
  rw [withoutOutput_olen, withoutOutput_room, copyBytes_withoutOutput, raise_withoutOutput]
  split
  · rfl
  · split <;> rfl

/-! ### DEC -/

theorem execDec_outputBlind (i : Instr) : OutputBlind (execDec i) := by
  intro s
  cases i with
  | lit b => exact emitLiterals_outputBlind [b] s
  | verb data | verbx data => exact emitLiterals_outputBlind data s
  | fill sz b | fill12 sz b | lfill n b | lfillx n b => exact emitFill_outputBlind b _ s
  | smatch o cc | lmatch v cc =>
    exact emitBackreference_outputBlind _ _ (s.deliverCount (countOf cc))
  | reuse n => exact emitBackreference_outputBlind _ _ s
  | newoff n o => exact emitBackreference_outputBlind _ _ { s with lastOff := o }
  | endMark | advHeader w0 | cc2 | cc3 | cc4 | cc5 | cc6 k | cc14 m | chunk part => rfl

theorem decSelect_outputBlind : OutputBlind (decSelect execDec) := by
  intro s
  unfold decSelect
  rw [withoutOutput_inSource, withoutOutput_cursor, raise_withoutOutput]
  split
  · rfl
  next i c _ => exact execDec_outputBlind i (s.setCursor c)
  · rfl

theorem decAdv_outputBlind : OutputBlind (decAdv execDec) := by
  intro s
  unfold decAdv
  rw [withoutOutput_cfg, withoutOutput_inSource, withoutOutput_cursor, raise_withoutOutput]
  split
  · rfl
  next i c _ => exact execDec_outputBlind i (s.setCursor c)

theorem decLeg_outputBlind : OutputBlind (decLeg execDec) := by
  intro s
  unfold decLeg
  rw [withoutOutput_n, withoutOutput_ip, withoutOutput_inSource, withoutOutput_cursor,
    raise_withoutOutput]
  split
  · rfl
  · split
    next i c _ => exact execDec_outputBlind i (s.setCursor c)
    next k _ =>
      rw [withoutOutput_room]
      split <;> rfl

theorem decStep_outputBlind : OutputBlind (decStep exec) := by
  intro s
  rw [← decStep_execDec, ← decStep_execDec]
  unfold decStep
  rw [withoutOutput_st]
  cases s.st with
  | select => exact decSelect_outputBlind s
  | advReadControl => exact decAdv_outputBlind s
  | legOpcode => exact decLeg_outputBlind s
  | idle | done | error => rfl

theorem decSteps_outputBlind (k : Nat) : OutputBlind (decSteps k) := by
  induction k with
  | zero => exact fun _ => rfl
  | succ k ih =>
    intro s
    rw [decSteps, decSteps, decStep_outputBlind s]
    cases decStep exec s with
    | next t => exact ih t
    | fault | refused => rfl

/-! ### FR -/

theorem frEndPayload_withoutOutput (u : State) :
    frEndPayload u.withoutOutput = (frEndPayload u).withoutOutput := by
  unfold frEndPayload
  rw [withoutOutput_st]
  cases u.st <;> rfl

/-- START draws the same free values in both machines (log 4). -/
theorem startDec_outputBlind : OutputBlind startDec := by
  intro s
  rcases startDec_cases s with ⟨hfits, he⟩ | ⟨hfits, he⟩ <;> rw [he]
  · exact if_pos hfits
  · exact if_neg (Bool.eq_false_iff.1 hfits)

theorem frPayload_outputBlind (p : List Byte) : OutputBlind (frPayload p) := by
  intro s
  have hload : frLoad p s.withoutOutput = (frLoad p s).withoutOutput := rfl
  unfold frPayload
  rw [hload, startDec_outputBlind]
  cases startDec (frLoad p s) with
  | next t =>
    simp only [mapResult_next, decRun_eq_decSteps]
    rw [decSteps_outputBlind]
    cases decSteps (decRunBound p.length) t with
    | next u => exact congrArg _ (frEndPayload_withoutOutput u)
    | fault | refused => rfl
  | fault | refused => rfl

theorem frLength_outputBlind (l : BitVec 16) : OutputBlind (frLength l) := by
  intro s
  unfold frLength
  rw [raise_withoutOutput]
  split <;> rfl

theorem frCont_outputBlind (k : Byte) : OutputBlind (frCont k) := by
  intro s
  unfold frCont
  split <;> rfl

theorem execChunk_outputBlind (part : ChunkPart) : OutputBlind (execChunk part) := by
  cases part with
  | length l => exact frLength_outputBlind l
  | payload p => exact frPayload_outputBlind p
  | cont k => exact frCont_outputBlind k

/-- OUT, SOUT and the modes decide nothing of what an instruction does outside them. -/
theorem exec_outputBlind (i : Instr) : OutputBlind (exec i) := by
  intro s
  cases hi : isChunk i with
  | false =>
    rw [← execDec_eq_exec i _ hi, ← execDec_eq_exec i _ hi]
    exact execDec_outputBlind i s
  | true =>
    cases i with
    | chunk part => exact execChunk_outputBlind part s
    | _ => cases hi

theorem frPrefix_outputBlind : OutputBlind frPrefix := by
  intro s
  unfold frPrefix
  rw [withoutOutput_fn, withoutOutput_fp, withoutOutput_chunks, withoutOutput_fsSource,
    raise_withoutOutput, raise_withoutOutput]
  split
  · rfl
  · split
    · rfl
    next i fp _ => exact exec_outputBlind i { s with fp := fp }

theorem frPayloadStep_outputBlind : OutputBlind frPayloadStep := by
  intro s
  unfold frPayloadStep
  rw [withoutOutput_fsSource, withoutOutput_fp, withoutOutput_plen, raise_withoutOutput]
  split
  · rfl
  next i fp _ => exact exec_outputBlind i { s with fp := fp }

theorem frContStep_outputBlind : OutputBlind frContStep := by
  intro s
  unfold frContStep
  rw [withoutOutput_fsSource, withoutOutput_fp, raise_withoutOutput]
  split
  · rfl
  next i fp _ => exact exec_outputBlind i { s with fp := fp }

theorem frStep_outputBlind : OutputBlind frStep := by
  intro s
  unfold frStep
  rw [withoutOutput_fst]
  cases s.fst with
  | pfx => exact frPrefix_outputBlind s
  | payload => exact frPayloadStep_outputBlind s
  | cont => exact frContStep_outputBlind s
  | idle | done | error => rfl

/-! ### MF -/

theorem commonRun_withoutOutput (s : State) (cap : Nat) :
    ∀ q p : Nat, s.withoutOutput.commonRun q p cap = s.commonRun q p cap := by
  induction cap with
  | zero => exact fun _ _ => rfl
  | succ cap ih =>
    intro q p
    rw [State.commonRun, State.commonRun, ih, withoutOutput_src]

theorem sameRun_withoutOutput (s : State) (b : Byte) (cap : Nat) :
    ∀ p : Nat, s.withoutOutput.sameRun b p cap = s.sameRun b p cap := by
  induction cap with
  | zero => exact fun _ => rfl
  | succ cap ih =>
    intro p
    rw [State.sameRun, State.sameRun, ih, withoutOutput_src]

theorem better_withoutOutput (s : State) (p : Nat) : s.withoutOutput.better p = s.better p := by
  funext best q
  unfold State.better
  rw [commonRun_withoutOutput]
  rfl

theorem find_withoutOutput (s : State) (p : Nat) : s.withoutOutput.find p = s.find p := by
  unfold State.find
  rw [better_withoutOutput]
  rfl

theorem runLength_withoutOutput (s : State) (p : Nat) :
    s.withoutOutput.runLength p = s.runLength p := by
  unfold State.runLength
  rw [sameRun_withoutOutput]
  rfl

/-- MF chooses its command from SRC, its parameters and its index alone (R185). -/
theorem chosen_withoutOutput (s : State) : s.withoutOutput.chosen = s.chosen := by
  unfold State.chosen
  rw [find_withoutOutput, runLength_withoutOutput]
  rfl

theorem insert_withoutOutput (s : State) (p : Nat) :
    s.withoutOutput.insert p = (s.insert p).withoutOutput := by
  rcases Nat.lt_or_ge (p + 1) s.m with hp | hp
  · cases htail : s.tailT.get (s.digraph p) with
    | none =>
      rw [insert_of_tail_none hp htail, insert_of_tail_none (s := s.withoutOutput) hp htail]
      rfl
    | some t =>
      rw [insert_of_tail_some hp htail, insert_of_tail_some (s := s.withoutOutput) hp htail]
      rfl
  · rw [insert_at_end hp, insert_at_end (s := s.withoutOutput) hp]

theorem evict_withoutOutput (s : State) (q : Nat) :
    s.withoutOutput.evict q = (s.evict q).withoutOutput := by
  unfold State.evict
  rw [apply_ite State.withoutOutput]
  rfl

theorem advance_withoutOutput (s : State) : s.withoutOutput.advance = s.advance.withoutOutput := by
  rw [advance_eq, advance_eq, apply_ite State.withoutOutput, ← evict_withoutOutput,
    insert_withoutOutput]
  rfl

theorem advanceN_withoutOutput (k : Nat) :
    ∀ s : State, s.withoutOutput.advanceN k = (s.advanceN k).withoutOutput := by
  induction k with
  | zero => exact fun _ => rfl
  | succ k ih =>
    intro s
    rw [State.advanceN, State.advanceN, advance_withoutOutput, ih]

theorem mfStep_outputBlind : OutputBlind mfStep := by
  intro s
  unfold mfStep
  rw [withoutOutput_mst, withoutOutput_m, withoutOutput_pos, chosen_withoutOutput]
  cases s.mst with
  | scan =>
    dsimp only
    split
    · rfl
    · exact congrArg _ (advanceN_withoutOutput _ { s with cmdq := s.cmdq ++ [s.chosen], mst := .scan })
  | idle | done => rfl

/-! ### The machine -/

theorem agentStep_outputBlind (g : Agent) : OutputBlind (agentStep g) := by
  cases g with
  | dec => exact decStep_outputBlind
  | fr => exact frStep_outputBlind
  | mf => exact mfStep_outputBlind

/-- No agent gives a turn to anyone (log 6). -/
theorem agentStep_agenda {g : Agent} {s t : State} (h : agentStep g s = .next t) :
    t.agenda = s.agenda := by
  cases g with
  | dec =>
    have hframe : DecFrame s t := (decStep_move h).frame
    rw [hframe]
  | fr =>
    have hframe : FrFrame s t := (frStep_move h).frame
    rw [hframe]
  | mf =>
    obtain ⟨pos, idx, headT, tailT, nextT, cmdq, mst, rfl⟩ := mfStep_frame h
    rfl

/-- With no turn due the step is an agent's, the same agent's in both machines. -/
theorem step_withoutOutput {s : State} (h : s.agenda = []) :
    step s.withoutOutput = mapResult State.withoutOutput (step s) := by
  rw [step_of_no_agenda h, step_of_no_agenda (s := s.withoutOutput) h, withoutOutput_mover,
    agentStep_outputBlind]

/-- Settles O54, by induction on the number of steps: a step with no turn due is the same in both machines, and after it
still no turn is due. -/
theorem sizeOnlyRunsAgree : Obligations.SizeOnlyRunsAgree := by
  intro k
  induction k with
  | zero => exact fun _ _ => rfl
  | succ k ih =>
    intro s hagenda
    have hstep : Sys2Proof.core.step s.withoutOutput =
        mapResult State.withoutOutput (Sys2Proof.core.step s) := step_withoutOutput hagenda
    simp only [Host.Core.run, hstep]
    cases ht : Sys2Proof.core.step s with
    | next t => exact ih t ((agentStep_agenda ((step_of_no_agenda hagenda).symm.trans ht)).trans hagenda)
    | fault | refused => rfl

end Sys2Proof.Machine

/-! ## The match finder: what it finds, what it selects, and what its commands rebuild -/

namespace Sys2Proof.Machine

/-! ### `CommonRun` and `RunLength` (R172, R178) -/

theorem commonRun_succ_of_eq {s : State} {q p : Nat} (cap : Nat)
    (h : s.src.read q = s.src.read p) :
    s.commonRun q p (cap + 1) = s.commonRun (q + 1) (p + 1) cap + 1 := by
  rw [State.commonRun, if_pos h, Nat.add_comm]

theorem commonRun_succ_of_ne {s : State} {q p : Nat} (cap : Nat)
    (h : s.src.read q ≠ s.src.read p) : s.commonRun q p (cap + 1) = 0 := by
  rw [State.commonRun, if_neg h]

/-- The bytes of a common run agree. -/
theorem commonRun_agrees (s : State) (cap : Nat) : ∀ {q p k : Nat}, k < s.commonRun q p cap →
    s.src.read (q + k) = s.src.read (p + k) := by
  induction cap with
  | zero => exact fun h => absurd h (Nat.not_lt_zero _)
  | succ cap ih =>
    intro q p k h
    by_cases heq : s.src.read q = s.src.read p
    · rw [commonRun_succ_of_eq cap heq] at h
      cases k with
      | zero => exact heq
      | succ k =>
        have hsame := ih (Nat.lt_of_succ_lt_succ h)
        rwa [Nat.add_right_comm q, Nat.add_right_comm p] at hsame
    · rw [commonRun_succ_of_ne cap heq] at h
      exact absurd h (Nat.not_lt_zero _)

/-- A common run shorter than its cap ends at two bytes that differ. -/
theorem commonRun_ends (s : State) (cap : Nat) : ∀ {q p : Nat}, s.commonRun q p cap < cap →
    s.src.read (q + s.commonRun q p cap) ≠ s.src.read (p + s.commonRun q p cap) := by
  induction cap with
  | zero => exact fun h => absurd h (Nat.not_lt_zero _)
  | succ cap ih =>
    intro q p h
    by_cases heq : s.src.read q = s.src.read p
    · rw [commonRun_succ_of_eq cap heq] at h ⊢
      have hne := ih (Nat.lt_of_succ_lt_succ h)
      rwa [Nat.add_right_comm q, Nat.add_right_comm p] at hne
    · rw [commonRun_succ_of_ne cap heq]
      exact heq

/-- A common run reads SRC only below the end of its later stretch. -/
theorem commonRun_congr {s t : State} (cap : Nat) : ∀ {q p : Nat}, q ≤ p →
    (∀ a < p + cap, t.src.read a = s.src.read a) → t.commonRun q p cap = s.commonRun q p cap := by
  induction cap with
  | zero => exact fun _ _ => rfl
  | succ cap ih =>
    intro q p hqp hsame
    have hrest := ih (Nat.succ_le_succ hqp) fun a ha => hsame a (by omega)
    rw [State.commonRun, State.commonRun, hsame q (by omega), hsame p (by omega), hrest]

/-- Equal digraphs are two pairs of equal bytes (R171). -/
theorem digraph_eq_iff {s : State} {q p : Nat} : s.digraph q = s.digraph p ↔
    s.src.read q = s.src.read p ∧ s.src.read (q + 1) = s.src.read (p + 1) := by
  have hq := (s.src.read q).isLt
  have hp := (s.src.read p).isLt
  unfold State.digraph
  rw [← BitVec.toNat_inj, ← BitVec.toNat_inj]
  omega

theorem two_le_commonRun {s : State} {q p cap : Nat} (h : s.digraph q = s.digraph p)
    (hcap : 2 ≤ cap) : 2 ≤ s.commonRun q p cap := by
  obtain ⟨hfirst, hsecond⟩ := digraph_eq_iff.1 h
  obtain ⟨cap, rfl⟩ := Nat.exists_eq_add_of_le' hcap
  rw [commonRun_succ_of_eq _ hfirst, commonRun_succ_of_eq _ hsecond]
  omega

/-- Settles O34: a longer run would have to pass the byte at which the common run ends. -/
theorem commonRunIsTheLargest : Obligations.CommonRunIsTheLargest := fun s q p cap hqp hm =>
  ⟨commonRun_le s cap q p, fun _ => commonRun_agrees s cap,
    fun _ hlt hle => ⟨_, hlt, commonRun_ends s cap (hlt.trans_le hle)⟩,
    fun _ hsame => commonRun_congr cap hqp.le fun a ha => hsame a (ha.trans_le hm),
    two_le_commonRun⟩

theorem sameRun_succ_of_eq {s : State} {b : Byte} {p : Nat} (cap : Nat) (h : s.src.read p = b) :
    s.sameRun b p (cap + 1) = s.sameRun b (p + 1) cap + 1 := by
  rw [State.sameRun, if_pos h, Nat.add_comm]

theorem sameRun_succ_of_ne {s : State} {b : Byte} {p : Nat} (cap : Nat) (h : s.src.read p ≠ b) :
    s.sameRun b p (cap + 1) = 0 := by
  rw [State.sameRun, if_neg h]

theorem sameRun_agrees (s : State) (b : Byte) (cap : Nat) : ∀ {p k : Nat},
    k < s.sameRun b p cap → s.src.read (p + k) = b := by
  induction cap with
  | zero => exact fun h => absurd h (Nat.not_lt_zero _)
  | succ cap ih =>
    intro p k h
    by_cases heq : s.src.read p = b
    · rw [sameRun_succ_of_eq cap heq] at h
      cases k with
      | zero => exact heq
      | succ k =>
        have hsame := ih (Nat.lt_of_succ_lt_succ h)
        rwa [Nat.add_right_comm p] at hsame
    · rw [sameRun_succ_of_ne cap heq] at h
      exact absurd h (Nat.not_lt_zero _)

theorem sameRun_ends (s : State) (b : Byte) (cap : Nat) : ∀ {p : Nat}, s.sameRun b p cap < cap →
    s.src.read (p + s.sameRun b p cap) ≠ b := by
  induction cap with
  | zero => exact fun h => absurd h (Nat.not_lt_zero _)
  | succ cap ih =>
    intro p h
    by_cases heq : s.src.read p = b
    · rw [sameRun_succ_of_eq cap heq] at h ⊢
      have hne := ih (Nat.lt_of_succ_lt_succ h)
      rwa [Nat.add_right_comm p] at hne
    · rw [sameRun_succ_of_ne cap heq]
      exact heq

theorem one_le_runLength (s : State) (p : Nat) : 1 ≤ s.runLength p := Nat.le_add_right 1 _

/-- `RunLength` counts the byte at `p` and the bytes after it that equal it. -/
theorem runLength_eq (s : State) (p : Nat) : s.runLength p =
    s.sameRun (s.src.read p) (p + 1) (min s.mfFillMax (s.m - p) - 1) + 1 := Nat.add_comm 1 _

/-- The bytes of a run equal its first. -/
theorem runLength_agrees {s : State} {p k : Nat} (h : k < s.runLength p) :
    s.src.read (p + k) = s.src.read p := by
  cases k with
  | zero => rfl
  | succ k =>
    rw [runLength_eq] at h
    have hsame := sameRun_agrees s _ _ (Nat.lt_of_succ_lt_succ h)
    rwa [Nat.add_right_comm p] at hsame

/-- Settles O35: the run is its first byte and the equal bytes counted after it. -/
theorem runLengthIsTheLargest : Obligations.RunLengthIsTheLargest := by
  intro s p hp hmax
  have hle := sameRun_le s (s.src.read p) (min s.mfFillMax (s.m - p) - 1) (p + 1)
  refine ⟨one_le_runLength s p, ?_, fun _ => runLength_agrees, fun hlt => ?_⟩
  · rw [runLength_eq]
    omega
  · rw [runLength_eq] at hlt ⊢
    have hne := sameRun_ends s (s.src.read p) (min s.mfFillMax (s.m - p) - 1) (p := p + 1)
      (by omega)
    rwa [Nat.add_right_comm p] at hne

/-! ### `Find` (R176) -/

/-- `best` is the answer of a search among `qs` by the length `len`: none where all have length 0, else the newest of the
longest. -/
def NewestLongest (len : Nat → Nat) (qs : List Nat) (best : Option Nat × Nat) : Prop :=
  (best = (none, 0) ∧ ∀ r ∈ qs, len r = 0) ∨
  ∃ q ∈ qs, best = (some q, len q) ∧ 0 < len q ∧
    ∀ r ∈ qs, len r ≤ len q ∧ (len r = len q → r ≤ q)

/-- A best of a search bounds every length met. -/
theorem NewestLongest.len_le {len : Nat → Nat} {qs : List Nat} {best : Option Nat × Nat}
    (h : NewestLongest len qs best) : ∀ r ∈ qs, len r ≤ best.2 := by
  rcases h with ⟨rfl, hzero⟩ | ⟨q, -, rfl, -, hmax⟩
  · exact fun r hr => (hzero r hr).le
  · exact fun r hr => (hmax r hr).1

/-- A candidate newer than all of `qs`, met before them. -/
theorem NewestLongest.cons {len : Nat → Nat} {qs : List Nat} {best : Option Nat × Nat} {q : Nat}
    (h : NewestLongest len qs best) (hnew : ∀ r ∈ qs, r < q) :
    NewestLongest len (q :: qs) (longer (longer (none, 0) (some q, len q)) best) := by
  by_cases hq : best.2 ≤ len q
  · rcases Nat.eq_zero_or_pos (len q) with h0 | hpos
    · rw [longer_of_le (best := (none, 0)) h0.le, longer_of_le (by omega)]
      refine .inl ⟨rfl, List.forall_mem_cons.2 ⟨h0, fun r hr => ?_⟩⟩
      have := h.len_le r hr
      omega
    · rw [longer_of_lt (best := (none, 0)) hpos, longer_of_le hq]
      exact .inr ⟨q, List.mem_cons_self, rfl, hpos, List.forall_mem_cons.2
        ⟨⟨le_rfl, fun _ => le_rfl⟩, fun r hr => ⟨(h.len_le r hr).trans hq, fun _ => (hnew r hr).le⟩⟩⟩
  · have hlt : (longer (none, 0) (some q, len q)).2 < best.2 := by
      unfold longer
      split <;> dsimp only <;> omega
    rw [longer_of_lt hlt]
    rcases h with ⟨rfl, -⟩ | ⟨x, hx, rfl, hpos, hmax⟩
    · exact absurd (Nat.zero_le _) hq
    · have hqx : len q < len x := Nat.lt_of_not_le hq
      exact .inr ⟨x, List.mem_cons_of_mem _ hx, rfl, hpos, List.forall_mem_cons.2
        ⟨⟨hqx.le, fun he => absurd he hqx.ne⟩, hmax⟩⟩

/-- The search from the newest on gives the newest of the longest. -/
theorem foldl_better_newestLongest (s : State) (p : Nat) {qs : List Nat}
    (h : qs.Pairwise (· > ·)) :
    NewestLongest (fun q => s.commonRun q p (s.matchCap p)) qs
      (qs.foldl (s.better p) (none, 0)) := by
  induction qs with
  | nil => exact .inl ⟨rfl, fun _ hr => absurd hr List.not_mem_nil⟩
  | cons q qs ih =>
    obtain ⟨hnew, hrest⟩ := List.pairwise_cons.1 h
    rw [List.foldl_cons, foldl_better, better_eq]
    exact (ih hrest).cons hnew

theorem mem_candidates {s : State} {p q : Nat} :
    q ∈ s.candidates p ↔ q ∈ s.idx ∧ s.digraph q = s.digraph p :=
  List.mem_reverse.trans mem_bucket

/-- An index in rising order gives the candidates from the newest to the oldest. -/
theorem candidates_pairwise {s : State} (p : Nat) (h : s.idx.Pairwise (· < ·)) :
    (s.candidates p).Pairwise (· > ·) := List.pairwise_reverse.2 (h.filter _)

/-- Settles O36: `Find` is the search over the candidates, from the newest on. -/
theorem findIsTheNewestLongest : Obligations.FindIsTheNewestLongest := by
  intro s p hidx _
  unfold State.find
  split_ifs with hm
  · exact .inl ⟨rfl, .inl hm⟩
  · rcases foldl_better_newestLongest s p (candidates_pairwise p hidx) with
      ⟨he, hzero⟩ | ⟨q, hq, he, hpos, hmax⟩
    · rw [he]
      exact .inl ⟨rfl, .inr fun r hr hd => hzero r (mem_candidates.2 ⟨hr, hd⟩)⟩
    · rw [he]
      obtain ⟨hmem, hdig⟩ := mem_candidates.1 hq
      exact .inr ⟨Nat.lt_of_not_le hm, q, hmem, hdig, rfl, hpos,
        fun r hr hd => hmax r (mem_candidates.2 ⟨hr, hd⟩)⟩

/-! ### `Select` (R179) -/

theorem select_of_run {s : State} {p mo ml r : Nat} (h : s.mfFillMin ≤ r ∧ ml ≤ r) :
    s.select p mo ml r = .fill (s.src.read p) r := if_pos h

theorem select_of_match {s : State} {p mo ml r : Nat} (h : ¬ (s.mfFillMin ≤ r ∧ ml ≤ r))
    (hmatch : s.mfMatchMin ≤ ml ∧ 1 ≤ ml) : s.select p mo ml r = .backreference mo ml :=
  (if_neg h).trans (if_pos hmatch)

theorem select_of_neither {s : State} {p mo ml r : Nat} (h : ¬ (s.mfFillMin ≤ r ∧ ml ≤ r))
    (hmatch : ¬ (s.mfMatchMin ≤ ml ∧ 1 ≤ ml)) : s.select p mo ml r = .literal (s.src.read p) :=
  (if_neg h).trans (if_neg hmatch)

/-- The three commands MF can emit at `pos` (R179, R185). -/
theorem chosen_cases (s : State) :
    (s.mfFillMin ≤ s.runLength s.pos ∧
      s.chosen = .fill (s.src.read s.pos) (s.runLength s.pos)) ∨
    (s.mfMatchMin ≤ (s.find s.pos).2 ∧ 1 ≤ (s.find s.pos).2 ∧
      s.chosen = .backreference (s.find s.pos).1 (s.find s.pos).2) ∨
    s.chosen = .literal (s.src.read s.pos) := by
  by_cases hrun : s.mfFillMin ≤ s.runLength s.pos ∧ (s.find s.pos).2 ≤ s.runLength s.pos
  · exact .inl ⟨hrun.1, select_of_run hrun⟩
  · by_cases hmatch : s.mfMatchMin ≤ (s.find s.pos).2 ∧ 1 ≤ (s.find s.pos).2
    · exact .inr (.inl ⟨hmatch.1, hmatch.2, select_of_match hrun hmatch⟩)
    · exact .inr (.inr (select_of_neither hrun hmatch))

theorem mem_windowOf {pos m q : Nat} :
    q ∈ windowOf pos m ↔ q < m - 1 ∧ pos ≤ q + Config.window ∧ q < pos := by
  simp [windowOf]

/-- The window is in rising order. -/
theorem windowOf_pairwise (pos m : Nat) : (windowOf pos m).Pairwise (· < ·) :=
  List.pairwise_lt_range.filter _

/-- A match found in a run is the common run of `pos` and an earlier position, at most 8191 back (R175, R176). -/
theorem find_of_scanning {s : State} (hs : Scanning s) (hlen : 1 ≤ (s.find s.pos).2) :
    ∃ q < s.pos, s.pos ≤ q + Config.window ∧
      s.find s.pos = (s.pos - q, s.commonRun q s.pos (s.matchCap s.pos)) := by
  obtain ⟨-, hidx, -, -⟩ := hs
  have hwindow : ∀ q ∈ s.idx, s.pos ≤ q + Config.window ∧ q < s.pos := fun q hq =>
    (mem_windowOf.1 (hidx ▸ hq)).2
  rcases findIsTheNewestLongest s s.pos (hidx ▸ windowOf_pairwise s.pos s.m)
    (fun q hq => (hwindow q hq).2) with ⟨he, -⟩ | ⟨-, q, hq, -, he, -⟩
  · rw [he] at hlen
    exact absurd hlen (by decide)
  · exact ⟨q, (hwindow q hq).2, (hwindow q hq).1, he⟩

/-- Settles O38: with R5's parameters the thresholds and caps of the searches are the ranges of the ADV fields. -/
theorem emittedCommandsAreEncodable : Obligations.EmittedCommandsAreEncodable := by
  refine ⟨fun s p mo ml r => ⟨fun hr hl => select_of_run ⟨hr, hl⟩,
    fun hrun hmin hpos => select_of_match hrun ⟨hmin, hpos⟩,
    fun hrun hlt => select_of_neither hrun fun hmatch => absurd hmatch.1 (Nat.not_le.2 hlt)⟩, ?_⟩
  intro s hmst hinv hpos hmatchMin hmatchMax hfillMin hfillMax
  have hs : Scanning s := (finderInv_iff s).1 hinv hmst
  rcases chosen_cases s with ⟨hmin, he⟩ | ⟨hmin, hlen, he⟩ | he
  · obtain ⟨-, hle, -, -⟩ := runLengthIsTheLargest s s.pos hpos (by omega)
    rw [he]
    exact ⟨rfl, by omega, by omega⟩
  · obtain ⟨q, hq, hwindow, hfind⟩ := find_of_scanning hs hlen
    have hle := commonRun_le s (s.matchCap s.pos) q s.pos
    have hcap : s.matchCap s.pos ≤ s.mfMatchMax := Nat.min_le_left _ _
    rw [hfind] at hmin
    rw [he, hfind]
    unfold Config.window at hwindow
    exact ⟨by omega, by omega, by omega, by omega⟩
  · rw [he]

/-! ### A step of MF's run (R184, R185, R187) -/

/-- With no turn due and DEC and FR in no run, the step is MF's (log 6). -/
theorem step_of_mf {s : State} (hagenda : s.agenda = []) (hst : s.st.running = false)
    (hfr : s.framed = false) : step s = mfStep s := by
  rw [step_of_no_agenda hagenda, State.mover, hst, hfr]
  rfl

theorem mfStep_at_end {s : State} (hmst : s.mst = .scan) (h : s.m ≤ s.pos) :
    mfStep s = .next { s with mst := .done } := by
  simp [mfStep, hmst, h]

theorem mfStep_of_lt {s : State} (hmst : s.mst = .scan) (h : s.pos < s.m) : mfStep s =
    .next ({ s with cmdq := s.cmdq ++ [s.chosen] }.advanceN (commandLength s.chosen)) := by
  simp [mfStep, hmst, Nat.not_le.2 h]

theorem advanceN_pos (k : Nat) : ∀ s : State, (s.advanceN k).pos = s.pos + k := by
  induction k with
  | zero => exact fun _ => rfl
  | succ k ih =>
    intro s
    rw [State.advanceN, ih, advance_pos]
    omega

/-- Every command MF emits covers a byte, whatever the parameters (logs 12, 13). -/
theorem one_le_chosen_length (s : State) : 1 ≤ commandLength s.chosen := by
  rcases chosen_cases s with ⟨-, he⟩ | ⟨-, hlen, he⟩ | he <;> rw [he]
  · exact one_le_runLength s s.pos
  · exact hlen
  · exact le_rfl

/-- Settles O39: the advances move `pos` once for each byte covered and touch the index and the tables besides. -/
theorem finderStepCoversItsCommand : Obligations.FinderStepCoversItsCommand := by
  intro s hagenda hst hfr hmst
  rw [step_of_mf hagenda hst hfr]
  refine ⟨mfStep_at_end hmst, fun hpos => ⟨_, mfStep_of_lt hmst hpos, ?_,
    one_le_chosen_length s, chosen_length_le hpos⟩⟩
  have hmoved := advanceN_pos (commandLength s.chosen) { s with cmdq := s.cmdq ++ [s.chosen] }
  obtain ⟨pos, idx, headT, tailT, nextT, he⟩ :=
    advanceN_frame (commandLength s.chosen) { s with cmdq := s.cmdq ++ [s.chosen] }
  rw [he] at hmoved ⊢
  rw [show pos = s.pos + commandLength s.chosen from hmoved]

end Sys2Proof.Machine

namespace Sys2Proof.Machine

/-! ### A command of MF on a sink that holds SRC up to `pos` (R186) -/

/-- Without OUT_CAP there is room for everything (R157). -/
theorem room_of_no_cap {s : State} (h : s.cfg.outCap = none) (c : Nat) : s.room c = true := by
  simp [State.room, h]

theorem runCommand_emitted {c : Command} {s t : State} (h : runCommand c s = .next t) :
    Emitted s t := by
  cases c with
  | literal => exact emitLiterals_emitted h
  | fill => exact emitFill_emitted h
  | backreference => exact emitBackreference_emitted h

theorem Emitted.out_wf {s t : State} (h : Emitted s t) (hwf : s.out.wf) : t.out.wf := by
  cases h with
  | appended bs => exact putBytes_out_wf bs hwf
  | raised e => exact raise_out e s ▸ scrubDec_out_wf hwf

/-- Two stretches `p - q` apart that agree repeat the bytes from `q` up to `p`. -/
theorem periodic_of_agree {f : Nat → Byte} {q p l : Nat} (hqp : q < p)
    (h : ∀ k < l, f (q + k) = f (p + k)) : ∀ k < l, f (q + k % (p - q)) = f (p + k) := by
  intro k
  induction k using Nat.strong_induction_on with
  | _ k ih =>
    intro hk
    rw [← h k hk]
    by_cases hfirst : k < p - q
    · rw [Nat.mod_eq_of_lt hfirst]
    · rw [Nat.mod_eq_sub_mod (by omega), ih (k - (p - q)) (by omega) (by omega),
        show p + (k - (p - q)) = q + k by omega]

/-- The command MF emits at `pos` appends the bytes of SRC from `pos` on to a sink that holds those before it. -/
theorem chosen_appends {s u : State} (hs : Scanning s) (hwf : u.out.wf)
    (hcap : u.cfg.outCap = none) (holen : u.olen = s.pos)
    (hbytes : ∀ a < s.pos, u.out.read a = s.src.read a) :
    ∃ v, runCommand s.chosen u = .next v ∧
      Appended u (fun k => s.src.read (s.pos + k)) (commandLength s.chosen) v := by
  rcases chosen_cases s with ⟨-, he⟩ | ⟨-, hlen, he⟩ | he
  · rw [he]
    obtain ⟨v, hv, happ⟩ := emitFill_appended (s.src.read s.pos) hwf (room_of_no_cap hcap _)
    exact ⟨v, hv, happ.congr fun k hk => (runLength_agrees hk).symm⟩
  · obtain ⟨q, hq, -, hfind⟩ := find_of_scanning hs hlen
    rw [he, hfind]
    obtain ⟨v, hv, happ⟩ := emitBackreference_appended (o := s.pos - q) hwf (room_of_no_cap hcap _)
      ⟨by omega, by omega⟩
    refine ⟨v, hv, happ.congr fun k hk => ?_⟩
    have hmod := Nat.mod_lt k (show 0 < s.pos - q by omega)
    rw [copiedByte, holen, Nat.sub_sub_self hq.le, hbytes _ (by omega)]
    exact periodic_of_agree hq (fun _ => commonRun_agrees s _) k hk
  · rw [he]
    obtain ⟨v, hv, happ⟩ :=
      emitLiterals_appended (bs := [s.src.read s.pos]) hwf (room_of_no_cap hcap _)
    refine ⟨v, hv, happ.congr fun k (hk : k < 1) => ?_⟩
    rw [Nat.lt_one_iff.1 hk, List.getD_cons_zero, Nat.add_zero]

/-- `u` is the empty sink `e` after commands that put out the first `n` bytes of `src`, and nothing else. -/
structure Rebuilt (src : Memory) (n : Nat) (e u : State) : Prop where
  frame : u = { e with out := u.out, olen := n }
  canonical : u.out.wf
  bytes : ∀ a < n, u.out.read a = src.read a

theorem rebuilt_of_empty (src : Memory) {e : State} (h : EmptySink e) : Rebuilt src 0 e e := by
  obtain ⟨holen, hout, -, -⟩ := h
  refine ⟨by rw [← holen], ?_, fun a ha => absurd ha (Nat.not_lt_zero a)⟩
  rw [hout]
  exact Memory.wf_nil

/-- Appending the next bytes of `src`. -/
theorem Rebuilt.append {src : Memory} {n c : Nat} {e u v : State} (hu : Rebuilt src n e u)
    (hmode : e.sinkMode = .materialize) (hwf : v.out.wf)
    (h : Appended u (fun k => src.read (n + k)) c v) : Rebuilt src (n + c) e v := by
  obtain ⟨hframe, -, hbytes⟩ := hu
  obtain ⟨hv, hread, -⟩ := h
  have holen : u.olen = n := by rw [hframe]
  have hmode' : u.sinkMode = .materialize := by rw [hframe]; exact hmode
  refine ⟨by rw [hv, holen, hframe], hwf, fun a ha => ?_⟩
  rw [hread hmode', holen]
  split_ifs with hin
  · dsimp only
    rw [Nat.add_sub_cancel' hin.1]
  · exact hbytes a (by omega)

/-- The command MF emits takes the sink from `pos` bytes of SRC to as many more as it covers. -/
theorem chosen_rebuilds {s e u : State} (hs : Scanning s) (he : EmptySink e)
    (hu : Rebuilt s.src s.pos e u) : ∃ v, runCommand s.chosen u = .next v ∧
      Rebuilt s.src (s.pos + commandLength s.chosen) e v := by
  obtain ⟨-, -, hmode, hcap⟩ := he
  have holen : u.olen = s.pos := by rw [hu.frame]
  have hcap' : u.cfg.outCap = none := by rw [hu.frame]; exact hcap
  obtain ⟨v, hv, happ⟩ := chosen_appends hs hu.canonical hcap' holen hu.bytes
  exact ⟨v, hv, hu.append hmode ((runCommand_emitted hv).out_wf hu.canonical) happ⟩

/-- A command more is run after all others. -/
theorem replay_concat {c : Command} {cs : List Command} : ∀ {s t : State},
    replay cs s = .next t → replay (cs ++ [c]) s = runCommand c t := by
  induction cs with
  | nil =>
    rintro s _ ⟨⟩
    rw [List.nil_append, replay]
    cases runCommand c s <;> rfl
  | cons d ds ih =>
    intro s t h
    rw [replay] at h
    rw [List.cons_append, replay]
    split at h
    · exact ih h
    · cases h
    · cases h

/-! ### An MF run (R186, R187) -/

/-- An MF run with no turn due and no other run under way: the index is the window, and the commands emitted so far, on
an empty sink, rebuild SRC up to `pos`. -/
structure FinderRun (s : State) : Prop where
  agenda : s.agenda = []
  stopped : s.st.running = false
  unframed : s.framed = false
  scanning : Scanning s
  rebuilds : ∀ e, EmptySink e → ∃ u, replay s.cmdq e = .next u ∧ Rebuilt s.src s.pos e u

/-- A step of the run emits a command and moves `pos` on. -/
theorem FinderRun.step {s : State} (hs : FinderRun s) (hmst : s.mst = .scan) (hpos : s.pos < s.m) :
    ∃ t, Machine.step s = .next t ∧ FinderRun t ∧ t.mst = .scan ∧ t.m = s.m ∧ t.src = s.src ∧
      s.pos < t.pos := by
  obtain ⟨hagenda, hst, hfr, hscan, hreb⟩ := hs
  obtain ⟨t, ht, hframe, hlen, -⟩ := (finderStepCoversItsCommand s hagenda hst hfr hmst).2 hpos
  have hscan' : Scanning t := mfStep_scanning (fun _ => hscan)
    ((step_of_mf hagenda hst hfr).symm.trans ht) (by rw [hframe]; exact hmst)
  refine ⟨t, ht, ?_, ?_⟩
  · refine ⟨by rw [hframe]; exact hagenda, by rw [hframe]; exact hst, by rw [hframe]; exact hfr,
      hscan', fun e he => ?_⟩
    obtain ⟨u, hu, hrebuilt⟩ := hreb e he
    obtain ⟨v, hv, hrebuilt'⟩ := chosen_rebuilds hscan he hrebuilt
    rw [hframe]
    exact ⟨v, (replay_concat hu).trans hv, hrebuilt'⟩
  · rw [hframe]
    exact ⟨hmst, rfl, rfl, Nat.lt_add_of_pos_right hlen⟩

/-- A machine that waits goes on waiting. -/
theorem run_of_waiting {M : Host.Core} {s : M.State} (h : M.step s = .next s) (k : Nat) :
    M.run k s = .next s := by
  induction k with
  | zero => rfl
  | succ k ih => rw [run_succ k h, ih]

/-- At the end of SRC the run takes one step to DONE and then waits. -/
theorem FinderRun.run_at_end {s : State} (hs : FinderRun s) (hmst : s.mst = .scan)
    (hend : s.m ≤ s.pos) (k : Nat) : ∃ t, Host.Core.run Sys2Proof.core (k + 1) s = .next t ∧
      FinderRun t ∧ t.mst = .done ∧ t.pos = s.m ∧ t.src = s.src := by
  obtain ⟨hagenda, hst, hfr, hscan, hreb⟩ := hs
  have hdone : Sys2Proof.core.step s = .next { s with mst := .done } :=
    (finderStepCoversItsCommand s hagenda hst hfr hmst).1 hend
  have hwaits : Sys2Proof.core.step { s with mst := .done } = .next { s with mst := .done } :=
    step_of_idle (s := { s with mst := .done }) hagenda hst hfr nofun
  refine ⟨{ s with mst := .done }, ?_, ⟨hagenda, hst, hfr, hscan, hreb⟩, rfl,
    hscan.1.antisymm hend, rfl⟩
  rw [run_succ (M := Sys2Proof.core) k hdone]
  exact run_of_waiting (M := Sys2Proof.core) hwaits k

/-- With at most `k` bytes of SRC left the run is over after `k + 1` steps: each but the last covers a byte. -/
theorem FinderRun.run_ends (k : Nat) : ∀ {s : State}, FinderRun s → s.mst = .scan →
    s.m ≤ s.pos + k → ∃ t, Host.Core.run Sys2Proof.core (k + 1) s = .next t ∧
      FinderRun t ∧ t.mst = .done ∧ t.pos = s.m ∧ t.src = s.src := by
  induction k with
  | zero => exact fun hs hmst hend => hs.run_at_end hmst hend 0
  | succ k ih =>
    intro s hs hmst hleft
    rcases Nat.lt_or_ge s.pos s.m with hpos | hend
    · obtain ⟨t, ht, hrun, hmst', hm, hsrc, hlt⟩ := hs.step hmst hpos
      rw [run_succ (M := Sys2Proof.core) (k + 1) ht, ← hm, ← hsrc]
      exact ih hrun hmst' (by omega)
    · exact hs.run_at_end hmst hend (k + 1)

/-- A state with MF's elements at their values after START is one that START gives (R31). -/
theorem startMf_of_started {s : State} (hmst : s.mst = .scan) (hpos : s.pos = 0)
    (hidx : s.idx = []) (hhead : s.headT = []) (htail : s.tailT = []) (hnext : s.nextT = [])
    (hcmdq : s.cmdq = []) : startMf s = s := by
  cases s
  dsimp only at *
  subst_vars
  rfl

/-- A run about to begin has emitted nothing, which rebuilds nothing. -/
theorem finderRun_of_start {s : State} (hagenda : s.agenda = []) (hst : s.st.running = false)
    (hfr : s.framed = false) (hstart : startMf s = s) : FinderRun s := by
  have hpos : s.pos = 0 := congrArg State.pos hstart.symm
  have hcmdq : s.cmdq = [] := congrArg State.cmdq hstart.symm
  refine ⟨hagenda, hst, hfr, hstart ▸ startMf_scanning s, fun e he => ⟨e, ?_, ?_⟩⟩
  · rw [hcmdq]
    rfl
  · rw [hpos]
    exact rebuilt_of_empty s.src he

/-- Settles O40: at the start `M` bytes are left, and at the end the commands have rebuilt SRC up to `M`. -/
theorem finderRunReplaysToItsSource : Obligations.FinderRunReplaysToItsSource := by
  intro s hagenda hst hfr hmst hpos hidx hhead htail hnext hcmdq
  have hs := finderRun_of_start hagenda hst hfr
    (startMf_of_started hmst hpos hidx hhead htail hnext hcmdq)
  obtain ⟨t, ht, hrun, hdone, hend, hsrc⟩ := hs.run_ends s.m hmst (Nat.le_add_left _ _)
  refine ⟨t, ht, hdone, hend, fun e he => ?_⟩
  obtain ⟨u, hu, hframe, -, hbytes⟩ := hrun.rebuilds e he
  rw [hend] at hframe hbytes
  rw [hsrc] at hbytes
  exact ⟨u, hu, by rw [hframe], by rw [hframe], by rw [hframe], hbytes⟩

end Sys2Proof.Machine

namespace Sys2Proof.Machine

/-! ## The framing: one step per part of a frame (R200 to R205) -/

/-! ### The step and the part that is due -/

/-- With no turn due and DEC in no run, the machine's step in a framed run is FR's (R200). -/
theorem step_of_framed {s : State} (hagenda : s.agenda = []) (hst : s.st.running = false)
    (hfr : s.framed = true) : step s = frStep s := by
  rw [step_of_no_agenda hagenda, State.mover, hst, hfr]
  rfl

theorem step_of_pfx {s : State} (hagenda : s.agenda = []) (hst : s.st.running = false)
    (hfst : s.fst = .pfx) : step s = frPrefix s := by
  rw [step_of_framed hagenda hst (by rw [State.framed, hfst]; rfl), frStep, hfst]

theorem step_of_payload {s : State} (hagenda : s.agenda = []) (hst : s.st.running = false)
    (hfst : s.fst = .payload) : step s = frPayloadStep s := by
  rw [step_of_framed hagenda hst (by rw [State.framed, hfst]; rfl), frStep, hfst]

theorem step_of_cont {s : State} (hagenda : s.agenda = []) (hst : s.st.running = false)
    (hfst : s.fst = .cont) : step s = frContStep s := by
  rw [step_of_framed hagenda hst (by rw [State.framed, hfst]; rfl), frStep, hfst]

/-- Settles O25, one running state of FR at a time. -/
theorem stepRunsTheChunkPart : Obligations.StepRunsTheChunkPart := by
  intro s i fp hagenda hst
  refine ⟨fun hfst hleft hdec => ?_, fun hfst hdec => ?_, fun hfst hdec => ?_⟩
  · rw [step_of_pfx hagenda hst hfst, frPrefix, if_neg (by omega), hdec]
  · rw [step_of_payload hagenda hst hfst, frPayloadStep, hdec]
  · rw [step_of_cont hagenda hst hfst, frContStep, hdec]

/-! ### Parts cut short by the end of FS (R202 to R205) -/

/-- At and beyond the length of a space there is no byte to read (R41). -/
theorem source_eq_none {m : Memory} {len a : Nat} (h : len ≤ a) : m.source len a = none :=
  if_neg (Nat.not_lt.2 h)

/-- A length field needs two bytes. -/
theorem decodeLength_of_short {m : Memory} {len fp : Nat} (h : len < fp + 2) :
    decodeLength (m.source len) fp = none := by
  have hhi : m.source len (fp + 1) = none := source_eq_none (Nat.le_of_lt_succ h)
  unfold decodeLength
  split
  · rfl
  · rw [hhi]

theorem decodePayload_of_short {m : Memory} {len fp plen : Nat} (hfp : fp ≤ len)
    (h : len < fp + plen) : decodePayload (m.source len) fp plen = none :=
  if_neg fun hlen => Nat.not_le.2 h (availableBytes_source plen fp hfp hlen)

theorem decodeCont_of_short {m : Memory} {len fp : Nat} (h : len ≤ fp) :
    decodeCont (m.source len) fp = none := by
  rw [decodeCont, source_eq_none h]

/-- FrPrefix where the length field is cut short: UnrecognizedChunkHeader if a chunk announced another one and nothing
is left, else Truncated (R202). -/
theorem frPrefix_of_short {s : State} (h : s.fn < s.fp + 2) : frPrefix s =
    .next (raise (if s.fn - s.fp = 0 ∧ 0 < s.chunks then .unrecognizedChunkHeader else .truncated)
      s) := by
  unfold frPrefix
  rw [State.fsSource, decodeLength_of_short h]
  split <;> rfl

/-! ### What the length field and the continuation byte do (R202, R204) -/

theorem frLength_of_lt {l : BitVec 16} (h : l.toNat < 2) (s : State) :
    frLength l s = .next (raise .unrecognizedChunkHeader s) := if_pos h

theorem frLength_of_le {l : BitVec 16} (h : 2 ≤ l.toNat) (s : State) :
    frLength l s = .next { s with plen := l.toNat - 2, fst := .payload } := if_neg (Nat.not_lt.2 h)

theorem frCont_eq (k : Byte) (s : State) :
    frCont k s = .next { s with fst := if k = 0 then .done else .pfx } := by
  unfold frCont
  split <;> rfl

/-- Settles O30: the length that was read, and the three ways to be short of it. -/
theorem lengthFieldOfAFrame : Obligations.LengthFieldOfAFrame := by
  refine ⟨fun s l => ⟨fun hle => frLength_of_le hle s, fun hlt =>
    ⟨_, frLength_of_lt hlt s, raise_errorEntered _ s⟩⟩, fun s hagenda hst hfst => ?_⟩
  have hshort (h : s.fn < s.fp + 2) := (step_of_pfx hagenda hst hfst).trans (frPrefix_of_short h)
  refine ⟨fun hend hchunks => ⟨_, hshort (by omega), ?_⟩,
    fun hend hchunks => ⟨_, hshort (by omega), ?_⟩, fun hone => ⟨_, hshort (by omega), ?_⟩⟩
  · rw [if_pos ⟨Nat.sub_eq_zero_of_le hend, hchunks⟩]
    exact raise_errorEntered _ s
  · rw [if_neg (by omega)]
    exact raise_errorEntered _ s
  · rw [if_neg (by omega)]
    exact raise_errorEntered _ s

/-- Settles O33: the byte that was read, a byte that is not there, and a payload that is not all there. -/
theorem continuationByteOfAFrame : Obligations.ContinuationByteOfAFrame := by
  refine ⟨fun s k => frCont_eq k s, fun s hagenda hst => ⟨fun hfst hend => ?_,
    fun hfst hfp hshort => ?_⟩⟩ <;> refine ⟨_, ?_, raise_errorEntered .truncated s⟩
  · rw [step_of_cont hagenda hst hfst, frContStep, State.fsSource, decodeCont_of_short hend]
  · rw [step_of_payload hagenda hst hfst, frPayloadStep, State.fsSource,
      decodePayload_of_short hfp hshort]

/-! ### The payload is a DEC run (R203, R230, R251) -/

theorem DecFrame.cfg {s t : State} (h : DecFrame s t) : t.cfg = s.cfg := by
  unfold DecFrame at h
  rw [h]

/-- Without OUT_CAP no step of DEC is refused (R157). -/
theorem decSteps_answers (k : Nat) : ∀ {s : State}, s.cfg.outCap = none →
    ∃ t, decSteps k s = .next t := by
  induction k with
  | zero => exact fun {s} _ => ⟨s, rfl⟩
  | succ k ih =>
    intro s hout
    obtain ⟨u, hu⟩ := (decStep_answered s).resolve_right fun h => h.2 hout
    obtain ⟨t, ht⟩ := ih (s := u) ((decStep_move hu).frame.cfg ▸ hout)
    exact ⟨t, by rw [decSteps, hu]; exact ht⟩

/-- DEC is IDLE after reset only: no step of it goes back there. -/
theorem DecMove.not_idle {s t : State} (hs : s.st ≠ .idle) (h : DecMove s t) : t.st ≠ .idle := by
  cases h with
  | waits => exact hs
  | raised => rw [raise_st]; nofun
  | header | legSelected | ended | exhausted => nofun
  | appended => rwa [putBytes_st]

/-- The DEC run of a payload ends in DONE or ERROR (R230). -/
theorem payloadRun_terminal {p : List Byte} {s u : State}
    (h : decSteps (decRunBound p.length) (frLoad p s).decStarted = .next u) :
    u.st.terminal = true :=
  have hbegun : (frLoad p s).decStarted.st ≠ .idle := nofun
  terminal_of_not_running
    (decSteps_preserves (P := fun v => v.st ≠ .idle) (fun _ _ => DecMove.not_idle) _ hbegun h)
    (payloadRun_ends h)

/-- What FrPayload answers, the DEC run of the payload given (R203). -/
theorem frPayload_of_run {p : List Byte} {s u : State} (hfits : (frLoad p s).inputFits = true)
    (hrun : decSteps (decRunBound p.length) (frLoad p s).decStarted = .next u) :
    frPayload p s = .next (frEndPayload u) := by
  simp only [frPayload, startDec, hfits, if_true, decRun_eq_decSteps, hrun]

/-- A payload within IN_CAP completes as a whole DEC run on a machine without OUT_CAP (R203). -/
theorem frPayload_completes {p : List Byte} {s : State} (hfits : (frLoad p s).inputFits = true)
    (hout : s.cfg.outCap = none) : ∃ u,
      decSteps (decRunBound p.length) (frLoad p s).decStarted = .next u ∧
      frPayload p s = .next (frEndPayload u) := by
  obtain ⟨u, hu⟩ := decSteps_answers (decRunBound p.length) (s := (frLoad p s).decStarted) hout
  exact ⟨u, hu, frPayload_of_run hfits hu⟩

/-- A payload longer than IN_CAP is refused (U5). -/
theorem frPayload_of_long {p : List Byte} {s : State} {cap : Nat} (hcap : s.cfg.inCap = some cap)
    (h : cap < p.length) : frPayload p s = .refused .inCapExceeded := by
  have hfits : (frLoad p s).inputFits = false := by
    simp only [State.inputFits, frLoad, hcap]
    exact decide_eq_false (Nat.not_le.2 h)
  simp [frPayload, startDec, hfits]

theorem frEndPayload_of_done {u : State} (h : u.st = .done) : frEndPayload u = frCollect u := by
  rw [frEndPayload, h]

theorem frEndPayload_of_error {u : State} (h : u.st = .error) :
    frEndPayload u = { u with fst := .error } := by
  rw [frEndPayload, h]

/-- The DEC run of a payload that ends in DONE leaves FR's registers and `sink_mode` alone. -/
theorem payloadRun_kept {p : List Byte} {s u : State}
    (h : decSteps (decRunBound p.length) (frLoad p s).decStarted = .next u) (hdone : u.st = .done) :
    FrKept s u ∧ u.sinkMode = s.sinkMode := by
  obtain ⟨hframe, hkept⟩ := decSteps_frame h
  obtain ⟨-, -, -, hmode⟩ := hframe.framing
  exact ⟨hkept (by rw [hdone]; nofun), hmode⟩

/-- A payload's IN holds its bytes from address 0 on. -/
theorem Memory.read_ofBytes (bs : List Byte) (a : Nat) :
    (Memory.ofBytes bs).read a = bs.getD a 0 := by
  rw [Memory.ofBytes, Memory.read_writeBytes bs [] 0 a Memory.wf_nil, Nat.sub_zero, Nat.zero_add,
    Memory.read_nil]
  split
  next => rfl
  next hout => rw [List.getD_eq_default _ _ (by omega)]

/-- Settles O31: the run is the one of `decRunBound` steps from the state START gives on the loaded payload. -/
theorem payloadIsOneWholeDecRun : Obligations.PayloadIsOneWholeDecRun := by
  intro s p
  refine ⟨fun hin hout => ?_, fun cap hcap hlong => frPayload_of_long hcap hlong⟩
  obtain ⟨u, hrun, hend⟩ := frPayload_completes (p := p) (inputFits_of_le (s := frLoad p s) hin) hout
  refine ⟨(frLoad p s).decStarted, u, frEndPayload u, decRunBound p.length,
    Memory.read_ofBytes p, Memory.wf_ofBytes p, rfl, hrun, payloadRun_terminal hrun, hend,
    fun hdone => ?_, frEndPayload_of_error⟩
  obtain ⟨⟨-, -, -, hstotal, hchunks⟩, -⟩ := payloadRun_kept hrun hdone
  rw [frEndPayload_of_done hdone, ← hstotal, ← hchunks]
  rfl

/-! ### The output of a payload (R203) -/

/-- FrPayload's end reports DEC's result and does not touch it. -/
theorem frEndPayload_st (u : State) : (frEndPayload u).st = u.st := by
  obtain ⟨sout, stotal, chunks, fst, he⟩ := frEndPayload_eq u
  rw [he]

/-- In MATERIALIZE mode DEC's output stands in SOUT from `stotal` on, and the rest of SOUT is as before. -/
theorem frCollect_sout_materialize {u : State} (hwf : u.sout.wf) (hmode : u.sinkMode = .materialize)
    (a : Nat) : (frCollect u).sout.read a =
      if u.stotal ≤ a ∧ a < u.stotal + u.olen then u.out.read (a - u.stotal)
      else u.sout.read a := by
  simp only [frCollect, hmode, Memory.read_writeBytes _ _ _ _ hwf, Memory.length_readBytes]
  split
  next hin => rw [Memory.getD_readBytes _ _ _ _ (by omega), Nat.zero_add]
  next => rfl

theorem frCollect_sout_sizeOnly {u : State} (hmode : u.sinkMode = .sizeOnly) :
    (frCollect u).sout = u.sout := by
  simp only [frCollect, hmode]

/-- Settles O32: DEC's run left FR's registers alone, so what FR collects onto is what it had. -/
theorem payloadOutputIsCollected : Obligations.PayloadOutputIsCollected := by
  intro s t p hwf h hdone
  obtain ⟨u, -, hrun, rfl⟩ := frPayload_next h
  rw [frEndPayload_st] at hdone
  obtain ⟨⟨-, -, hsout, hstotal, hchunks⟩, hsink⟩ := payloadRun_kept hrun hdone
  rw [frEndPayload_of_done hdone, ← hsout, ← hstotal, ← hchunks, ← hsink]
  rw [← hsout] at hwf
  exact ⟨rfl, rfl, rfl, frCollect_sout_materialize hwf, frCollect_sout_sizeOnly⟩

/-! ### A framed run ends (R205, R230) -/

/-- A part of a frame completes on a machine without capacities. -/
theorem execChunk_completes (part : ChunkPart) {s : State} (hin : s.cfg.inCap = none)
    (hout : s.cfg.outCap = none) : ∃ t, exec (.chunk part) s = .next t := by
  cases part with
  | length l =>
    rcases Nat.lt_or_ge l.toNat 2 with hlt | hle
    · exact ⟨_, frLength_of_lt hlt s⟩
    · exact ⟨_, frLength_of_le hle s⟩
  | payload p =>
    have hfits : (frLoad p s).inputFits = true :=
      inputFits_of_le fun cap hcap => nomatch hin.symm.trans hcap
    obtain ⟨u, -, hu⟩ := frPayload_completes hfits hout
    exact ⟨_, hu⟩
  | cont k => exact ⟨_, frCont_eq k s⟩

theorem decodeLength_chunk {rd : Source} {fp fp' : Nat} {i : Instr}
    (h : decodeLength rd fp = some (i, fp')) : ∃ part, i = .chunk part := by
  unfold decodeLength at h
  split at h
  · cases h
  · split at h <;> cases h
    exact ⟨_, rfl⟩

theorem decodePayload_chunk {rd : Source} {fp fp' plen : Nat} {i : Instr}
    (h : decodePayload rd fp plen = some (i, fp')) : ∃ part, i = .chunk part := by
  unfold decodePayload at h
  dsimp only at h
  split at h <;> cases h
  exact ⟨_, rfl⟩

theorem decodeCont_chunk {rd : Source} {fp fp' : Nat} {i : Instr}
    (h : decodeCont rd fp = some (i, fp')) : ∃ part, i = .chunk part := by
  unfold decodeCont at h
  split at h <;> cases h
  exact ⟨_, rfl⟩

/-- Every step of FR answers on a machine without capacities. -/
theorem frStep_answers {s : State} (hin : s.cfg.inCap = none) (hout : s.cfg.outCap = none) :
    ∃ t, frStep s = .next t := by
  have hpart {i : Instr} (hi : ∃ part, i = .chunk part) (fp : Nat) :
      ∃ t, exec i { s with fp := fp } = .next t := by
    obtain ⟨part, rfl⟩ := hi
    exact execChunk_completes part hin hout
  unfold frStep
  cases s.fst with
  | idle | done | error => exact ⟨s, rfl⟩
  | pfx =>
    change ∃ t, frPrefix s = .next t
    unfold frPrefix
    split
    · exact ⟨_, rfl⟩
    · split
      · exact ⟨_, rfl⟩
      next hd => exact hpart (decodeLength_chunk hd) _
  | payload =>
    change ∃ t, frPayloadStep s = .next t
    unfold frPayloadStep
    split
    · exact ⟨_, rfl⟩
    next hd => exact hpart (decodePayload_chunk hd) _
  | cont =>
    change ∃ t, frContStep s = .next t
    unfold frContStep
    split
    · exact ⟨_, rfl⟩
    next hd => exact hpart (decodeCont_chunk hd) _

/-- A bound on the steps a framed run has left: a length field and a continuation byte take 3 bytes of FS and, with
the payload between them, 3 steps; one step more finds the end of FS. -/
def State.frStepsLeft (s : State) : Nat :=
  match s.fst with
  | .pfx | .cont => s.fn - s.fp + 1
  | .payload => s.fn - s.fp + 2
  | .idle | .done | .error => 0

theorem frStepsLeft_of_pfx {s : State} (h : s.fst = .pfx) : s.frStepsLeft = s.fn - s.fp + 1 := by
  rw [State.frStepsLeft, h]

theorem frStepsLeft_of_payload {s : State} (h : s.fst = .payload) :
    s.frStepsLeft = s.fn - s.fp + 2 := by
  rw [State.frStepsLeft, h]

theorem frStepsLeft_of_cont {s : State} (h : s.fst = .cont) : s.frStepsLeft = s.fn - s.fp + 1 := by
  rw [State.frStepsLeft, h]

theorem frStepsLeft_eq_zero_iff (s : State) : s.frStepsLeft = 0 ↔ s.framed = false := by
  unfold State.frStepsLeft State.framed
  cases s.fst <;> simp [FrState.running]

/-- A framed run has a step left. -/
theorem frStepsLeft_pos {s : State} (h : s.framed = true) : 0 < s.frStepsLeft := by
  refine Nat.pos_of_ne_zero fun hzero => ?_
  rw [(frStepsLeft_eq_zero_iff s).1 hzero] at h
  cases h

/-- A framed run that has begun, on a machine without capacities and with no turn due: the machine's steps are FR's
until the run is over, then MF's. -/
structure FrAlone (s : State) : Prop where
  agenda : s.agenda = []
  inCap : s.cfg.inCap = none
  outCap : s.cfg.outCap = none
  decStopped : s.st.running = false
  begun : s.fst ≠ .idle
  inFs : s.framed = true → s.fp ≤ s.fn

/-- FR writes neither the agenda, nor the parameters, nor `FN` (R23). -/
theorem FrFrame.fixed {s t : State} (h : FrFrame s t) :
    t.agenda = s.agenda ∧ t.cfg = s.cfg ∧ t.fn = s.fn := by
  unfold FrFrame at h
  refine ⟨?_, ?_, ?_⟩ <;> rw [h]

/-- An error in a framed run is FR's last step (R205). -/
theorem raise_ends_framed (e : Error) {s : State} (h : s.framed = true) :
    (raise e s).fst = .error := by
  obtain ⟨-, -, -, hfst⟩ := raise_sets e s
  rw [hfst, if_pos h]

/-- What a step of FR in a framed run comes to: DEC is in no run after it, and either the run is over or it goes on
inside FS with fewer steps left. -/
def FrProgress (s t : State) : Prop :=
  t.st.running = false ∧
  (t.fst = .done ∨ t.fst = .error ∨
    t.framed = true ∧ t.fp ≤ s.fn ∧ t.frStepsLeft < s.frStepsLeft)

/-- The payload's step makes progress: its DEC run is over, and FR takes the result (R203). -/
theorem payloadRun_progress {s u : State} {p : List Byte} (hfst : s.fst = .payload)
    (hfp : s.fp + s.plen ≤ s.fn)
    (hrun : decSteps (decRunBound p.length) (frLoad p { s with fp := s.fp + s.plen }).decStarted =
      .next u) : FrProgress s (frEndPayload u) := by
  refine ⟨by rw [frEndPayload_st]; exact payloadRun_ends hrun, ?_⟩
  have hterm : u.st.terminal = true := payloadRun_terminal hrun
  cases hst : u.st with
  | idle | select | advReadControl | legOpcode => rw [hst] at hterm; cases hterm
  | error => exact .inr (.inl (by rw [frEndPayload_of_error hst]))
  | done =>
    obtain ⟨⟨hfp', -⟩, -⟩ := payloadRun_kept hrun hst
    obtain ⟨hfn', -⟩ := (decSteps_frame hrun).1.framing
    change u.fp = s.fp + s.plen at hfp'
    change u.fn = s.fn at hfn'
    rw [frEndPayload_of_done hst]
    refine .inr (.inr ⟨rfl, hfp'.trans_le hfp, ?_⟩)
    rw [frStepsLeft_of_payload hfst, frStepsLeft_of_cont (s := frCollect u) rfl]
    change u.fn - u.fp + 1 < _
    omega

/-- Every step of FR in a framed run makes progress. -/
theorem FrMove.progress {s t : State} (hs : FrAlone s) (hfr : s.framed = true) (h : FrMove s t) :
    FrProgress s t := by
  cases h with
  | waits hfr' => rw [hfr] at hfr'; cases hfr'
  | raised _ fp e => exact ⟨by rw [raise_st]; rfl, .inr (.inl (raise_ends_framed e hfr))⟩
  | payloadRun hfst p hfp u hrun => exact payloadRun_progress hfst (hfp (hs.inFs hfr)) hrun
  | lengthRead hfst hfp l =>
    refine ⟨hs.decStopped, .inr (.inr ⟨rfl, hfp, ?_⟩)⟩
    rw [frStepsLeft_of_pfx hfst]
    change s.fn - (s.fp + 2) + 2 < _
    omega
  | contRead hfst hfp f hf =>
    rcases hf with rfl | rfl
    · exact ⟨hs.decStopped, .inl rfl⟩
    · refine ⟨hs.decStopped, .inr (.inr ⟨rfl, hfp, ?_⟩)⟩
      rw [frStepsLeft_of_cont hfst]
      change s.fn - (s.fp + 1) + 1 < _
      omega

/-- After progress the run is still FR's alone, with fewer steps left. -/
theorem FrAlone.of_progress {s t : State} (hs : FrAlone s) (hfr : s.framed = true)
    (hframe : FrFrame s t) (h : FrProgress s t) :
    FrAlone t ∧ t.frStepsLeft < s.frStepsLeft := by
  obtain ⟨hagenda, hcfg, hfn⟩ := hframe.fixed
  obtain ⟨hst, hgoes⟩ := h
  have alone (hbegun : t.fst ≠ .idle) (hfp : t.framed = true → t.fp ≤ t.fn) : FrAlone t :=
    ⟨hagenda.trans hs.agenda, hcfg ▸ hs.inCap, hcfg ▸ hs.outCap, hst, hbegun, hfp⟩
  have ended (hbegun : t.fst ≠ .idle) (hend : t.framed = false) :
      FrAlone t ∧ t.frStepsLeft < s.frStepsLeft := by
    refine ⟨alone hbegun fun hfr' => absurd (hend.symm.trans hfr') nofun, ?_⟩
    rw [(frStepsLeft_eq_zero_iff t).2 hend]
    exact frStepsLeft_pos hfr
  rcases hgoes with hdone | herror | ⟨hfr', hfp, hlt⟩
  · exact ended (by rw [hdone]; nofun) (by rw [State.framed, hdone]; rfl)
  · exact ended (by rw [herror]; nofun) (by rw [State.framed, herror]; rfl)
  · refine ⟨alone (fun hidle => ?_) fun _ => hfn ▸ hfp, hlt⟩
    rw [State.framed, hidle] at hfr'
    cases hfr'

/-- A step of the machine uses up one of FR's steps, if any is left. -/
theorem step_frAlone {s : State} (hs : FrAlone s) :
    ∃ t, step s = .next t ∧ FrAlone t ∧ t.frStepsLeft ≤ s.frStepsLeft - 1 := by
  cases hfr : s.framed with
  | true =>
    obtain ⟨t, ht⟩ := frStep_answers hs.inCap hs.outCap
    have hmove : FrMove s t := frStep_move ht
    obtain ⟨halone, hlt⟩ := hs.of_progress hfr hmove.frame (hmove.progress hs hfr)
    exact ⟨t, (step_of_framed hs.agenda hs.decStopped hfr).trans ht, halone,
      Nat.le_sub_one_of_lt hlt⟩
  | false =>
    obtain ⟨t, ht⟩ := mfStep_answers s
    refine ⟨t, (step_of_mf hs.agenda hs.decStopped hfr).trans ht, ?_⟩
    obtain ⟨pos, idx, headT, tailT, nextT, cmdq, mst, rfl⟩ := mfStep_frame ht
    refine ⟨⟨hs.agenda, hs.inCap, hs.outCap, hs.decStopped, hs.begun, hs.inFs⟩, ?_⟩
    rw [(frStepsLeft_eq_zero_iff s).2 hfr]
    exact ((frStepsLeft_eq_zero_iff _).2 hfr).le

theorem done_or_error_of_not_framed {s : State} (hbegun : s.fst ≠ .idle) (h : s.framed = false) :
    s.fst = .done ∨ s.fst = .error := by
  unfold State.framed at h
  cases hfst : s.fst with
  | idle => exact absurd hfst hbegun
  | done => exact .inl rfl
  | error => exact .inr rfl
  | pfx | payload | cont => rw [hfst] at h; cases h

/-- In as many steps as are left the framed run is over. -/
theorem run_frAlone (k : Nat) : ∀ {s : State}, FrAlone s → s.frStepsLeft ≤ k →
    ∃ t, Host.Core.run Sys2Proof.core k s = .next t ∧ (t.fst = .done ∨ t.fst = .error) := by
  induction k with
  | zero =>
    intro s hs hk
    have hfr : s.framed = false := (frStepsLeft_eq_zero_iff s).1 (Nat.le_zero.1 hk)
    exact ⟨s, rfl, done_or_error_of_not_framed hs.begun hfr⟩
  | succ k ih =>
    intro s hs hk
    obtain ⟨t, ht, halone, hleft⟩ := step_frAlone hs
    rw [run_succ (M := Sys2Proof.core) k ht]
    exact ih halone (by omega)

/-- Settles O56: at a length field at most `FN + 1` steps are left, whatever `fp` is. -/
theorem everyFramedRunEnds : Obligations.EveryFramedRunEnds := by
  intro s hagenda hfst hst hfp hin hout
  refine run_frAlone (s.fn + 3) ⟨hagenda, hin, hout, hst, by rw [hfst]; nofun, fun _ => hfp⟩ ?_
  rw [frStepsLeft_of_pfx hfst]
  omega

end Sys2Proof.Machine

namespace Sys2Proof.Machine

/-! ## Errors and refusals (60_exceptions.md) -/

/-! ### The errors of the commands (R216) -/

/-- `t` is in the same run as `s`, and no error was raised between them. -/
def SameStatus (s t : State) : Prop := t.err = s.err ∧ t.freeCtr = s.freeCtr ∧ t.st = s.st

theorem putBytes_sameStatus (bs : List Byte) (s : State) : SameStatus s (putBytes bs s) := by
  rw [putBytes_frame]
  exact ⟨rfl, rfl, rfl⟩

/-- Literals end in no error (R151). -/
theorem emitLiterals_sameStatus {bs : List Byte} {s t : State} (h : emitLiterals bs s = .next t) :
    SameStatus s t := by
  rcases emitLiterals_cases bs s with ⟨-, he⟩ | ⟨-, he⟩ <;> rw [he] at h <;> cases h
  exact putBytes_sameStatus bs s

/-- A fill ends in no error (R152). -/
theorem emitFill_sameStatus {b : Byte} {c : Nat} {s t : State} (h : emitFill b c s = .next t) :
    SameStatus s t := by
  rcases emitFill_cases b c s with ⟨-, he⟩ | ⟨-, he⟩ <;> rw [he] at h <;> cases h
  rw [fillBytes_eq_putBytes]
  exact putBytes_sameStatus _ s

/-- The one error of a backreference is InvalidBackreference (R153). -/
theorem emitBackreference_status {o c : Nat} {s t : State} (h : emitBackreference o c s = .next t) :
    SameStatus s t ∨ (t.err = .invalidBackreference ∧ t.st = .error) := by
  rcases emitBackreference_cases o c s with ⟨-, he⟩ | ⟨-, -, -, he⟩ | ⟨-, -, -, he⟩ <;>
    rw [he] at h <;> cases h
  · exact .inr ⟨(raise_sets _ s).1, raise_st _ s⟩
  · obtain ⟨bs, -, hcopy⟩ := copyBytes_eq_putBytes o c s
    rw [hcopy]
    exact .inl (putBytes_sameStatus bs s)

/-- Settles O22: a command makes one sink operation, of which only the backreference raises an error; a REUSE opcode
is the whole command. -/
theorem commandsRaiseOnlyTheirErrors : Obligations.CommandsRaiseOnlyTheirErrors := by
  refine ⟨fun i s t h hi => ?_, fun rd op c k hlo hhi hdec => ?_⟩
  · have silent : SameStatus s t →
        t.err = s.err ∧ t.freeCtr = s.freeCtr ∧ (t.st = s.st ∨ i = .endMark) :=
      fun ⟨herr, hctr, hst⟩ => ⟨herr, hctr, .inl hst⟩
    cases i with
    | lit | verb | verbx => exact .inl (silent (emitLiterals_sameStatus h))
    | fill | fill12 | lfill | lfillx => exact .inl (silent (emitFill_sameStatus h))
    | smatch o cc =>
      exact (emitBackreference_status h).imp silent fun ⟨he, hst⟩ => ⟨he, hst, .inl ⟨o, cc, rfl⟩⟩
    | lmatch v cc =>
      exact (emitBackreference_status h).imp silent fun ⟨he, hst⟩ =>
        ⟨he, hst, .inr (.inl ⟨v, cc, rfl⟩)⟩
    | reuse n =>
      exact (emitBackreference_status h).imp silent fun ⟨he, hst⟩ =>
        ⟨he, hst, .inr (.inr (.inl ⟨n, rfl⟩))⟩
    | newoff n o =>
      exact (emitBackreference_status h).imp silent fun ⟨he, hst⟩ =>
        ⟨he, hst, .inr (.inr (.inr ⟨n, o, rfl⟩))⟩
    | endMark => cases h; exact .inl ⟨rfl, rfl, .inr rfl⟩
    | cc2 | cc3 | cc4 | cc5 | cc6 | cc14 | advHeader | chunk =>
      simp [Instr.isAdvCommand, Instr.isLegCommand] at hi
  · rw [decodeOpcode_reuse hlo (by omega)] at hdec
    cases hdec

/-! ### Fields before the check (R218) -/

/-- The control bits `1 0` begin an SMATCH (R111). -/
theorem decodeAdv_of_smatch_bits {fo : FieldOrder} {rd : Source} {c c1 c2 : Cursor}
    (h1 : readBit rd c = some (true, c1)) (h0 : readBit rd c1 = some (false, c2)) :
    decodeAdv fo rd c = decodeSmatch fo rd c2 := by
  simp only [decodeAdv, h1, h0]

/-- An SMATCH is not decoded without its count code, whatever offset was read (R113). -/
theorem decodeSmatch_of_count_cut {fo : FieldOrder} {rd : Source} {c c1 : Cursor} {o : Nat}
    (ho : readBits fo rd 8 c = some (o, c1)) (hcount : readCountCode fo rd c1 = none) :
    decodeSmatch fo rd c = none := by
  simp only [decodeSmatch, ho, hcount]

/-- Settles O29: the fetch fails, so the offset is never checked. -/
theorem cutShortBadMatchIsTruncated : Obligations.CutShortBadMatchIsTruncated := by
  intro s c1 c2 c3 v hagenda hst h1 h0 hoffset _ hcount
  obtain ⟨htruncated, -⟩ := endOfInputIsTruncatedOrDone s hagenda
  refine htruncated hst ?_
  rw [decodeAdv_of_smatch_bits h1 h0, decodeSmatch_of_count_cut hoffset hcount]

/-! ### Refused STARTs and writes (R227, R262, U5, U6) -/

theorem hostStartDec_busy {s : State} (hbusy : s.decBusy = true) :
    hostStartDec s = .refused .startWhileRunning := if_pos hbusy

theorem hostStartFr_busy {s : State} (hbusy : s.decBusy = true) :
    hostStartFr s = .refused .startWhileRunning := if_pos hbusy

theorem hostStartMf_busy {s : State} (hmst : s.mst.running = true) :
    hostStartMf s = .refused .startWhileRunning := if_pos hmst

theorem writeUnless_busy {busy : Bool} (h : busy = true) (s : State) :
    writeUnless busy s = .refused .writeWhileRunning := if_pos h

theorem mfRunning_of_scan {m : MfState} (h : m = .scan) : m.running = true := by rw [h]; rfl

/-- An `N` beyond IN_CAP does not fit (R5). -/
theorem inputFits_of_lt {s : State} {cap : Nat} (hcap : s.cfg.inCap = some cap) (hlt : cap < s.n) :
    s.inputFits = false := by
  simp only [State.inputFits, hcap, decide_eq_false_iff_not]
  omega

/-- A START of an idle DEC is refused for an input too long (U5, log 10). -/
theorem hostStartDec_too_long {s : State} {cap : Nat} (hbusy : s.decBusy = false)
    (hcap : s.cfg.inCap = some cap) (hlt : cap < s.n) :
    hostStartDec s = .refused .inCapExceeded := by
  simp [hostStartDec, hbusy, startDec, inputFits_of_lt hcap hlt]

/-- Settles O42: every guard of the host's port, on the state with the host's turn taken off. -/
theorem forbiddenHostActionsAreRefused : Obligations.ForbiddenHostActionsAreRefused := by
  intro s rest a h
  rw [step_of_host h]
  refine ⟨?_, ?_, ?_, ?_, ?_, ?_⟩
  · rintro hbusy (rfl | rfl)
    · exact hostStartDec_busy hbusy
    · exact hostStartFr_busy hbusy
  · rintro hmst rfl
    exact hostStartMf_busy (mfRunning_of_scan hmst)
  · rintro hbusy (⟨x, b, rfl⟩ | ⟨v, rfl⟩ | ⟨v, rfl⟩) <;> exact writeUnless_busy hbusy _
  · rintro hframed (⟨x, b, rfl⟩ | ⟨v, rfl⟩) <;> exact writeUnless_busy hframed _
  · rintro hmst (⟨x, b, rfl⟩ | ⟨v, rfl⟩ | ⟨p, v, rfl⟩) <;>
      exact writeUnless_busy (mfRunning_of_scan hmst) _
  · rintro hbusy rfl ⟨cap, hcap, hlt⟩
    exact hostStartDec_too_long hbusy hcap hlt

end Sys2Proof.Machine
